-- ==== Sys2Proof/Word.lean ====
section
/-! DEFINITION. The word and byte types of the CORE: every register is 32 bits wide (00_scope.md R8), BRAM holds bytes (20_memory.md R77). -/

namespace Sys2Proof

/-- A register value (R8). -/
abbrev Word := BitVec 32

/-- A BRAM byte, a character code, a byte of a stream (R20, R77). -/
abbrev Byte := BitVec 8

end Sys2Proof
end

