-- ==== Sys2Proof/Syntax.lean ====
section
/-! DEFINITION. The commands of the CORE: one constructor per row of spec/opcode_table.json (30_encoding.md R104). -/

namespace Sys2Proof

/-- A command. The three sine request commands carry SLOT, a 4-bit unsigned number (R101, R103); every other operand is read from ARG0..ARG3 when the command runs (R106). -/
inductive Instr where
  /-- NOP, 45_control.md R230 -/
  | nop
  /-- SINE_POPULATE, 40_sine.md R125 -/
  | sinePopulate (slot : Nat)
  /-- SINE_GENERATE, R127 -/
  | sineGen (slot : Nat)
  /-- SINE_GENERATE_FILL, R129 -/
  | sineFill (slot : Nat)
  /-- SINE_SAMPLE, R131 -/
  | sineSample
  /-- SINE_MIX, R132 -/
  | sineMix
  /-- DTMF_INIT, 41_dtmf.md R141 -/
  | dtmfInit
  /-- DTMF_BLOCK, R142 -/
  | dtmfBlock
  /-- PKT_FCS, 42_packet.md R161 -/
  | pktFcs
  /-- PKT_FRAME, R163 -/
  | pktFrame
  /-- PKT_RX_INIT, R166 -/
  | pktRxinit
  /-- PKT_RX_BYTE, R167 -/
  | pktRxbyte
  /-- PKT_RX_STREAM, R178 -/
  | pktRxstream
  /-- PI_NEXT, 43_digit_emotion.md R191 -/
  | piNext
  /-- PI_RX, R193 -/
  | piRx
  /-- PI_RESET, R194 -/
  | piReset
  /-- EMO_INIT, R196 -/
  | emoInit
  /-- EMO_UPDATE, R198 -/
  | emoUpdate
  /-- ORCH_TICK, 44_orchestrator.md R212 -/
  | orchTick
  /-- EVT_POP, 45_control.md R233 -/
  | evtPop
  /-- EVT_CLEAR, R234 -/
  | evtClear
  deriving DecidableEq, Repr

end Sys2Proof
end

