-- ==== Sys2Proof/WellFormed.lean ====
section
/-! DEFINITION. Which terms of Instr are commands: SLOT fits its 4-bit field (30_encoding.md R101, R103). -/

namespace Sys2Proof

/-- The SLOT field of a command: the slot of the three sine request commands, 0 for every other command (R101). -/
def Instr.slot : Instr → Nat
  | .sinePopulate slot => slot
  | .sineGen slot => slot
  | .sineFill slot => slot
  | .nop | .sineSample | .sineMix | .dtmfInit | .dtmfBlock | .pktFcs | .pktFrame | .pktRxinit
  | .pktRxbyte | .pktRxstream | .piNext | .piRx | .piReset | .emoInit | .emoUpdate | .orchTick
  | .evtPop | .evtClear => 0

/-- SLOT is a 4-bit unsigned number (R103). -/
abbrev Instr.WellFormed (i : Instr) : Prop := i.slot < 16

end Sys2Proof
end

