-- ==== Sys2Proof/Decode.lean ====
section
/-! DEFINITION. The command word (30_encoding.md R101 to R104): the decoder, total on every 32-bit word, and the encoder. -/

namespace Sys2Proof

/-- OPC, bits 7:0 of a command word (R101). -/
def opcOf (w : Word) : Byte := w.extractLsb' 0 8

/-- SLOT, bits 11:8 (R101). -/
def slotOf (w : Word) : Nat := (w.extractLsb' 8 4).toNat

/-- RSV, bits 31:12 (R101). -/
def rsvOf (w : Word) : BitVec 20 := w.extractLsb' 12 20

/-- The opcode map (R104): the command of an opcode, with the slot it would take; no command for an unassigned opcode. -/
def instrOf (opc : Byte) (slot : Nat) : Option Instr :=
  match opc.toNat with
  | 0x00 => some .nop
  | 0x10 => some (.sinePopulate slot)
  | 0x11 => some (.sineGen slot)
  | 0x12 => some (.sineFill slot)
  | 0x13 => some .sineSample
  | 0x14 => some .sineMix
  | 0x20 => some .dtmfInit
  | 0x21 => some .dtmfBlock
  | 0x30 => some .pktFcs
  | 0x31 => some .pktFrame
  | 0x32 => some .pktRxinit
  | 0x33 => some .pktRxbyte
  | 0x34 => some .pktRxstream
  | 0x40 => some .piNext
  | 0x41 => some .piRx
  | 0x42 => some .piReset
  | 0x50 => some .emoInit
  | 0x51 => some .emoUpdate
  | 0x60 => some .orchTick
  | 0x70 => some .evtPop
  | 0x71 => some .evtClear
  | _ => none

/-- The commands with a slot (R102): opcodes 0x10, 0x11 and 0x12. -/
def takesSlot (opc : Byte) : Bool := opc == 0x10#8 || opc == 0x11#8 || opc == 0x12#8

/-- Decoding a command word (R102); `none` is ILLEGAL. -/
def decode (w : Word) : Option Instr :=
  match instrOf (opcOf w) (slotOf w) with
  | none => none
  | some i =>
    if rsvOf w ≠ 0#20 then none
    else if takesSlot (opcOf w) = false ∧ slotOf w ≠ 0 then none
    else some i

/-- The opcode of a command (R104, R110). -/
def opcodeOf : Instr → Byte
  | .nop => 0x00#8
  | .sinePopulate _ => 0x10#8
  | .sineGen _ => 0x11#8
  | .sineFill _ => 0x12#8
  | .sineSample => 0x13#8
  | .sineMix => 0x14#8
  | .dtmfInit => 0x20#8
  | .dtmfBlock => 0x21#8
  | .pktFcs => 0x30#8
  | .pktFrame => 0x31#8
  | .pktRxinit => 0x32#8
  | .pktRxbyte => 0x33#8
  | .pktRxstream => 0x34#8
  | .piNext => 0x40#8
  | .piRx => 0x41#8
  | .piReset => 0x42#8
  | .emoInit => 0x50#8
  | .emoUpdate => 0x51#8
  | .orchTick => 0x60#8
  | .evtPop => 0x70#8
  | .evtClear => 0x71#8

/-- The word of a command: RSV = 0, SLOT, OPC (R101, R110). -/
def encode (i : Instr) : Word := (0#20 ++ BitVec.ofNat 4 i.slot ++ opcodeOf i : BitVec (20 + 4 + 8))

/-- The command the decoder reads from the row of `nbits` bits `w` of the opcode table: one 32-bit word (R101), the bits above `nbits` zero. -/
def decodeTableWord (nbits w : Nat) : Option Instr := decode (BitVec.ofNat 32 (w % 2 ^ nbits))

end Sys2Proof
end

