-- ==== Sys2Proof/Config.lean ====
section
/-! DEFINITION. The constants the document fixes, the parameters of one machine (00_scope.md R7) and the operations of the Goertzel number format GNUM (R18). -/

namespace Sys2Proof

/-- ID (10_state.md R28). -/
def Config.idValue : Word := 0x41524731#32

/-- PACKET_FLAG (R7, 42_packet.md R160). -/
def Config.flag : Byte := 0x7E#8

/-- PACKET_ESCAPE (R7, R160). -/
def Config.escape : Byte := 0x7D#8

/-- PACKET_FCS_INITIAL (R7, R160). -/
def Config.fcsInitial : BitVec 16 := 0xFFFF#16

/-- PACKET_MAX_FRAME (R7): named by the document and enforced by no rule (90_conflicts.md C5). -/
def Config.maxFrame : Nat := 1024

/-- PACKET_FRAMING_OVERHEAD (R7, R160). -/
def Config.framingOverhead : Nat := 8

/-- PACKET_MAX_PAYLOAD (R7, R160). -/
def Config.maxPayload : Nat := 1016

/-- HDR: the bytes the parser stores before the payload (R7). -/
def Config.hdr : Nat := 5

/-- DAC_BIAS (R7, 40_sine.md R123). -/
def Config.dacBias : Nat := 127

/-- PI_DIGIT_COUNT (R7, 10_state.md R52). -/
def Config.piDigitCount : Nat := 128

/-- HAPPY_TO_BORED_SECONDS (R7, R60). -/
def Config.happyToBoredSeconds : Nat := 3

/-- BORED_TO_LONELY_SECONDS (R7, R60). -/
def Config.boredToLonelySeconds : Nat := 5

/-- DTMF_ROWS in Hz (R7, 41_dtmf.md R140). -/
def Config.dtmfRows : List Nat := [697, 770, 852, 941]

/-- DTMF_COLS in Hz (R7, R140). -/
def Config.dtmfCols : List Nat := [1209, 1336, 1477, 1633]

/-- The eight tone frequencies f_0 .. f_7: the rows, then the columns (R140). -/
def Config.dtmfTones : List Nat := Config.dtmfRows ++ Config.dtmfCols

/-- SYM, the string "123A456B789C*0#D" as ASCII codes, indexed by 4·row + col (R20, R21). -/
def Config.symTable : List Byte :=
  [0x31#8, 0x32#8, 0x33#8, 0x41#8, 0x34#8, 0x35#8, 0x36#8, 0x42#8] ++
  [0x37#8, 0x38#8, 0x39#8, 0x43#8, 0x2A#8, 0x30#8, 0x23#8, 0x44#8]

/-- The reference content of SINE_ROM, sixteen entries a row (40_sine.md R122). -/
def Config.referenceRom : List Byte :=
  ([0, 1, 2, 2, 3, 4, 5, 5, 6, 7, 8, 9, 9, 10, 11, 12] ++
  [12, 13, 14, 15, 16, 16, 17, 18, 19, 19, 20, 21, 22, 22, 23, 24] ++
  [25, 26, 26, 27, 28, 29, 29, 30, 31, 32, 32, 33, 34, 35, 35, 36] ++
  [37, 38, 38, 39, 40, 41, 41, 42, 43, 44, 44, 45, 46, 46, 47, 48] ++
  [49, 49, 50, 51, 51, 52, 53, 54, 54, 55, 56, 56, 57, 58, 58, 59] ++
  [60, 61, 61, 62, 63, 63, 64, 65, 65, 66, 67, 67, 68, 69, 69, 70] ++
  [71, 71, 72, 72, 73, 74, 74, 75, 76, 76, 77, 78, 78, 79, 79, 80] ++
  [81, 81, 82, 82, 83, 84, 84, 85, 85, 86, 86, 87, 88, 88, 89, 89] ++
  [90, 90, 91, 91, 92, 93, 93, 94, 94, 95, 95, 96, 96, 97, 97, 98] ++
  [98, 99, 99, 100, 100, 101, 101, 102, 102, 102, 103, 103, 104, 104, 105, 105] ++
  [106, 106, 106, 107, 107, 108, 108, 109, 109, 109, 110, 110, 111, 111, 111, 112] ++
  [112, 112, 113, 113, 113, 114, 114, 114, 115, 115, 115, 116, 116, 116, 117, 117] ++
  [117, 118, 118, 118, 118, 119, 119, 119, 120, 120, 120, 120, 121, 121, 121, 121] ++
  [122, 122, 122, 122, 122, 123, 123, 123, 123, 123, 124, 124, 124, 124, 124, 124] ++
  [125, 125, 125, 125, 125, 125, 125, 126, 126, 126, 126, 126, 126, 126, 126, 126] ++
  [126, 126, 127, 127, 127, 127, 127, 127, 127, 127, 127, 127, 127, 127, 127, 127]).map (BitVec.ofNat 8)

/-- The first 128 decimal digits of π as ASCII characters (10_state.md R53). -/
def Config.referencePiDigits : List Byte :=
  ([3, 1, 4, 1, 5, 9, 2, 6, 5, 3, 5, 8, 9, 7, 9, 3] ++
  [2, 3, 8, 4, 6, 2, 6, 4, 3, 3, 8, 3, 2, 7, 9, 5] ++
  [0, 2, 8, 8, 4, 1, 9, 7, 1, 6, 9, 3, 9, 9, 3, 7] ++
  [5, 1, 0, 5, 8, 2, 0, 9, 7, 4, 9, 4, 4, 5, 9, 2] ++
  [3, 0, 7, 8, 1, 6, 4, 0, 6, 2, 8, 6, 2, 0, 8, 9] ++
  [9, 8, 6, 2, 8, 0, 3, 4, 8, 2, 5, 3, 4, 2, 1, 1] ++
  [7, 0, 6, 7, 9, 8, 2, 1, 4, 8, 0, 8, 6, 5, 1, 3] ++
  [2, 8, 2, 3, 0, 6, 6, 4, 7, 0, 9, 3, 8, 4, 4, 6]).map (fun d => BitVec.ofNat 8 (0x30 + d))

/-- GNUM, the numeric format of the Goertzel datapath (R7, 92_eei_decisions.md D22): the default IEEE-754 binary32, or another format, named by a number (log 8). -/
inductive GnumFormat where
  | binary32
  | other (n : Nat)
  deriving DecidableEq, Repr

/-- The parameters of one machine (R7, R76, 93_implementation_defined.md I1, I4, I6). No step changes them. -/
structure Config where
  /-- BRAM_SIZE, bytes of buffer RAM -/
  bramSize : Nat
  /-- NSREQ, number of sine request slots -/
  nsreq : Nat
  /-- EVQ_DEPTH, event queue capacity -/
  evqDepth : Nat
  /-- TPS, emotion clock ticks per second -/
  tps : Nat
  /-- GNUM, the numeric format of the Goertzel datapath -/
  gnum : GnumFormat
  /-- ADC_BIAS, the ADC code of the baseline -/
  adcBias : Nat
  /-- CORE_BASE, the HOST address of the window -/
  coreBase : Nat
  /-- SINE_ROM, 256 magnitudes -/
  sineRom : List Byte
  /-- PI_DIGITS, the 128 characters of PI_TABLE -/
  piDigits : List Byte
  deriving DecidableEq, Repr

/-- The default parameters (R7, R53, R122). CORE_BASE has no default in the spec: DESIGN CHOICE 0 (log 7). -/
def Config.default : Config where
  bramSize := 16384
  nsreq := 2
  evqDepth := 64
  tps := 1000
  gnum := .binary32
  adcBias := 127
  coreBase := 0
  sineRom := Config.referenceRom
  piDigits := Config.referencePiDigits

/-- The legal parameters: the ranges of R7, the facts of R121 about SINE_ROM, and a table of 128 ASCII digits (R52, R53; log 10). -/
abbrev Config.Legal (c : Config) : Prop :=
  2048 ≤ c.bramSize ∧ c.bramSize ≤ 16384 ∧ 1 ≤ c.nsreq ∧ c.nsreq ≤ 16 ∧ 8 ≤ c.evqDepth ∧
  c.sineRom.length = 256 ∧ (∀ m ∈ c.sineRom, m.toNat ≤ 127) ∧
  c.sineRom[0]? = some 0#8 ∧ c.sineRom[255]? = some 127#8 ∧
  c.piDigits.length = Config.piDigitCount ∧ (∀ d ∈ c.piDigits, 0x30 ≤ d.toNat ∧ d.toNat ≤ 0x39)

/-- What a GNUM pattern stands for: a real number (in 32 bits always a rational one), an infinity, or neither. -/
inductive Datum where
  | nan
  | inf (neg : Bool)
  | fin (q : Rat)

/-- The operations of the Goertzel datapath on 32-bit GNUM patterns (R18, 41_dtmf.md R144, R147). -/
structure Gnum where
  /-- what a pattern stands for -/
  datum : Word → Datum
  /-- the GNUM zero -/
  zero : Word
  /-- RN_G of the exact rational num / den -/
  ofRat : Int → Nat → Word
  /-- `+_G` -/
  add : Word → Word → Word
  /-- `-_G` -/
  sub : Word → Word → Word
  /-- `*_G` -/
  mul : Word → Word → Word
  /-- `/_G` -/
  div : Word → Word → Word
  /-- `<_G`, the ordered comparison -/
  lt : Word → Word → Bool
  /-- RN_G(cos(2π·f/Fs)), for f and then Fs -/
  cosTurn : Nat → Nat → Word
  /-- RN_G(sin(2π·f/Fs)), for f and then Fs -/
  sinTurn : Nat → Nat → Word

/-- The word is the exact result q rounded once; an exact zero gives a zero, of whichever sign (R18). -/
def Gnum.Rounded (G : Gnum) (w : Word) (q : Rat) : Prop :=
  (q ≠ 0 → w = G.ofRat q.num q.den) ∧ (q = 0 → G.datum w = .fin 0)

/-- The pattern stands for a real number. -/
def Gnum.Finite (G : Gnum) (w : Word) : Prop := ∃ q, G.datum w = .fin q

/-- What every GNUM does (R18): an operation on real numbers computes the exact result and rounds it once, rounding keeps a number of the format and never crosses zero, and the order is that of the numbers. The last fields are what 41_dtmf.md R154 takes for granted of a format: the coefficients, 2 and their products have values, and N/2 does not round to zero (log 8). -/
structure Gnum.Lawful (G : Gnum) : Prop where
  zero : G.datum G.zero = .fin 0
  ofRat (k : Int) (d : Nat) : 0 < d → G.Rounded (G.ofRat k d) (mkRat k d)
  keeps (w : Word) (q : Rat) : G.datum w = .fin q → G.datum (G.ofRat q.num q.den) = .fin q
  pos (k : Int) (d : Nat) : 0 < k → 0 < d →
    G.datum (G.ofRat k d) = .inf false ∨ ∃ q, 0 ≤ q ∧ G.datum (G.ofRat k d) = .fin q
  neg (k : Int) (d : Nat) : k < 0 → 0 < d →
    G.datum (G.ofRat k d) = .inf true ∨ ∃ q, q ≤ 0 ∧ G.datum (G.ofRat k d) = .fin q
  add (a b : Word) (x y : Rat) : G.datum a = .fin x → G.datum b = .fin y → G.Rounded (G.add a b) (x + y)
  sub (a b : Word) (x y : Rat) : G.datum a = .fin x → G.datum b = .fin y → G.Rounded (G.sub a b) (x - y)
  mul (a b : Word) (x y : Rat) : G.datum a = .fin x → G.datum b = .fin y → G.Rounded (G.mul a b) (x * y)
  div (a b : Word) (x y : Rat) : G.datum a = .fin x → G.datum b = .fin y → y ≠ 0 → G.Rounded (G.div a b) (x / y)
  divInf (a b : Word) (x : Rat) (s : Bool) : G.datum a = .fin x → G.datum b = .inf s → G.datum (G.div a b) = .fin 0
  square (a : Word) : ¬ G.Finite a → G.datum (G.mul a a) = .nan ∨ G.datum (G.mul a a) = .inf false
  lt (a b : Word) (x y : Rat) : G.datum a = .fin x → G.datum b = .fin y → (G.lt a b = true ↔ x < y)
  ltInf (a b : Word) (x : Rat) : G.datum a = .fin x → G.datum b = .inf false → G.lt a b = true
  cosFinite (f fs : Nat) : 0 < fs → G.Finite (G.cosTurn f fs)
  sinFinite (f fs : Nat) : 0 < fs → G.Finite (G.sinTurn f fs)
  twoCosFinite (f fs : Nat) : 0 < fs → G.Finite (G.mul (G.ofRat 2 1) (G.cosTurn f fs))
  half (n : Nat) : 0 < n → (∃ s, G.datum (G.ofRat n 2) = .inf s) ∨ ∃ q, q ≠ 0 ∧ G.datum (G.ofRat n 2) = .fin q

/-- The formats other than binary32: lawful, and otherwise uninterpreted, so that a statement about every machine holds whatever they compute (D22, 93_implementation_defined.md I3; log 8). A number that names no format stands for the default. -/
opaque Config.otherGnum : Nat → Option { G : Gnum // G.Lawful }

end Sys2Proof
end

