-- ==== Sys2Proof/Machine/State.lean ====
section
/-! DEFINITION. The state of the CORE as plain data (10_state.md), the HOST's inputs (00_scope.md R9, 70_reset_and_hazards.md R260), and the state after reset (R261). -/

namespace Sys2Proof.Machine

/-- The completion codes (60_exceptions.md R240). Codes 10..255 are never written, so they have no name here (93_implementation_defined.md I14). -/
inductive Status where
  | okay | invalid | undersampled | tooShort | wrong | exhausted | tooLong | illegal | erange | notFound
  deriving DecidableEq, Repr

/-- An event record: three words (10_state.md R36). -/
structure Event where
  w0 : Word
  w1 : Word
  w2 : Word
  deriving DecidableEq, Repr

/-- A sine request slot: eight 32-bit registers (10_state.md R37). -/
structure SineReq where
  buf : Word
  bufLen : Word
  theta0 : Word
  fTone : Word
  fSample : Word
  scale : Word
  resultLen : Word
  phaseErr : Word
  deriving DecidableEq, Repr

/-- The demodulator's state (10_state.md R40 to R43). `held` is the held symbol code, none for NONE (code 16). -/
structure DtmfState where
  fs : Word
  thresh : Word
  held : Option (Fin 16)
  dwell : Word
  init : Bool
  /-- COSW[0..7], hidden (R43) -/
  cosw : List Word
  /-- SINW[0..7], hidden (R43) -/
  sinw : List Word
  deriving DecidableEq, Repr

/-- The parser states, in the document's order (10_state.md R45). -/
inductive RxState where
  | idle | waitAddr | waitControl | waitLenHi | waitLenLo | inBody | waitFcsHi | waitFcsLo
  deriving DecidableEq, Repr

/-- The packet parser's state (10_state.md R45 to R51). -/
structure PktState where
  rx : RxState
  esc : Bool
  init : Bool
  rxbuf : Word
  rxcap : Word
  cursor : Word
  addr : Byte
  ctrl : Byte
  declared : BitVec 16
  remaining : BitVec 16
  running : BitVec 16
  received : BitVec 16
  deriving DecidableEq, Repr

/-- The Pi cursor: a position 0..128 or SENTINEL_WRONG (10_state.md R54). -/
inductive PiCursor where
  | pos (k : Fin 129)
  | sentinelWrong
  deriving DecidableEq, Repr

/-- The emotions (10_state.md R59). -/
inductive Emotion where
  | lonely | happy | bored | unknown
  deriving DecidableEq, Repr

/-- The emotion unit's state (10_state.md R59, R61). -/
structure EmoState where
  emotion : Emotion
  ts : Word
  deriving DecidableEq, Repr

/-- The orchestrator's states (10_state.md R64). -/
inductive OrchPhase where
  | idle | waitingSend | sending | waitingStop | done | restart
  deriving DecidableEq, Repr

/-- The orchestrator's state and configuration (10_state.md R66, R67). -/
structure OrchState where
  phase : OrchPhase
  dacBuf : Word
  dacLen : Word
  fs : Word
  deriving DecidableEq, Repr

/-- BRAM as the list of its bytes that differ from what an unlisted address reads as, addresses strictly rising (20_memory.md R77; log 3). -/
abbrev Memory := List Host.Cell

/-- The width of a HOST access (20_memory.md R80, R81). -/
inductive Width where
  | byte | half | word
  deriving DecidableEq, Repr

/-- One input from outside the CORE: a HOST read or write at an address of the HOST's address space (20_memory.md R76, R87), or the platform's reset input, which carries what BRAM holds afterwards (70_reset_and_hazards.md R260, R261; log 14). -/
inductive HostInput where
  | read (width : Width) (addr : Nat)
  | write (width : Width) (addr : Nat) (data : Word)
  | powerOnReset (bram : List Host.Cell)
  deriving DecidableEq, Repr

/-- The state of the CORE (10_state.md R25), the parameters of the machine, and the model's own record of the HOST's side (log 1, log 2). -/
structure State where
  /-- the parameters, which no step writes (00_scope.md R7; log 10) -/
  cfg : Config
  /-- CTRL.IRQ_EN (R29) -/
  irqEn : Bool
  /-- STATUS.CODE (R30) -/
  status : Status
  /-- STATUS.EVQ_OVF (R30) -/
  evqOvf : Bool
  arg0 : Word
  arg1 : Word
  arg2 : Word
  arg3 : Word
  res0 : Word
  res1 : Word
  /-- the event queue, oldest record first (R34) -/
  evq : List Event
  /-- SREQ[0..NSREQ-1] (R37) -/
  sreq : List SineReq
  dtmf : DtmfState
  pkt : PktState
  /-- PI_CURSOR (R58) -/
  pi : PiCursor
  emo : EmoState
  orch : OrchState
  /-- BRAM (20_memory.md R77) -/
  bram : Memory
  /-- the HOST inputs not yet performed, oldest first: the model's own field (R87; log 1) -/
  hostQueue : List HostInput
  /-- the data the most recent HOST read returned: the model's own field (log 2) -/
  hostRead : Word
  deriving DecidableEq, Repr

/-- Why the machine stops with a fault. -/
inductive Fault where
  /-- Raised by the HOST port for an access that 20_memory.md R81 does not admit: the spec gives it no step. Safe: the spec claims nothing about such a run. -/
  | accessNotAdmitted
  deriving DecidableEq, Repr

/-- Why an input has no meaning in this model. -/
inductive Refusal where
  /-- Raised by exec for a command whose meaning is not written yet, named as the opcode table names it. Safe. No arm uses it. -/
  | notModelled (mnemonic : String)
  /-- Raised by the HOST port for an access that does not lie in the CORE's window: it is not an access to this block (20_memory.md R76; log 7). Safe: the run stops. -/
  | outsideWindow
  deriving DecidableEq, Repr

/-- What a command or a step answers. -/
abbrev Result := Host.Outcome State Fault Refusal

/-- A slot after reset (10_state.md R38). -/
def SineReq.reset : SineReq where
  buf := 0#32
  bufLen := 0#32
  theta0 := 0#32
  fTone := 0#32
  fSample := 0#32
  scale := 0#32
  resultLen := 0#32
  phaseErr := 0#32

/-- The demodulator after reset (R261). COSW and SINW are unspecified there and never read before DTMF_INIT: DESIGN CHOICE 0 (log 4). -/
def DtmfState.reset : DtmfState where
  fs := 0#32
  thresh := 0#32
  held := none
  dwell := 0#32
  init := false
  cosw := List.replicate 8 0#32
  sinw := List.replicate 8 0#32

/-- The parser after reset (R261). -/
def PktState.reset : PktState where
  rx := .idle
  esc := false
  init := false
  rxbuf := 0#32
  rxcap := 0#32
  cursor := 0#32
  addr := 0#8
  ctrl := 0#8
  declared := 0#16
  remaining := 0#16
  running := Config.fcsInitial
  received := 0#16

/-- The state right after the power-on reset of a machine with parameters `cfg`, whose BRAM then holds `bram`: the launch parameter of 20_memory.md R78 (70_reset_and_hazards.md R261). -/
def State.powerOn (cfg : Config) (bram : Memory) : State where
  cfg := cfg
  irqEn := false
  status := .okay
  evqOvf := false
  arg0 := 0#32
  arg1 := 0#32
  arg2 := 0#32
  arg3 := 0#32
  res0 := 0#32
  res1 := 0#32
  evq := []
  sreq := List.replicate cfg.nsreq SineReq.reset
  dtmf := DtmfState.reset
  pkt := PktState.reset
  pi := .pos 0
  emo := ⟨.lonely, 0#32⟩
  orch := ⟨.idle, 0#32, 0#32, 0#32⟩
  bram := bram
  hostQueue := []
  hostRead := 0#32

/-- The default machine right after reset, its BRAM listing nothing (log 3) and no HOST input waiting (log 13). -/
def State.reset : State := State.powerOn Config.default []

end Sys2Proof.Machine
end

