-- ==== Sys2Proof/Machine/Ops.lean ====
section
/-! DEFINITION. The shared operations: BRAM (20_memory.md), the named writes of State, ending a command (00_scope.md R15), the soft reset (70_reset_and_hazards.md R262). The CORE has no exception entry and no return from one (60_exceptions.md R246): `raise` is what a failing check does. -/

namespace Sys2Proof.Machine

/-! ### The byte store -/

/-- What a byte reads as that nothing has written: DESIGN CHOICE 0x00 (log 3). -/
def Memory.fill : Byte := 0#8

/-- The canonical form: addresses strictly rising, no entry equal to the fill byte (log 3). -/
abbrev Memory.wf (m : Memory) : Prop :=
  m.Pairwise (fun x y => x.1 < y.1) ∧ ∀ c ∈ m, c.2 ≠ Memory.fill

/-- One byte. -/
def Memory.read : Memory → Nat → Byte
  | [], _ => Memory.fill
  | c :: m, a => if a = c.1 then c.2 else Memory.read m a

/-- Store one byte, keeping the canonical form. -/
def Memory.write : Memory → Nat → Byte → Memory
  | [], a, b => if b = Memory.fill then [] else [(a, b)]
  | c :: m, a, b =>
    if a < c.1 then (if b = Memory.fill then c :: m else (a, b) :: c :: m)
    else if a = c.1 then (if b = Memory.fill then m else (a, b) :: m)
    else c :: Memory.write m a b

/-- The canonical memory of a BRAM of `size` bytes after storing the cells one by one: the BRAM contents a power-on brings (20_memory.md R78; log 14). -/
def Memory.ofCells (size : Nat) (cells : List Host.Cell) : Memory :=
  cells.foldl (fun m c => if c.1 < size then Memory.write m c.1 c.2 else m) []

/-! ### Named writes of State -/

/-- Write STATUS.CODE (10_state.md R30). -/
def State.setStatus (s : State) (st : Status) : State := { s with status := st }

/-- Write RES0 (10_state.md R33). -/
def State.setRes0 (s : State) (v : Word) : State := { s with res0 := v }

/-- Replace the event queue. -/
def State.setEvq (s : State) (q : List Event) : State := { s with evq := q }

/-- Write STATUS.EVQ_OVF (10_state.md R30). -/
def State.setEvqOvf (s : State) (b : Bool) : State := { s with evqOvf := b }

/-- Replace slot `i`'s registers (10_state.md R37); a slot that does not exist is not written (R39). -/
def State.setSreq (s : State) (i : Nat) (r : SineReq) : State := { s with sreq := s.sreq.set i r }

/-- Replace the demodulator's state. -/
def State.setDtmf (s : State) (d : DtmfState) : State := { s with dtmf := d }

/-- Replace the parser's state. -/
def State.setPkt (s : State) (p : PktState) : State := { s with pkt := p }

/-- Write PI_CURSOR. -/
def State.setPi (s : State) (c : PiCursor) : State := { s with pi := c }

/-- Replace the emotion unit's state. -/
def State.setEmo (s : State) (e : EmoState) : State := { s with emo := e }

/-- Replace the orchestrator's state. -/
def State.setOrch (s : State) (o : OrchState) : State := { s with orch := o }

/-- Write ORCH_STATE (10_state.md R66). -/
def State.setOrchPhase (s : State) (p : OrchPhase) : State := { s with orch := { s.orch with phase := p } }

/-- Replace BRAM. -/
def State.setBram (s : State) (m : Memory) : State := { s with bram := m }

/-- Record the data a HOST read returned (log 2). -/
def State.setHostRead (s : State) (v : Word) : State := { s with hostRead := v }

/-- Replace the waiting HOST inputs (log 1). -/
def State.setHostQueue (s : State) (q : List HostInput) : State := { s with hostQueue := q }

/-! ### BRAM (20_memory.md R77, R80) -/

/-- The byte at a BRAM address; 0 past the end (R80). -/
def State.readBram (s : State) (a : Nat) : Byte :=
  if a < s.cfg.bramSize then Memory.read s.bram a else 0#8

/-- Store a byte at a BRAM address; ignored past the end (R80; log 11). -/
def State.writeBram (s : State) (a : Nat) (b : Byte) : State :=
  if a < s.cfg.bramSize then s.setBram (Memory.write s.bram a b) else s

/-- MemRead(addr, n) (00_scope.md R13). A command reads its bytes before it stores any, so this is the Snapshot read of R14. -/
def State.memRead (s : State) (a n : Nat) : List Byte :=
  (List.range n).map (fun i => s.readBram (a + i))

/-- MemWrite(addr, n, v) for the list v of n bytes (00_scope.md R13), in increasing address order. -/
def State.memWrite : State → Nat → List Byte → State
  | s, _, [] => s
  | s, a, b :: bs => (s.writeBram a b).memWrite (a + 1) bs

/-! ### Ending a command (00_scope.md R15) -/

/-- `raise`: the command ends with a failure. Applied to the state the command started from, so that nothing else has changed (60_exceptions.md R242). -/
def raise (s : State) (st : Status) : Result := .next (s.setStatus st)

/-- `finish`: the command ends and its effects stay. -/
def finish (s : State) (st : Status) : Result := .next (s.setStatus st)

/-! ### Reset (70_reset_and_hazards.md R261, R262) -/

/-- The soft reset: everything in the table of R261 takes its reset value except BRAM (R262). The parameters and the HOST's side are not CORE state. -/
def State.softReset (s : State) : State :=
  ((State.powerOn s.cfg s.bram).setHostQueue s.hostQueue).setHostRead s.hostRead

/-- The platform's reset input, after which BRAM holds the cells (R261, 20_memory.md R78; log 14). -/
def State.powerOnReset (s : State) (cells : List Host.Cell) : State :=
  ((State.powerOn s.cfg (Memory.ofCells s.cfg.bramSize cells)).setHostQueue s.hostQueue).setHostRead s.hostRead

end Sys2Proof.Machine
end

