-- ==== Sys2Proof/Machine/Flags.lean ====
section
/-! DEFINITION. Codes and flags: the status codes (60_exceptions.md R240), the encodings of the state enumerations (10_state.md), the event records and EVQ_OVF (10_state.md R36, 45_control.md R231), the frame check sequence and fcs_match (42_packet.md R162, R177), and the interrupt output (60_exceptions.md R244). The CORE has no condition codes (10_state.md R69). -/

namespace Sys2Proof.Machine

/-- The completion code of a status (R240). -/
def Status.code : Status → Byte
  | .okay => 0#8
  | .invalid => 1#8
  | .undersampled => 2#8
  | .tooShort => 3#8
  | .wrong => 4#8
  | .exhausted => 5#8
  | .tooLong => 6#8
  | .illegal => 7#8
  | .erange => 8#8
  | .notFound => 9#8

/-- PKT_STATE.STATE (10_state.md R45). -/
def RxState.code : RxState → BitVec 3
  | .idle => 0#3
  | .waitAddr => 1#3
  | .waitControl => 2#3
  | .waitLenHi => 3#3
  | .waitLenLo => 4#3
  | .inBody => 5#3
  | .waitFcsHi => 6#3
  | .waitFcsLo => 7#3

/-- EMO_STATE[1:0] (10_state.md R62). -/
def Emotion.code : Emotion → BitVec 2
  | .lonely => 0#2
  | .happy => 1#2
  | .bored => 2#2
  | .unknown => 3#2

/-- The emotion a HOST write of EMO_STATE selects (10_state.md R62). -/
def Emotion.ofCode (c : BitVec 2) : Emotion :=
  if c = 0#2 then .lonely else if c = 1#2 then .happy else if c = 2#2 then .bored else .unknown

/-- ORCH_STATE[2:0] (10_state.md R66). -/
def OrchPhase.code : OrchPhase → BitVec 3
  | .idle => 0#3
  | .waitingSend => 1#3
  | .sending => 2#3
  | .waitingStop => 3#3
  | .done => 4#3
  | .restart => 5#3

/-- PI_CURSOR[7:0]: the positions as themselves, SENTINEL_WRONG as 0xFF (10_state.md R58). -/
def PiCursor.code : PiCursor → Byte
  | .pos k => BitVec.ofNat 8 k.val
  | .sentinelWrong => 0xFF#8

/-- The code of a held symbol: 0..15, or 16 for NONE (00_scope.md R21, 10_state.md R41). -/
def symCode : Option (Fin 16) → Nat
  | some c => c.val
  | none => 16

/-- SYM[c] as an ASCII code (00_scope.md R21). -/
def symChar (c : Fin 16) : Byte := Config.symTable.getD c.val 0#8

/-- The sixteen symbol codes in order. -/
def symCodes : List (Fin 16) := [0, 1, 2, 3, 4, 5, 6, 7, 8, 9, 10, 11, 12, 13, 14, 15]

/-- SymIndex(ch), none for NOT_FOUND (00_scope.md R22). -/
def symIndex (ch : Byte) : Option (Fin 16) := symCodes.find? (fun c => symChar c == ch)

/-! ### Events -/

/-- The kinds of event (10_state.md R36). -/
inductive EventKind where
  | dtmfDown | dtmfUp | pktComplete | pktTooLong | pktInterrupted
  | dacInstall | dacStart | dacStop | adcStart | adcStop
  deriving DecidableEq, Repr

/-- KIND, w0[7:0] of a record (R36). -/
def EventKind.code : EventKind → Byte
  | .dtmfDown => 1#8
  | .dtmfUp => 2#8
  | .pktComplete => 3#8
  | .pktTooLong => 4#8
  | .pktInterrupted => 5#8
  | .dacInstall => 6#8
  | .dacStart => 7#8
  | .dacStop => 8#8
  | .adcStart => 9#8
  | .adcStop => 10#8

/-- A record: w0 holds KIND in 7:0, one field in 15:8, one in 23:16 and one bit in 24; its other bits are 0 (R36). -/
def mkEvent (kind : EventKind) (lo hi : Byte) (bit : Bool) (w1 w2 : Word) : Event where
  w0 := (0#7 ++ BitVec.ofBool bit ++ hi ++ lo ++ kind.code : BitVec (7 + 1 + 8 + 8 + 8))
  w1 := w1
  w2 := w2

/-- DTMF_DOWN for a symbol (R36). -/
def evDtmfDown (c : Fin 16) : Event := mkEvent .dtmfDown (BitVec.ofNat 8 c.val) (symChar c) false 0#32 0#32

/-- DTMF_UP for a symbol and its dwell in samples (R36). -/
def evDtmfUp (c : Fin 16) (dwell : Word) : Event :=
  mkEvent .dtmfUp (BitVec.ofNat 8 c.val) (symChar c) false dwell 0#32

/-- DAC_INSTALL(buf, len) (R36). -/
def evDacInstall (buf len : Word) : Event := mkEvent .dacInstall 0#8 0#8 false buf len

/-- DAC_START (R36). -/
def evDacStart : Event := mkEvent .dacStart 0#8 0#8 false 0#32 0#32

/-- DAC_STOP (R36). -/
def evDacStop : Event := mkEvent .dacStop 0#8 0#8 false 0#32 0#32

/-- ADC_START (R36). -/
def evAdcStart : Event := mkEvent .adcStart 0#8 0#8 false 0#32 0#32

/-- ADC_STOP (R36). -/
def evAdcStop : Event := mkEvent .adcStop 0#8 0#8 false 0#32 0#32

/-- Emit: append a record, or drop it and set EVQ_OVF when the queue is full (45_control.md R231). -/
def State.emit (s : State) (e : Event) : State :=
  if s.evq.length < s.cfg.evqDepth then s.setEvq (s.evq ++ [e]) else s.setEvqOvf true

/-- Emit several records in order (00_scope.md R16). -/
def State.emitAll : State → List Event → State
  | s, [] => s
  | s, e :: es => (s.emit e).emitAll es

/-- The interrupt output (60_exceptions.md R244). -/
def State.irq (s : State) : Bool := s.irqEn && decide (0 < s.evq.length)

/-! ### The frame check sequence (42_packet.md R162) -/

/-- One of the eight bit steps of FcsStep. -/
def fcsBit (crc : BitVec 16) (b : Bool) : BitVec 16 :=
  if (crc.getLsbD 0 ^^ b) = true then (crc >>> 1) ^^^ 0x8408#16 else crc >>> 1

/-- FcsStep(crc, x): eight bit steps, the least significant bit of x first. -/
def fcsStep (crc : BitVec 16) (x : Byte) : BitVec 16 :=
  [0, 1, 2, 3, 4, 5, 6, 7].foldl (fun c i => fcsBit c (x.getLsbD i)) crc

/-- Fcs(init, bytes): folded byte by byte, no final complement. -/
def fcs (init : BitVec 16) (bytes : List Byte) : BitVec 16 := bytes.foldl fcsStep init

/-- fcs_match: the received FCS equals the running FCS (R177). -/
def fcsMatch (p : PktState) : Bool := p.received == p.running

end Sys2Proof.Machine
end

