-- ==== Sys2Proof/Machine/Operands.lean ====
section
/-! DEFINITION. Operands (30_encoding.md R103, R106): unsigned fields of ARG0..ARG3, buffer references (00_scope.md R17), and the sine request slot a command names (10_state.md R39). -/

namespace Sys2Proof.Machine

/-- InRange(a, n): not NULL and inside BRAM (00_scope.md R17). -/
abbrev inRange (c : Config) (a n : Nat) : Prop := a ≠ 0 ∧ a + n ≤ c.bramSize

/-- The check of one buffer of n ≥ 1 bytes: NULL is INVALID, then a buffer that leaves BRAM is ERANGE (20_memory.md R94). -/
def bufferFault (c : Config) (a n : Nat) : Option Status :=
  if a = 0 then some .invalid else if ¬ inRange c a n then some .erange else none

/-- ARG bits [7:0] (R106). -/
def field8 (w : Word) : Byte := w.extractLsb' 0 8

/-- ARG bits [15:8] (R106). -/
def fieldHi8 (w : Word) : Byte := w.extractLsb' 8 8

/-- ARG bits [15:0] (R106). -/
def field16 (w : Word) : BitVec 16 := w.extractLsb' 0 16

/-- ARG bit [0] (R106). -/
def field1 (w : Word) : Bool := w.getLsbD 0

/-- SREQ[s] for s < NSREQ; none is the null request (R39, R103). -/
def State.slot? (s : State) (i : Nat) : Option SineReq :=
  if i < s.cfg.nsreq then s.sreq[i]? else none

end Sys2Proof.Machine
end

