-- ==== Sys2Proof/Machine/Control.lean ====
section
/-! DEFINITION. The control commands: NOP, EVT_POP, EVT_CLEAR (45_control.md). -/

namespace Sys2Proof.Machine

/-- NOP (R230). -/
def execNop (s : State) : Result := finish s .okay

/-- EVT_POP (R233). -/
def execEvtPop (s : State) : Result :=
  match s.evq with
  | [] => raise s .invalid
  | _ :: q => finish (s.setEvq q) .okay

/-- EVT_CLEAR (R234). -/
def execEvtClear (s : State) : Result := finish ((s.setEvq []).setEvqOvf false) .okay

end Sys2Proof.Machine
end

