-- ==== Sys2Proof/Machine/Binary32.lean ====
section
/-! DEFINITION. GNUM (00_scope.md R18, 41_dtmf.md R153): the default format, IEEE-754 binary32 with round-to-nearest-ties-to-even, no fused multiply-add, subnormals kept. Every finite value is an integer multiple of 2^-149, so an operation computes its exact result in integers and rounds it once (log 8). -/

namespace Sys2Proof.Machine

/-- A binary32 datum: `fin neg m` is ±m·2^-149. -/
inductive F32 where
  | nan
  | inf (neg : Bool)
  | fin (neg : Bool) (m : Nat)
  deriving DecidableEq, Repr

/-- The datum of a pattern: sign [31], exponent [30:23], fraction [22:0]. -/
def F32.ofBits (w : Word) : F32 :=
  let neg := w.getLsbD 31
  let ex := (w.extractLsb' 23 8).toNat
  let frac := (w.extractLsb' 0 23).toNat
  if ex = 255 then (if frac = 0 then .inf neg else .nan)
  else if ex = 0 then .fin neg frac
  else .fin neg ((2 ^ 23 + frac) * 2 ^ (ex - 1))

/-- What a datum stands for. -/
def F32.toDatum : F32 → Datum
  | .nan => .nan
  | .inf neg => .inf neg
  | .fin neg m => .fin (mkRat (if neg then -(m : Int) else m) (2 ^ 149))

/-- The integer nearest to a / b, a tie to the even one. -/
def roundHalfEven (a b : Nat) : Nat :=
  if 2 * (a % b) > b ∨ (2 * (a % b) = b ∧ (a / b) % 2 = 1) then a / b + 1 else a / b

/-- The pattern without its sign of num / den rounded once: the fraction keeps 24 significant bits, or the 2^-149 grid below them, and a result past the largest finite value is an infinity. -/
def roundMag (num den : Nat) : Nat :=
  let scaled := num * 2 ^ 149
  let e := (scaled / den).log2 - 23
  min (e * 2 ^ 23 + roundHalfEven scaled (den * 2 ^ e)) 0x7F800000

/-- A sign and a magnitude pattern. -/
def signed (neg : Bool) (mag : Nat) : Word :=
  BitVec.ofNat 32 ((if neg then 0x80000000 else 0) + mag)

/-- The quiet NaN the model uses: no rule lets the HOST see a NaN's payload (log 8). -/
def f32Nan : Word := 0x7FC00000#32

/-- The pattern of an infinity. -/
def f32Inf (neg : Bool) : Word := signed neg 0x7F800000

/-- ±m·2^-149 as an integer in units of 2^-149. -/
def signedInt (neg : Bool) (m : Nat) : Int := if neg then -(m : Int) else m

/-- RN_G of the exact integer k in units of 2^-149; an exact zero has the sign `zeroNeg`. -/
def roundUnits (k : Int) (zeroNeg : Bool) : Word :=
  if k = 0 then signed zeroNeg 0 else signed (decide (k < 0)) (roundMag k.natAbs (2 ^ 149))

/-- `+_G` on data. -/
def F32.add : F32 → F32 → Word
  | .nan, _ => f32Nan
  | _, .nan => f32Nan
  | .inf a, .inf b => if a = b then f32Inf a else f32Nan
  | .inf a, .fin _ _ => f32Inf a
  | .fin _ _, .inf b => f32Inf b
  | .fin a m, .fin b n => roundUnits (signedInt a m + signedInt b n) (a && b)

/-- A datum with its sign flipped. -/
def F32.neg : F32 → F32
  | .nan => .nan
  | .inf a => .inf !a
  | .fin a m => .fin (!a) m

/-- `*_G` on data. -/
def F32.mul : F32 → F32 → Word
  | .nan, _ => f32Nan
  | _, .nan => f32Nan
  | .inf a, .inf b => f32Inf (a ^^ b)
  | .inf a, .fin b n => if n = 0 then f32Nan else f32Inf (a ^^ b)
  | .fin a m, .inf b => if m = 0 then f32Nan else f32Inf (a ^^ b)
  | .fin a m, .fin b n => signed (a ^^ b) (if m * n = 0 then 0 else roundMag (m * n) (2 ^ 298))

/-- `/_G` on data. -/
def F32.div : F32 → F32 → Word
  | .nan, _ => f32Nan
  | _, .nan => f32Nan
  | .inf _, .inf _ => f32Nan
  | .inf a, .fin b _ => f32Inf (a ^^ b)
  | .fin a _, .inf b => signed (a ^^ b) 0
  | .fin a m, .fin b n =>
    if n = 0 then (if m = 0 then f32Nan else f32Inf (a ^^ b))
    else signed (a ^^ b) (if m = 0 then 0 else roundMag m n)

/-- `<_G` on data: false when either is a NaN (R147). -/
def F32.lt : F32 → F32 → Bool
  | .nan, _ => false
  | _, .nan => false
  | .inf a, .inf b => a && !b
  | .inf a, .fin _ _ => a
  | .fin _ _, .inf b => !b
  | .fin a m, .fin b n => decide (signedInt a m < signedInt b n)

/-- RN_G of the exact rational num / den (R18, R143, R145); an exact zero is +0 (R153). -/
def f32OfRat (num : Int) (den : Nat) : Word :=
  if num = 0 then 0#32 else signed (decide (num < 0)) (roundMag num.natAbs den)

/-! ### The coefficients (R43, R141): correctly rounded cos and sin of 2π·f/Fs (log 9) -/

/-- The scale of the fixed-point evaluation. -/
def trigScale : Nat := 2 ^ 256

/-- floor(π · 2^256) (log 9). -/
def piFixed : Nat := 0x3243F6A8885A308D313198A2E03707344A4093822299F31D0082EFA98EC4E6C89

/-- The alternating sine series from its k-th term on, x² and the term scaled by 2^256. -/
def sinSeries (xSq : Nat) : Nat → Nat → Nat → Nat
  | 0, _, term => term
  | fuel + 1, k, term =>
    term - sinSeries xSq fuel (k + 1) (term * xSq / trigScale / ((2 * k + 2) * (2 * k + 3)))

/-- sin((a/d)·π/2)·2^256 for 0 ≤ a ≤ d, to within 2^10 (log 9). -/
def sinQuarterFixed (a d : Nat) : Nat :=
  let x := a * piFixed / (2 * d)
  sinSeries (x * x / trigScale) 40 0 x

/-- The pattern of sin((a/d)·π/2), 0 ≤ a ≤ d, an exact zero at a = 0. -/
def sinQuarter (a d : Nat) : Nat :=
  if a = 0 then 0 else roundMag (sinQuarterFixed a d) trigScale

/-- A signed magnitude whose exact zero is +0 (R153). -/
def signedNoZero (neg : Bool) (mag : Nat) : Word := signed (neg && decide (mag ≠ 0)) mag

/-- RN_G(sin(2π·f/Fs)): the turn's fraction in quadrants, each reduced to the first one. -/
def f32SinTurn (f fs : Nat) : Word :=
  let quarter := 4 * (f % fs) / fs
  let rest := 4 * (f % fs) % fs
  if quarter = 0 then signedNoZero false (sinQuarter rest fs)
  else if quarter = 1 then signedNoZero false (sinQuarter (fs - rest) fs)
  else if quarter = 2 then signedNoZero true (sinQuarter rest fs)
  else signedNoZero true (sinQuarter (fs - rest) fs)

/-- RN_G(cos(2π·f/Fs)). -/
def f32CosTurn (f fs : Nat) : Word :=
  let quarter := 4 * (f % fs) / fs
  let rest := 4 * (f % fs) % fs
  if quarter = 0 then signedNoZero false (sinQuarter (fs - rest) fs)
  else if quarter = 1 then signedNoZero true (sinQuarter rest fs)
  else if quarter = 2 then signedNoZero true (sinQuarter (fs - rest) fs)
  else signedNoZero false (sinQuarter rest fs)

/-- The two ends of the fixed-point error band round to one pattern: the coefficient is then the correctly rounded one whatever the error inside the band is (log 9). -/
def sinQuarterDecided (a d : Nat) : Bool :=
  a == 0 ||
    roundMag (sinQuarterFixed a d - 2 ^ 10) trigScale == roundMag (sinQuarterFixed a d + 2 ^ 10) trigScale

/-- The operations of the default format (R18, R153; 92_eei_decisions.md D22). -/
def binary32 : Gnum where
  datum := fun w => (F32.ofBits w).toDatum
  zero := 0#32
  ofRat := f32OfRat
  add := fun a b => F32.add (F32.ofBits a) (F32.ofBits b)
  sub := fun a b => F32.add (F32.ofBits a) (F32.neg (F32.ofBits b))
  mul := fun a b => F32.mul (F32.ofBits a) (F32.ofBits b)
  div := fun a b => F32.div (F32.ofBits a) (F32.ofBits b)
  lt := fun a b => F32.lt (F32.ofBits a) (F32.ofBits b)
  cosTurn := f32CosTurn
  sinTurn := f32SinTurn

/-- The operations of a machine's GNUM (R7, R18; log 8). -/
def gnumOf (c : Config) : Gnum :=
  match c.gnum with
  | .binary32 => binary32
  | .other n =>
    match Config.otherGnum n with
    | some G => G.val
    | none => binary32

end Sys2Proof.Machine
end

