-- ==== Sys2Proof/Machine/Pi.lean ====
section
/-! DEFINITION. The Pi reciter (43_digit_emotion.md, unit B). -/

namespace Sys2Proof.Machine

/-- PI_TABLE[k] (10_state.md R53). -/
def piTable (c : Config) (k : Nat) : Byte := c.piDigits.getD k 0#8

/-- PiNext() (R190): 'A' after a wrong reception, '#' when exhausted, else the digit at the cursor. -/
def piNext (c : Config) : PiCursor → Byte
  | .sentinelWrong => 0x41#8
  | .pos k => if k.val = Config.piDigitCount then 0x23#8 else piTable c k.val

/-- PiRx(d) (R192): the new cursor and the result. -/
def piRx (c : Config) (d : Byte) : PiCursor → PiCursor × Status
  | .sentinelWrong => (.sentinelWrong, .wrong)
  | .pos k =>
    if h : k.val < 128 then
      if d ≠ piTable c k.val then (.sentinelWrong, .wrong)
      else (.pos ⟨k.val + 1, by omega⟩, if k.val + 1 = Config.piDigitCount then .exhausted else .okay)
    else (.pos k, .exhausted)

/-- PI_NEXT (R191). -/
def execPiNext (s : State) : Result :=
  finish (s.setRes0 ((piNext s.cfg s.pi).setWidth 32)) .okay

/-- PI_RX (R193): the result of PiRx is the status and RES0. -/
def execPiRx (s : State) : Result :=
  let r := piRx s.cfg (field8 s.arg0) s.pi
  finish ((s.setPi r.1).setRes0 (r.2.code.setWidth 32)) r.2

/-- PI_RESET (R194). -/
def execPiReset (s : State) : Result := finish (s.setPi (.pos 0)) .okay

end Sys2Proof.Machine
end

