-- ==== Sys2Proof/Machine/Sine.lean ====
section
/-! DEFINITION. The sine sample generator and the two-tone mixing (40_sine.md). -/

namespace Sys2Proof.Machine

/-- ROUND_UP_HALF(num, den) (00_scope.md R19). -/
def roundUpHalf (num den : Nat) : Nat :=
  if 2 * (num % den) > den then num / den + 1 else num / den

/-- SINE_ROM[i] (R121, R122). -/
def sineRom (c : Config) (i : Nat) : Nat := (c.sineRom.getD i 0#8).toNat

/-- SS(num, den, scale) (R123): round, reduce to a table position, mirror in odd quadrants, negate in the upper half, divide toward zero, add the bias. -/
def sineSample (c : Config) (num den scale : Nat) : Byte :=
  let p := roundUpHalf num den % 1024
  let q := p / 256
  let off := p % 256
  let idx := if q % 2 = 1 then 255 - off else off
  let m : Int := sineRom c idx
  let v := if 2 ≤ q then -m else m
  BitVec.ofInt 8 (Int.tdiv v scale + Config.dacBias)

/-- The denominator of a request's positions (R120). -/
def sineDen (fSample : Nat) : Nat := fSample * 2 ^ 22

/-- The numerator of sample i's position (R120). -/
def sineNum (theta0 fTone fSample i : Nat) : Nat := theta0 * fSample + i * fTone * 2 ^ 32

/-- The first n samples of a request's waveform (R120, R127, R129). -/
def sineWave (c : Config) (r : SineReq) (n : Nat) : List Byte :=
  (List.range n).map (fun i =>
    sineSample c (sineNum r.theta0.toNat r.fTone.toNat r.fSample.toNat i) (sineDen r.fSample.toNat)
      r.scale.toNat)

/-- Validate(s) on an existing slot: the first failing check (R126). -/
def sineFault (c : Config) (r : SineReq) : Option Status :=
  if r.buf = 0#32 ∨ r.bufLen = 0#32 ∨ r.fTone = 0#32 ∨ r.fSample = 0#32 then some .invalid
  else if r.scale = 0#32 then some .invalid
  else if 2 * r.fTone.toNat ≥ r.fSample.toNat then some .undersampled
  else if ¬ inRange c r.buf.toNat r.bufLen.toNat then some .erange
  else none

/-- samples_per_wave > buflen, exact (R127, R129). -/
def sineStatus (r : SineReq) : Status :=
  if r.fSample.toNat > r.bufLen.toNat * r.fTone.toNat then .tooShort else .okay

/-- rl, the length SINE_GENERATE realizes (R127). -/
def genLen (r : SineReq) : Nat := min (r.fSample.toNat / r.fTone.toNat) r.bufLen.toNat

/-- PE_generate(r, rl) (R128). -/
def phaseErrGen (r : SineReq) (rl : Nat) : Nat :=
  2 ^ 32 * (r.fSample.toNat - rl * r.fTone.toNat) / r.fSample.toNat

/-- PE_fill(r) (R130). -/
def phaseErrFill (r : SineReq) : Nat :=
  let k := r.bufLen.toNat * r.fTone.toNat
  let c := (k + r.fSample.toNat - 1) / r.fSample.toNat
  2 ^ 32 * (c * r.fSample.toNat - k) / r.fSample.toNat

/-- A validated request's effect: n samples at BUF, RESULT_LEN, PHASE_ERR, and the status (R127, R129). -/
def generateInto (s : State) (slot : Nat) (r : SineReq) (n phaseErr : Nat) : Result :=
  finish
    ((s.memWrite r.buf.toNat (sineWave s.cfg r n)).setSreq slot
      { r with resultLen := BitVec.ofNat 32 n, phaseErr := BitVec.ofNat 32 phaseErr })
    (sineStatus r)

/-- The fields SINE_POPULATE gives a slot (R125). -/
def populated (s : State) : SineReq where
  buf := s.arg0
  bufLen := s.arg1
  theta0 := 0#32
  fTone := s.arg2
  fSample := s.arg3
  scale := 1#32
  resultLen := 0#32
  phaseErr := 0#32

/-- SINE_POPULATE (R125): the one command whose failure keeps writes made before it. -/
def execSinePopulate (slot : Nat) (s : State) : Result :=
  match s.slot? slot with
  | none => raise s .invalid
  | some _ =>
    let t := s.setSreq slot (populated s)
    if s.arg0 = 0#32 ∨ s.arg1 = 0#32 ∨ s.arg2 = 0#32 ∨ s.arg3 = 0#32 then raise t .invalid
    else finish t .okay

/-- SINE_GENERATE (R126, R127). -/
def execSineGen (slot : Nat) (s : State) : Result :=
  match s.slot? slot with
  | none => raise s .invalid
  | some r =>
    match sineFault s.cfg r with
    | some st => raise s st
    | none => generateInto s slot r (genLen r) (phaseErrGen r (genLen r))

/-- SINE_GENERATE_FILL (R126, R129). -/
def execSineFill (slot : Nat) (s : State) : Result :=
  match s.slot? slot with
  | none => raise s .invalid
  | some r =>
    match sineFault s.cfg r with
    | some st => raise s st
    | none => generateInto s slot r r.bufLen.toNat (phaseErrFill r)

/-- SINE_SAMPLE (R131). -/
def execSineSample (s : State) : Result :=
  if s.arg1 = 0#32 then raise s .invalid
  else
    finish (s.setRes0 ((sineSample s.cfg s.arg0.toNat (2 ^ 22) s.arg1.toNat).setWidth 32)) .okay

/-- (a + b) div 2 of two samples (R132). -/
def mixByte (a b : Byte) : Byte := BitVec.ofNat 8 ((a.toNat + b.toNat) / 2)

/-- SINE_MIX (R132). -/
def execSineMix (s : State) : Result :=
  let n := s.arg3.toNat
  if n = 0 then finish s .okay
  else if s.arg0 = 0#32 ∨ s.arg1 = 0#32 ∨ s.arg2 = 0#32 then raise s .invalid
  else if ¬ (inRange s.cfg s.arg0.toNat n ∧ inRange s.cfg s.arg1.toNat n ∧ inRange s.cfg s.arg2.toNat n) then
    raise s .erange
  else
    finish
      (s.memWrite s.arg0.toNat
        (List.zipWith mixByte (s.memRead s.arg1.toNat n) (s.memRead s.arg2.toNat n)))
      .okay

end Sys2Proof.Machine
end

