-- ==== Sys2Proof/Machine/Orchestrator.lean ====
section
/-! DEFINITION. The DTMF tone-sequence orchestrator (44_orchestrator.md, unit F). -/

namespace Sys2Proof.Machine

/-- fr of a symbol code (R213, 00_scope.md R21). -/
def rowHz (c : Fin 16) : Nat := Config.dtmfRows.getD (c.val / 4) 0

/-- fc of a symbol code (R213, 00_scope.md R21). -/
def colHz (c : Fin 16) : Nat := Config.dtmfCols.getD (c.val % 4) 0

/-- One sample of Synth(c): two tones at scale 2 from phase 0, averaged (R213). -/
def synthSample (cfg : Config) (c : Fin 16) (fs i : Nat) : Byte :=
  mixByte (sineSample cfg (sineNum 0 (rowHz c) fs i) (sineDen fs) 2)
    (sineSample cfg (sineNum 0 (colHz c) fs i) (sineDen fs) 2)

/-- Synth(c): the dual-tone buffer (R213). -/
def synth (cfg : Config) (c : Fin 16) (fs len : Nat) : List Byte :=
  (List.range len).map (synthSample cfg c fs)

/-- SendDigit() (R214, R215): the checks in order, then the buffer, the three events and SENDING. -/
def sendDigit (s : State) : Result :=
  let o := s.orch
  if o.dacBuf = 0#32 ∨ o.dacLen = 0#32 ∨ o.fs = 0#32 then raise s .invalid
  else
    match symIndex (piNext s.cfg s.pi) with
    | none => raise s .notFound
    | some c =>
      if 2 * rowHz c ≥ o.fs.toNat ∨ 2 * colHz c ≥ o.fs.toNat then raise s .undersampled
      else if ¬ inRange s.cfg o.dacBuf.toNat o.dacLen.toNat then raise s .erange
      else
        finish
          (((s.memWrite o.dacBuf.toNat (synth s.cfg c o.fs.toNat o.dacLen.toNat)).emitAll
            [evDacInstall o.dacBuf o.dacLen, evDacStart, evAdcStart]).setOrchPhase .sending)
          .okay

/-- Stop DAC and ADC (R216, R217). -/
def State.stopAll (s : State) : State := s.emitAll [evDacStop, evAdcStop]

/-- ORCH_TICK (R211, R212): leaving BORED first, then the row of the current state. -/
def execOrchTick (s : State) : Result :=
  if s.orch.phase ≠ .idle ∧ s.emo.emotion ≠ .bored then finish (s.stopAll.setOrchPhase .idle) .okay
  else
    match s.orch.phase with
    | .idle => finish (if s.emo.emotion = .bored then s.setOrchPhase .waitingSend else s) .okay
    | .waitingSend => sendDigit s
    | .sending => finish s .okay
    | .waitingStop => finish s .okay
    | .done => finish (s.setOrchPhase .waitingSend) .okay
    | .restart => finish ((s.stopAll.setPi (.pos 0)).setOrchPhase .waitingSend) .okay

/-- ORCH_on_down(c): acts in SENDING only; which symbol it is does not matter (R218). -/
def State.orchOnDown (s : State) : State :=
  if s.orch.phase = .sending then (s.emit evDacStop).setOrchPhase .waitingStop else s

/-- ORCH_on_up(c): acts in WAITING_STOP only (R219). -/
def State.orchOnUp (s : State) (c : Fin 16) : State :=
  if s.orch.phase = .waitingStop then
    let r := piRx s.cfg (symChar c) s.pi
    ((s.emit evAdcStop).setPi r.1).setOrchPhase (if r.2 = .okay then .done else .restart)
  else s

end Sys2Proof.Machine
end

