-- ==== Sys2Proof/Machine/Dtmf.lean ====
section
/-! DEFINITION. The Goertzel DTMF demodulator (41_dtmf.md, unit C), over the operations G of a number format. -/

namespace Sys2Proof.Machine

/-- A sample centred and normalised: RN_G((v - ADC_BIAS) / 127) (R143). -/
def normSample (G : Gnum) (adcBias : Nat) (v : Byte) : Word := G.ofRat ((v.toNat : Int) - adcBias) 127

/-- One sample through the filter (z1, z2): z0 = x + (2·c)·z1 - z2, evaluated left to right (R144). -/
def goertzelStep (G : Gnum) (c : Word) (z : Word × Word) (x : Word) : Word × Word :=
  (G.sub (G.add x (G.mul (G.mul (G.ofRat 2 1) c) z.1)) z.2, z.1)

/-- Goertzel(S, c, s) on the normalised samples: the squared magnitude (R144, R145). -/
def goertzel (G : Gnum) (xs : List Word) (c s : Word) : Word :=
  let z := xs.foldl (goertzelStep G c) (G.zero, G.zero)
  let i := G.sub (G.mul z.1 c) z.2
  let q := G.mul z.1 s
  G.div (G.add (G.mul i i) (G.mul q q)) (G.ofRat (xs.length : Int) 2)

/-- The eight magnitudes of a block (R142). -/
def magnitudes (G : Gnum) (adcBias : Nat) (d : DtmfState) (block : List Byte) : List Word :=
  List.zipWith (goertzel G (block.map (normSample G adcBias))) d.cosw d.sinw

/-- The index of the largest of the four magnitudes from k on; a tie goes to the lower index (R146). -/
def bestOf (G : Gnum) (mag : List Word) (k : Nat) : Nat :=
  [k + 1, k + 2, k + 3].foldl
    (fun best j => if G.lt (mag.getD best G.zero) (mag.getD j G.zero) then j else best) k

/-- Classify(mag): the symbol of the best row and column, or NONE below the squared threshold (R146, R147). -/
def classify (G : Gnum) (mag : List Word) (thresh : Word) : Option (Fin 16) :=
  let br := bestOf G mag 0
  let bc := bestOf G mag 4
  let t2 := G.mul thresh thresh
  if G.lt (mag.getD br G.zero) t2 || G.lt (mag.getD bc G.zero) t2 then none
  else some (Fin.ofNat 16 (4 * br + (bc - 4)))

/-- The symbol code this block reports (R142). -/
def blockSymbol (G : Gnum) (adcBias : Nat) (d : DtmfState) (block : List Byte) : Option (Fin 16) :=
  classify G (magnitudes G adcBias d block) d.thresh

/-- Replace HELD and DTMF_DWELL (10_state.md R41). -/
def State.setHeld (s : State) (held : Option (Fin 16)) (dwell : Word) : State :=
  s.setDtmf { s.dtmf with held := held, dwell := dwell }

/-- min(DTMF_DWELL + N, 2^32 - 1) (R148). -/
def dwellAdd (dwell : Word) (n : Nat) : Word := BitVec.ofNat 32 (min (dwell.toNat + n) (2 ^ 32 - 1))

/-- The release of the held symbol, if there is one: DTMF_UP with its dwell, then the orchestrator (R148, R149, R150). -/
def State.releaseHeld (s : State) : State :=
  match s.dtmf.held with
  | none => s
  | some c => (s.emit (evDtmfUp c s.dtmf.dwell)).orchOnUp c

/-- Decide(new, N) (R148). -/
def State.decideSymbol (s : State) (new : Option (Fin 16)) (n : Nat) : State :=
  if new = s.dtmf.held then s.setHeld new (dwellAdd s.dtmf.dwell n)
  else
    let t := s.releaseHeld.setHeld new (BitVec.ofNat 32 n)
    match new with
    | none => t
    | some c => (t.emit (evDtmfDown c)).orchOnDown

/-- Flush() (R149). -/
def State.flush (s : State) : State :=
  match s.dtmf.held with
  | none => s
  | some _ => s.releaseHeld.setHeld none 0#32

/-- The demodulator's state after DTMF_INIT(Fs, threshold) (R141). -/
def dtmfInit (G : Gnum) (fs thresh : Word) : DtmfState where
  fs := fs
  thresh := thresh
  held := none
  dwell := 0#32
  init := true
  cosw := Config.dtmfTones.map (fun f => G.cosTurn f fs.toNat)
  sinw := Config.dtmfTones.map (fun f => G.sinTurn f fs.toNat)

/-- DTMF_INIT (R141). -/
def execDtmfInit (s : State) : Result :=
  if s.arg0 = 0#32 then raise s .invalid
  else finish (s.setDtmf (dtmfInit (gnumOf s.cfg) s.arg0 s.arg1)) .okay

/-- DTMF_BLOCK (R142): N = 0 is the flush, and ARG0 is then ignored. -/
def execDtmfBlock (s : State) : Result :=
  let n := s.arg1.toNat
  if s.dtmf.init = false then raise s .invalid
  else if n = 0 then finish (s.flush.setRes0 16#32) .okay
  else
    match bufferFault s.cfg s.arg0.toNat n with
    | some st => raise s st
    | none =>
      let new := blockSymbol (gnumOf s.cfg) s.cfg.adcBias s.dtmf (s.memRead s.arg0.toNat n)
      finish ((s.decideSymbol new n).setRes0 (BitVec.ofNat 32 (symCode new))) .okay

end Sys2Proof.Machine
end

