-- ==== Sys2Proof/Machine/Emotion.lean ====
section
/-! DEFINITION. The emotion state machine (43_digit_emotion.md, unit E). -/

namespace Sys2Proof.Machine

/-- The transition of EMO_UPDATE (R197, R198): the new state of the unit. UNKNOWN first, then time travel, then the row of the current emotion; dt is exact and signed. -/
def emoNext (tps : Nat) (e : EmoState) (now : Word) (present : Bool) : EmoState :=
  let dt : Int := (now.toNat : Int) - e.ts.toNat
  match e.emotion with
  | .unknown => ⟨.lonely, now⟩
  | .lonely =>
    if dt < 0 then ⟨.lonely, now⟩
    else if present then ⟨.happy, now⟩
    else e
  | .happy =>
    if dt < 0 then ⟨.lonely, now⟩
    else if !present then ⟨.lonely, now⟩
    else if dt > Config.happyToBoredSeconds * tps then ⟨.bored, now⟩
    else e
  | .bored =>
    if dt < 0 then ⟨.lonely, now⟩
    else if !present && decide (dt > Config.boredToLonelySeconds * tps) then ⟨.lonely, now⟩
    else e

/-- EMO_INIT (R196). -/
def execEmoInit (s : State) : Result := finish (s.setEmo ⟨.lonely, s.arg0⟩) .okay

/-- EMO_UPDATE (R198): RES0 is 1 when the emotion changed. -/
def execEmoUpdate (s : State) : Result :=
  let e := emoNext s.cfg.tps s.emo s.arg0 (field1 s.arg1)
  finish ((s.setEmo e).setRes0 (if e.emotion ≠ s.emo.emotion then 1#32 else 0#32)) .okay

end Sys2Proof.Machine
end

