-- ==== Sys2Proof/Machine/Packet.lean ====
section
/-! DEFINITION. The packet framer and parser (42_packet.md). One byte of the parser is a pure step: the new parser state, at most one byte stored, at most one event. -/

namespace Sys2Proof.Machine

/-! ### Transmit -/

/-- Esc(b) (R164). -/
def esc (b : Byte) : List Byte :=
  if b = Config.flag ∨ b = Config.escape then [Config.escape, b] else [b]

/-- Esc*(list) (R164). -/
def escAll : List Byte → List Byte
  | [] => []
  | b :: bs => esc b ++ escAll bs

/-- The high and the low byte of a 16-bit value, most significant first on the wire (20_memory.md R82). -/
def hiByte (v : BitVec 16) : Byte := v.extractLsb' 8 8

def loByte (v : BitVec 16) : Byte := v.extractLsb' 0 8

/-- B, the wire bytes between the opening FLAG and the FCS, for an escaped payload P (R163). -/
def frameBody (addr ctrl : Byte) (p : List Byte) : List Byte :=
  let len := BitVec.ofNat 16 p.length
  escAll [addr, ctrl, hiByte len, loByte len] ++ p

/-- The frame of a payload (R163, R164). -/
def frameBytes (addr ctrl : Byte) (payload : List Byte) : List Byte :=
  let b := frameBody addr ctrl (escAll payload)
  let c := fcs Config.fcsInitial b
  [Config.flag] ++ b ++ esc (hiByte c) ++ esc (loByte c) ++ [Config.flag]

/-- PKT_FCS (R161). -/
def execPktFcs (s : State) : Result :=
  let n := s.arg1.toNat
  let init := field16 s.arg2
  if n = 0 then finish (s.setRes0 (init.setWidth 32)) .okay
  else
    match bufferFault s.cfg s.arg0.toNat n with
    | some st => raise s st
    | none => finish (s.setRes0 ((fcs init (s.memRead s.arg0.toNat n)).setWidth 32)) .okay

/-- PKT_FRAME's check of its source, which an empty payload does not have (R163). -/
def frameSourceFault (c : Config) (src n : Nat) : Option Status :=
  if n = 0 then none else bufferFault c src n

/-- PKT_FRAME (R163): NULL destination, source, escaped length, destination, in that order. -/
def execPktFrame (s : State) : Result :=
  let n := s.arg2.toNat
  if s.arg0 = 0#32 then raise s .invalid
  else
    match frameSourceFault s.cfg s.arg1.toNat n with
    | some st => raise s st
    | none =>
      let payload := s.memRead s.arg1.toNat n
      if (escAll payload).length > Config.maxPayload then raise s .tooLong
      else
        let out := frameBytes (field8 s.arg3) (fieldHi8 s.arg3) payload
        if ¬ inRange s.cfg s.arg0.toNat out.length then raise s .erange
        else
          finish ((s.memWrite s.arg0.toNat out).setRes0 (BitVec.ofNat 32 out.length)) .okay

/-! ### Receive -/

/-- What one received byte does: the parser's new state, the byte it stores in the receive buffer, the event it emits. -/
structure RxStep where
  pkt : PktState
  store : Option (Nat × Byte)
  event : Option Event
  deriving DecidableEq, Repr

/-- Nothing stored and nothing emitted. -/
def RxStep.quiet (p : PktState) : RxStep := ⟨p, none, none⟩

/-- Fold(b) (R172). -/
def PktState.fold (p : PktState) (b : Byte) : PktState := { p with running := fcsStep p.running b }

/-- Store(b): the byte goes to RXBUF + CURSOR and the cursor advances (R172). -/
def storeByte (p : PktState) (b : Byte) (q : PktState) : RxStep :=
  ⟨{ q with cursor := p.cursor + 1#32 }, some (p.rxbuf.toNat + p.cursor.toNat, b), none⟩

/-- StartFrame() (R172). -/
def startFrame (p : PktState) : RxStep :=
  ⟨{ p with
      rx := .waitAddr, esc := false, cursor := 1#32, addr := 0#8, ctrl := 0#8
      declared := 0#16, remaining := 0#16, running := Config.fcsInitial, received := 0#16 },
    some (p.rxbuf.toNat, Config.flag), none⟩

/-- The largest payload length the parser accepts: min(1016, RXCAP - HDR) (R174). -/
def rxLimit (p : PktState) : Nat := min Config.maxPayload (p.rxcap.toNat - Config.hdr)

/-- The event of a frame cut short, with the whole partial buffer (R170, R174). -/
def evPartial (kind : EventKind) (p : PktState) : Event :=
  mkEvent kind p.addr p.ctrl false p.rxbuf p.cursor

/-- PKT_COMPLETE: the payload after the header, its stored length, fcs_match (R177). -/
def evComplete (p : PktState) : Event :=
  mkEvent .pktComplete p.addr p.ctrl (fcsMatch p) (p.rxbuf + BitVec.ofNat 32 Config.hdr)
    (p.cursor - BitVec.ofNat 32 Config.hdr)

/-- FlagByte(): an unescaped FLAG outside IDLE (R170). -/
def rxFlag (p : PktState) : RxStep :=
  if p.rx = .waitAddr then .quiet p
  else { startFrame p with event := some (evPartial .pktInterrupted p) }

/-- One wire byte of the body counted off; the FCS follows the last (R171, R175). -/
def PktState.countDown (p : PktState) : PktState :=
  let left := p.remaining - 1#16
  { p with remaining := left, rx := if left = 0#16 then .waitFcsHi else p.rx }

/-- EscapeByte(): an unescaped ESCAPE outside IDLE (R171). -/
def rxEscape (p : PktState) : RxStep :=
  let q := { p with esc := true }
  match p.rx with
  | .waitFcsHi => .quiet q
  | .waitFcsLo => .quiet q
  | .inBody => .quiet (q.fold Config.escape).countDown
  | .idle => .quiet (q.fold Config.escape)
  | .waitAddr => .quiet (q.fold Config.escape)
  | .waitControl => .quiet (q.fold Config.escape)
  | .waitLenHi => .quiet (q.fold Config.escape)
  | .waitLenLo => .quiet (q.fold Config.escape)

/-- The low length byte once stored: too long, empty, or a body (R174). -/
def rxLength (r : RxStep) : RxStep :=
  let p := r.pkt
  if p.declared.toNat > rxLimit p then
    { r with pkt := { p with rx := .idle }, event := some (evPartial .pktTooLong p) }
  else if p.declared = 0#16 then { r with pkt := { p with rx := .waitFcsHi } }
  else { r with pkt := { p with remaining := p.declared, rx := .inBody } }

/-- Literal(STATE, b): the rows of R173 to R177. DEDUCED: ADDR is stored at the first literal byte after the opening FLAG, as R173 has it, where 70_reset_and_hazards.md R267 speaks of the second (log 19). -/
def rxLiteral (p : PktState) (b : Byte) : RxStep :=
  match p.rx with
  | .idle => .quiet p
  | .waitAddr => storeByte p b { p.fold b with addr := b, rx := .waitControl }
  | .waitControl => storeByte p b { p.fold b with ctrl := b, rx := .waitLenHi }
  | .waitLenHi => storeByte p b { p.fold b with declared := b.setWidth 16 <<< 8, rx := .waitLenLo }
  | .waitLenLo => rxLength (storeByte p b { p.fold b with declared := p.declared ||| b.setWidth 16 })
  | .inBody => storeByte p b (p.fold b).countDown
  | .waitFcsHi => .quiet { p with received := b.setWidth 16 <<< 8, rx := .waitFcsLo }
  | .waitFcsLo =>
    let q := { p with received := p.received ||| b.setWidth 16 }
    ⟨{ q with rx := .idle }, none, some (evComplete q)⟩

/-- RxByte(b) (R168, R169): IDLE first, then an unescaped FLAG or ESCAPE, else a literal. -/
def rxStep (p : PktState) (b : Byte) : RxStep :=
  if p.rx = .idle then (if b = Config.flag then startFrame p else .quiet p)
  else if p.esc = false ∧ b = Config.flag then rxFlag p
  else if p.esc = false ∧ b = Config.escape then rxEscape p
  else rxLiteral { p with esc := false } b

/-- RxByte on the state: store, emit, and the parser's new state. -/
def State.rxByte (s : State) (b : Byte) : State :=
  let r := rxStep s.pkt b
  let t := match r.store with
    | none => s
    | some w => s.writeBram w.1 w.2
  let u := match r.event with
    | none => t
    | some e => t.emit e
  u.setPkt r.pkt

/-- Feed bytes in order, stopping after the first that emits a packet event; the state and the count consumed (R178). A dropped record was emitted all the same (log 15). -/
def State.rxStream : State → List Byte → State × Nat
  | s, [] => (s, 0)
  | s, b :: bs =>
    let t := s.rxByte b
    if (rxStep s.pkt b).event.isSome then (t, 1)
    else
      let r := t.rxStream bs
      (r.1, r.2 + 1)

/-- The parser's state after PKT_RX_INIT (R166). -/
def rxInit (rxbuf rxcap : Word) : PktState :=
  { PktState.reset with init := true, rxbuf := rxbuf, rxcap := rxcap }

/-- PKT_RX_INIT (R166). -/
def execPktRxinit (s : State) : Result :=
  if s.arg0 = 0#32 ∨ s.arg1.toNat < Config.hdr then raise s .invalid
  else if ¬ inRange s.cfg s.arg0.toNat s.arg1.toNat then raise s .erange
  else finish (s.setPkt (rxInit s.arg0 s.arg1)) .okay

/-- PKT_RX_BYTE (R167). -/
def execPktRxbyte (s : State) : Result :=
  if s.pkt.init = false then raise s .invalid else finish (s.rxByte (field8 s.arg0)) .okay

/-- PKT_RX_STREAM (R178). -/
def execPktRxstream (s : State) : Result :=
  let n := s.arg1.toNat
  if s.pkt.init = false then raise s .invalid
  else if n = 0 then finish (s.setRes0 0#32) .okay
  else
    match bufferFault s.cfg s.arg0.toNat n with
    | some st => raise s st
    | none =>
      let r := s.rxStream (s.memRead s.arg0.toNat n)
      finish (r.1.setRes0 (BitVec.ofNat 32 r.2)) .okay

end Sys2Proof.Machine
end

