-- ==== Sys2Proof/Machine/Dispatch.lean ====
section
/-! DEFINITION. Which meaning each command has (30_encoding.md R104). -/

namespace Sys2Proof.Machine

def exec (i : Instr) (s : State) : Host.Outcome State Fault Refusal :=
  match i with
  | .nop => Sys2Proof.Machine.execNop s
  | .sinePopulate slot => Sys2Proof.Machine.execSinePopulate slot s
  | .sineGen slot => Sys2Proof.Machine.execSineGen slot s
  | .sineFill slot => Sys2Proof.Machine.execSineFill slot s
  | .sineSample => Sys2Proof.Machine.execSineSample s
  | .sineMix => Sys2Proof.Machine.execSineMix s
  | .dtmfInit => Sys2Proof.Machine.execDtmfInit s
  | .dtmfBlock => Sys2Proof.Machine.execDtmfBlock s
  | .pktFcs => Sys2Proof.Machine.execPktFcs s
  | .pktFrame => Sys2Proof.Machine.execPktFrame s
  | .pktRxinit => Sys2Proof.Machine.execPktRxinit s
  | .pktRxbyte => Sys2Proof.Machine.execPktRxbyte s
  | .pktRxstream => Sys2Proof.Machine.execPktRxstream s
  | .piNext => Sys2Proof.Machine.execPiNext s
  | .piRx => Sys2Proof.Machine.execPiRx s
  | .piReset => Sys2Proof.Machine.execPiReset s
  | .emoInit => Sys2Proof.Machine.execEmoInit s
  | .emoUpdate => Sys2Proof.Machine.execEmoUpdate s
  | .orchTick => Sys2Proof.Machine.execOrchTick s
  | .evtPop => Sys2Proof.Machine.execEvtPop s
  | .evtClear => Sys2Proof.Machine.execEvtClear s

end Sys2Proof.Machine
end

