-- ==== Sys2Proof/Machine/Regs.lean ====
section
/-! DEFINITION. The register map of the host interface (10_state.md R27): the register of an offset, what a read returns, what a write stores. CMD, whose write runs a command, is Machine/Bus.lean's. -/

namespace Sys2Proof.Machine

/-- The fields of a slot block, in offset order (R37). -/
inductive SineField where
  | buf | bufLen | theta0 | fTone | fSample | scale | resultLen | phaseErr
  deriving DecidableEq, Repr

/-- The registers by name (R27). Every other offset is reserved. -/
inductive Reg where
  | id | ctrl | status | cmd | arg0 | arg1 | arg2 | arg3 | res0 | res1 | evqCount | evh0 | evh1 | evh2
  | sreq (slot : Nat) (field : SineField)
  | dtmfFs | dtmfThresh | dtmfState | dtmfDwell
  | pktState | pktRxbuf | pktRxcap | pktCursor | pktHdr | pktLen | pktFcs
  | piCursor | emoState | emoTs | orchState | orchDacbuf | orchDaclen | orchFs
  | reserved
  deriving DecidableEq, Repr

/-- The +offset of a slot field (R37). -/
def SineField.offset : SineField → Nat
  | .buf => 0x00
  | .bufLen => 0x04
  | .theta0 => 0x08
  | .fTone => 0x0C
  | .fSample => 0x10
  | .scale => 0x14
  | .resultLen => 0x18
  | .phaseErr => 0x1C

/-- The slot field at a +offset of a slot block. -/
def SineField.ofOffset (off : Nat) : Option SineField :=
  match off with
  | 0x00 => some .buf
  | 0x04 => some .bufLen
  | 0x08 => some .theta0
  | 0x0C => some .fTone
  | 0x10 => some .fSample
  | 0x14 => some .scale
  | 0x18 => some .resultLen
  | 0x1C => some .phaseErr
  | _ => none

/-- The register at an offset of the slot blocks (R37); a slot beyond NSREQ is reserved (R27). -/
def sreqAt (c : Config) (off : Nat) : Reg :=
  if (off - 0x40) / 0x20 < c.nsreq then
    match SineField.ofOffset ((off - 0x40) % 0x20) with
    | some f => .sreq ((off - 0x40) / 0x20) f
    | none => .reserved
  else .reserved

/-- The register at an offset of the register block (R27). -/
def regAt (c : Config) (off : Nat) : Reg :=
  if 0x040 ≤ off ∧ off < 0x240 then sreqAt c off
  else
    match off with
    | 0x000 => .id
    | 0x004 => .ctrl
    | 0x008 => .status
    | 0x00C => .cmd
    | 0x010 => .arg0
    | 0x014 => .arg1
    | 0x018 => .arg2
    | 0x01C => .arg3
    | 0x020 => .res0
    | 0x024 => .res1
    | 0x030 => .evqCount
    | 0x034 => .evh0
    | 0x038 => .evh1
    | 0x03C => .evh2
    | 0x300 => .dtmfFs
    | 0x304 => .dtmfThresh
    | 0x308 => .dtmfState
    | 0x30C => .dtmfDwell
    | 0x320 => .pktState
    | 0x324 => .pktRxbuf
    | 0x328 => .pktRxcap
    | 0x32C => .pktCursor
    | 0x330 => .pktHdr
    | 0x334 => .pktLen
    | 0x338 => .pktFcs
    | 0x340 => .piCursor
    | 0x350 => .emoState
    | 0x354 => .emoTs
    | 0x360 => .orchState
    | 0x364 => .orchDacbuf
    | 0x368 => .orchDaclen
    | 0x36C => .orchFs
    | _ => .reserved

/-- The offset of a register (R27, R37); the reserved locations have no single one. -/
def Reg.offset : Reg → Option Nat
  | .id => some 0x000
  | .ctrl => some 0x004
  | .status => some 0x008
  | .cmd => some 0x00C
  | .arg0 => some 0x010
  | .arg1 => some 0x014
  | .arg2 => some 0x018
  | .arg3 => some 0x01C
  | .res0 => some 0x020
  | .res1 => some 0x024
  | .evqCount => some 0x030
  | .evh0 => some 0x034
  | .evh1 => some 0x038
  | .evh2 => some 0x03C
  | .sreq slot f => some (0x040 + 0x20 * slot + f.offset)
  | .dtmfFs => some 0x300
  | .dtmfThresh => some 0x304
  | .dtmfState => some 0x308
  | .dtmfDwell => some 0x30C
  | .pktState => some 0x320
  | .pktRxbuf => some 0x324
  | .pktRxcap => some 0x328
  | .pktCursor => some 0x32C
  | .pktHdr => some 0x330
  | .pktLen => some 0x334
  | .pktFcs => some 0x338
  | .piCursor => some 0x340
  | .emoState => some 0x350
  | .emoTs => some 0x354
  | .orchState => some 0x360
  | .orchDacbuf => some 0x364
  | .orchDaclen => some 0x368
  | .orchFs => some 0x36C
  | .reserved => none

/-- A slot field's value (R37). -/
def SineReq.get (r : SineReq) : SineField → Word
  | .buf => r.buf
  | .bufLen => r.bufLen
  | .theta0 => r.theta0
  | .fTone => r.fTone
  | .fSample => r.fSample
  | .scale => r.scale
  | .resultLen => r.resultLen
  | .phaseErr => r.phaseErr

/-- A slot with one field written (R37). -/
def SineReq.put (r : SineReq) (f : SineField) (v : Word) : SineReq :=
  match f with
  | .buf => { r with buf := v }
  | .bufLen => { r with bufLen := v }
  | .theta0 => { r with theta0 := v }
  | .fTone => { r with fTone := v }
  | .fSample => { r with fSample := v }
  | .scale => { r with scale := v }
  | .resultLen => { r with resultLen := v }
  | .phaseErr => { r with phaseErr := v }

/-- CTRL as it reads: IRQ_EN in bit 0, the rest 0 (R29). -/
def State.ctrlWord (s : State) : Word := (BitVec.ofBool s.irqEn).setWidth 32

/-- STATUS: CODE in 7:0, EVQ_OVF in bit 8 (R30). -/
def State.statusWord (s : State) : Word :=
  (0#23 ++ BitVec.ofBool s.evqOvf ++ s.status.code : BitVec (23 + 1 + 8))

/-- DTMF_STATE: HELD in 4:0, INIT in bit 31 (R41, R42). -/
def DtmfState.word (d : DtmfState) : Word :=
  (BitVec.ofBool d.init ++ 0#26 ++ BitVec.ofNat 5 (symCode d.held) : BitVec (1 + 26 + 5))

/-- PKT_STATE: STATE in 2:0, ESC in bit 8, INIT in bit 31 (R45, R46, R47). -/
def PktState.word (p : PktState) : Word :=
  (BitVec.ofBool p.init ++ 0#22 ++ BitVec.ofBool p.esc ++ 0#5 ++ p.rx.code : BitVec (1 + 22 + 1 + 5 + 3))

/-- PKT_HDR: ADDR in 7:0, CTRL in 15:8 (R27, R50). -/
def PktState.hdrWord (p : PktState) : Word := (0#16 ++ p.ctrl ++ p.addr : BitVec (16 + 8 + 8))

/-- PKT_LEN: DECLARED in 15:0, REMAINING in 31:16 (R27, R50). -/
def PktState.lenWord (p : PktState) : Word := (p.remaining ++ p.declared : BitVec (16 + 16))

/-- PKT_FCS: RUNNING in 15:0, RECEIVED in 31:16 (R27, R50). -/
def PktState.fcsWord (p : PktState) : Word := (p.received ++ p.running : BitVec (16 + 16))

/-- The head record, all zero words when the queue is empty (R35). -/
def State.headEvent (s : State) : Event := s.evq.headD ⟨0#32, 0#32, 0#32⟩

/-- EVQ_COUNT: the length in 15:0 (R27, R34; log 16). -/
def State.evqCountWord (s : State) : Word := (BitVec.ofNat 16 s.evq.length).setWidth 32

/-- What a 32-bit read of a register returns (R27). -/
def State.readReg (s : State) : Reg → Word
  | .id => Config.idValue
  | .ctrl => s.ctrlWord
  | .status => s.statusWord
  | .cmd => 0#32
  | .arg0 => s.arg0
  | .arg1 => s.arg1
  | .arg2 => s.arg2
  | .arg3 => s.arg3
  | .res0 => s.res0
  | .res1 => s.res1
  | .evqCount => s.evqCountWord
  | .evh0 => s.headEvent.w0
  | .evh1 => s.headEvent.w1
  | .evh2 => s.headEvent.w2
  | .sreq slot f => match s.slot? slot with
    | some r => r.get f
    | none => 0#32
  | .dtmfFs => s.dtmf.fs
  | .dtmfThresh => s.dtmf.thresh
  | .dtmfState => s.dtmf.word
  | .dtmfDwell => s.dtmf.dwell
  | .pktState => s.pkt.word
  | .pktRxbuf => s.pkt.rxbuf
  | .pktRxcap => s.pkt.rxcap
  | .pktCursor => s.pkt.cursor
  | .pktHdr => s.pkt.hdrWord
  | .pktLen => s.pkt.lenWord
  | .pktFcs => s.pkt.fcsWord
  | .piCursor => s.pi.code.setWidth 32
  | .emoState => s.emo.emotion.code.setWidth 32
  | .emoTs => s.emo.ts
  | .orchState => s.orch.phase.code.setWidth 32
  | .orchDacbuf => s.orch.dacBuf
  | .orchDaclen => s.orch.dacLen
  | .orchFs => s.orch.fs
  | .reserved => 0#32

/-- A write of CTRL: SRST performs the soft reset and the rest of the value is discarded; otherwise IRQ_EN is bit 0 (R29, 70_reset_and_hazards.md R262). -/
def State.writeCtrl (s : State) (v : Word) : State :=
  if v.getLsbD 1 = true then s.softReset else { s with irqEn := v.getLsbD 0 }

/-- What a 32-bit write stores in a register other than CMD; a write to a read-only or reserved location is ignored (R27). -/
def State.writeReg (s : State) (r : Reg) (v : Word) : State :=
  match r with
  | .ctrl => s.writeCtrl v
  | .arg0 => { s with arg0 := v }
  | .arg1 => { s with arg1 := v }
  | .arg2 => { s with arg2 := v }
  | .arg3 => { s with arg3 := v }
  | .sreq slot f => match s.slot? slot with
    | some q => s.setSreq slot (q.put f v)
    | none => s
  | .emoState => s.setEmo { s.emo with emotion := Emotion.ofCode (v.extractLsb' 0 2) }
  | .emoTs => s.setEmo { s.emo with ts := v }
  | .orchDacbuf => s.setOrch { s.orch with dacBuf := v }
  | .orchDaclen => s.setOrch { s.orch with dacLen := v }
  | .orchFs => s.setOrch { s.orch with fs := v }
  | .id | .status | .cmd | .res0 | .res1 | .evqCount | .evh0 | .evh1 | .evh2
  | .dtmfFs | .dtmfThresh | .dtmfState | .dtmfDwell
  | .pktState | .pktRxbuf | .pktRxcap | .pktCursor | .pktHdr | .pktLen | .pktFcs
  | .piCursor | .orchState | .reserved => s

end Sys2Proof.Machine
end

