-- ==== Sys2Proof/Machine/Bus.lean ====
section
/-! DEFINITION. The HOST port: one input performed in full (20_memory.md R76, R80, R81, R87; 70_reset_and_hazards.md R260). -/

namespace Sys2Proof.Machine

/-- The size of the window (R76). -/
def windowSize : Nat := 0x8000

/-- The end of the register block (R76). -/
def regBlockSize : Nat := 0x400

/-- The window offset of BRAM byte 0 (R76). -/
def bramOffset : Nat := 0x4000

/-- The bytes of an access (R80). -/
def Width.bytes : Width → Nat
  | .byte => 1
  | .half => 2
  | .word => 4

/-- Where in the window an access lies (R76). -/
inductive Place where
  /-- the register block, at this offset -/
  | reg (off : Nat)
  /-- the BRAM window, starting at this BRAM address -/
  | bram (a : Nat)
  /-- a reserved range: reads return 0, writes are ignored -/
  | reserved
  /-- an access that R81 does not admit -/
  | notAdmitted
  /-- not in the window (log 7) -/
  | outside
  deriving DecidableEq, Repr

/-- The place of an access by its window offset: registers by aligned words only; BRAM naturally aligned, an access that starts in BRAM possibly reaching past its end (R80, R81); elsewhere reserved (log 6). -/
def placeAt (c : Config) (w : Width) (off : Nat) : Place :=
  if windowSize ≤ off then .outside
  else if off < regBlockSize then
    (if w = .word ∧ off % 4 = 0 then .reg off else .notAdmitted)
  else if off < bramOffset then
    (if bramOffset < off + w.bytes then .notAdmitted else .reserved)
  else if off - bramOffset < c.bramSize then
    (if off % w.bytes = 0 then .bram (off - bramOffset) else .notAdmitted)
  else if windowSize < off + w.bytes then .outside
  else .reserved

/-- The place of an access by its HOST address (R76). -/
def placeOf (c : Config) (w : Width) (addr : Nat) : Place :=
  if addr < c.coreBase then .outside else placeAt c w (addr - c.coreBase)

/-- A little-endian read of BRAM, zero-extended (R80). -/
def State.readLE (s : State) (a : Nat) : Width → Word
  | .byte => (s.readBram a).setWidth 32
  | .half => (0#16 ++ s.readBram (a + 1) ++ s.readBram a : BitVec (16 + 8 + 8))
  | .word => (s.readBram (a + 3) ++ s.readBram (a + 2) ++ s.readBram (a + 1) ++ s.readBram a : BitVec (8 + 8 + 8 + 8))

/-- The bytes a write of the low-order part of `v` stores, lowest address first (R80; log 12). -/
def bytesLE (v : Word) : Width → List Byte
  | .byte => [v.extractLsb' 0 8]
  | .half => [v.extractLsb' 0 8, v.extractLsb' 8 8]
  | .word => [v.extractLsb' 0 8, v.extractLsb' 8 8, v.extractLsb' 16 8, v.extractLsb' 24 8]

/-- A write to CMD runs the command the word encodes; an ILLEGAL word writes STATUS.CODE and nothing else (30_encoding.md R102, 60_exceptions.md R241). -/
def State.runCommand (s : State) (w : Word) : Result :=
  match decode w with
  | none => raise s .illegal
  | some i => exec i s

/-- A HOST read: no side effect on the CORE (20_memory.md R86); the data is recorded (log 2). -/
def State.hostReads (s : State) (w : Width) (addr : Nat) : Result :=
  match placeOf s.cfg w addr with
  | .reg off => .next (s.setHostRead (s.readReg (regAt s.cfg off)))
  | .bram a => .next (s.setHostRead (s.readLE a w))
  | .reserved => .next (s.setHostRead 0#32)
  | .notAdmitted => .fault .accessNotAdmitted
  | .outside => .refused .outsideWindow

/-- A HOST write (20_memory.md R86): CMD runs a command, everything else stores or is ignored. -/
def State.hostWrites (s : State) (w : Width) (addr : Nat) (v : Word) : Result :=
  match placeOf s.cfg w addr with
  | .reg off =>
    if regAt s.cfg off = .cmd then s.runCommand v else .next (s.writeReg (regAt s.cfg off) v)
  | .bram a => .next (s.memWrite a (bytesLE v w))
  | .reserved => .next s
  | .notAdmitted => .fault .accessNotAdmitted
  | .outside => .refused .outsideWindow

/-- One HOST input (R87, R260). -/
def State.perform (s : State) : HostInput → Result
  | .read w addr => s.hostReads w addr
  | .write w addr v => s.hostWrites w addr v
  | .powerOnReset cells => .next (s.powerOnReset cells)

/-- The CMD write that carries a command word of `nbits` bits: what takes the place of an instruction fetch (30_encoding.md R100; log 13). -/
def cmdWrite (c : Config) (nbits w : Nat) : HostInput :=
  .write .word (c.coreBase + 0x00C) (BitVec.ofNat 32 (w % 2 ^ nbits))

end Sys2Proof.Machine
end

