-- ==== Sys2Proof/Machine/Step.lean ====
section
/-! DEFINITION. One step of the machine: the oldest waiting HOST input, performed in full (20_memory.md R87). -/

namespace Sys2Proof.Machine

/-- One step. With no HOST input waiting the CORE is idle and holds all state (60_exceptions.md R254; log 1). -/
def step (s : State) : Host.Outcome State Fault Refusal :=
  match s.hostQueue with
  | [] => .next s
  | i :: rest => (s.setHostQueue rest).perform i

/-- The state whose next step runs the command word: its CMD write stands first among the waiting HOST inputs (log 13). -/
def State.withFetchWord (s : State) (nbits w : Nat) : State :=
  s.setHostQueue (cmdWrite s.cfg nbits w :: s.hostQueue)

end Sys2Proof.Machine
end

