-- ==== Sys2Proof/Machine/Asm.lean ====
section
/-! DEFINITION. The assembly statements of a HOST program and what each expands to (30_encoding.md R109 to R112). The text form (comments, number and character literals) is left out (log 17). -/

namespace Sys2Proof.Machine

/-- The mnemonic of a command without its slot operand (R110). -/
def mnemonic : Instr → String
  | .nop => "nop"
  | .sinePopulate _ => "sine.populate"
  | .sineGen _ => "sine.gen"
  | .sineFill _ => "sine.fill"
  | .sineSample => "sine.sample"
  | .sineMix => "sine.mix"
  | .dtmfInit => "dtmf.init"
  | .dtmfBlock => "dtmf.block"
  | .pktFcs => "pkt.fcs"
  | .pktFrame => "pkt.frame"
  | .pktRxinit => "pkt.rxinit"
  | .pktRxbyte => "pkt.rxbyte"
  | .pktRxstream => "pkt.rxstream"
  | .piNext => "pi.next"
  | .piRx => "pi.rx"
  | .piReset => "pi.reset"
  | .emoInit => "emo.init"
  | .emoUpdate => "emo.update"
  | .orchTick => "orch.tick"
  | .evtPop => "evt.pop"
  | .evtClear => "evt.clear"

/-- An assembly statement: the five of R109, the operand form of R111, and the named pseudo-instructions of R112. -/
inductive Stmt where
  | wr (r : Reg) (v : Word)
  | rd (r : Reg)
  | wrb (a : Nat) (bytes : List Byte)
  | rdb (a n : Nat)
  | cmd (i : Instr)
  /-- `<mnemonic> [sN,] v0 [, v1 [, v2 [, v3]]]`: the operands given, at most four -/
  | cmdWith (i : Instr) (operands : List Word)
  | dtmfFlush
  | pktFcs16 (src len : Word)
  | pktFrame1 (dst src len : Word) (addr ctrl : Byte)
  | emoUpdate1 (now present : Word)
  | sineScale (slot : Nat) (k : Word)
  | sineTheta (slot : Nat) (w : Word)
  deriving DecidableEq, Repr

/-- `wr NAME, v` (R109). -/
def asmWr (c : Config) (r : Reg) (v : Word) : List HostInput :=
  match r.offset with
  | some off => [.write .word (c.coreBase + off) v]
  | none => []

/-- `rd NAME` (R109). -/
def asmRd (c : Config) (r : Reg) : List HostInput :=
  match r.offset with
  | some off => [.read .word (c.coreBase + off)]
  | none => []

/-- Byte writes at BRAM addresses a, a+1, ... (R109). -/
def asmWrb (c : Config) : Nat → List Byte → List HostInput
  | _, [] => []
  | a, b :: bs => .write .byte (c.coreBase + bramOffset + a) (b.setWidth 32) :: asmWrb c (a + 1) bs

/-- The command word write (R109, R110). -/
def asmCmd (c : Config) (i : Instr) : List HostInput := asmWr c .cmd (encode i)

/-- The writes of the operands given, ARG0 first (R111). -/
def asmArgs (c : Config) (operands : List Word) : List HostInput :=
  (List.zip [Reg.arg0, Reg.arg1, Reg.arg2, Reg.arg3] operands).flatMap (fun p => asmWr c p.1 p.2)

/-- The HOST accesses of a statement (R109, R111, R112). -/
def Stmt.expand (c : Config) : Stmt → List HostInput
  | .wr r v => asmWr c r v
  | .rd r => asmRd c r
  | .wrb a bytes => asmWrb c a bytes
  | .rdb a n => (List.range n).map (fun i => .read .byte (c.coreBase + bramOffset + a + i))
  | .cmd i => asmCmd c i
  | .cmdWith i operands => asmArgs c operands ++ asmCmd c i
  | .dtmfFlush => asmWr c .arg1 0#32 ++ asmCmd c .dtmfBlock
  | .pktFcs16 src len => asmArgs c [src, len, 0xFFFF#32] ++ asmCmd c .pktFcs
  | .pktFrame1 dst src len addr ctrl =>
    asmArgs c [dst, src, len, addr.setWidth 32 ||| (ctrl.setWidth 32 <<< 8)] ++ asmCmd c .pktFrame
  | .emoUpdate1 now present => asmArgs c [now, present] ++ asmCmd c .emoUpdate
  | .sineScale slot k => asmWr c (.sreq slot .scale) k
  | .sineTheta slot w => asmWr c (.sreq slot .theta0) w

/-- A program is the sequence of its statements' accesses (R100). -/
def assemble (c : Config) (program : List Stmt) : List HostInput := program.flatMap (Stmt.expand c)

end Sys2Proof.Machine
end

