-- ==== Sys2Proof/Safety.lean ====
section
/-! DEFINITION. What every run keeps and what a safe run is, in the terms the statements use. -/

namespace Sys2Proof.Machine

/-- A step that does not stop. The only stops are an access 20_memory.md R81 does not admit and one outside the window (R76). -/
def Safe (r : Result) : Prop := ∃ t, r = .next t

/-- A failure ends a command by `raise`; the other codes are outcomes (60_exceptions.md R240). -/
def Status.isFailure : Status → Bool
  | .okay => false
  | .tooShort => false
  | .wrong => false
  | .exhausted => false
  | .invalid => true
  | .undersampled => true
  | .tooLong => true
  | .illegal => true
  | .erange => true
  | .notFound => true

/-- The most events one command can emit (45_control.md R232). -/
def maxEvents : Instr → Nat
  | .dtmfBlock => 3
  | .orchTick => 3
  | .pktRxbyte => 1
  | .pktRxstream => 1
  | .nop | .sinePopulate _ | .sineGen _ | .sineFill _ | .sineSample | .sineMix | .dtmfInit | .pktFcs
  | .pktFrame | .pktRxinit | .piNext | .piRx | .piReset | .emoInit | .emoUpdate | .evtPop | .evtClear => 0

/-- The parser's invariant: it starts uninitialised and idle, its buffer lies in BRAM (42_packet.md R166), no escape is pending in IDLE (R169), the cursor stays inside the buffer (10_state.md R49, 42_packet.md R179) and REMAINING inside the payload cap (R51), and a frame whose first byte is still awaited has folded nothing (R172). -/
abbrev PktState.Inv (c : Config) (p : PktState) : Prop :=
  (p.init = false → p.rx = .idle ∧ p.cursor = 0#32) ∧
  (p.init = true → p.rxbuf ≠ 0#32 ∧ Config.hdr ≤ p.rxcap.toNat ∧ p.rxbuf.toNat + p.rxcap.toNat ≤ c.bramSize) ∧
  (p.rx = .idle → p.esc = false) ∧
  p.cursor.toNat ≤ p.rxcap.toNat ∧
  p.remaining.toNat ≤ Config.maxPayload ∧
  (p.rx = .waitAddr → p.cursor = 1#32) ∧
  (p.rx = .waitAddr → p.esc = false → p.running = Config.fcsInitial) ∧
  (p.rx = .waitControl → p.cursor = 2#32) ∧
  (p.rx = .waitLenHi → p.cursor = 3#32) ∧
  (p.rx = .waitLenLo → p.cursor = 4#32) ∧
  (p.rx = .inBody → Config.hdr ≤ p.cursor.toNat ∧ 1 ≤ p.remaining.toNat ∧
    p.cursor.toNat + p.remaining.toNat ≤ p.rxcap.toNat) ∧
  (p.rx = .waitFcsHi ∨ p.rx = .waitFcsLo → Config.hdr ≤ p.cursor.toNat)

/-- The demodulator's invariant: eight coefficient pairs, and after DTMF_INIT a positive rate and the coefficients of that rate (10_state.md R43). -/
abbrev DtmfState.Inv (c : Config) (d : DtmfState) : Prop :=
  d.cosw.length = 8 ∧ d.sinw.length = 8 ∧
  (d.init = true → d.fs ≠ 0#32 ∧
    d.cosw = Config.dtmfTones.map (fun f => (gnumOf c).cosTurn f d.fs.toNat) ∧
    d.sinw = Config.dtmfTones.map (fun f => (gnumOf c).sinTurn f d.fs.toNat))

/-- A record's KIND is one of 1..10 and its bits 31:25 are 0 (10_state.md R36). -/
abbrev Event.Ok (e : Event) : Prop :=
  1 ≤ e.w0.toNat % 256 ∧ e.w0.toNat % 256 ≤ 10 ∧ e.w0.toNat < 2 ^ 25

/-- BRAM is canonical and lists addresses below BRAM_SIZE only. -/
abbrev State.BramOk (s : State) : Prop := s.bram.wf ∧ ∀ c ∈ s.bram, c.1 < s.cfg.bramSize

/-- The invariant of the machine. -/
abbrev State.Inv (s : State) : Prop :=
  s.cfg.Legal ∧ s.BramOk ∧ s.sreq.length = s.cfg.nsreq ∧ s.evq.length ≤ s.cfg.evqDepth ∧
  (∀ e ∈ s.evq, e.Ok) ∧ s.dtmf.Inv s.cfg ∧ s.pkt.Inv s.cfg

/-- BRAM after a run of stores, byte by byte: from `a` on the list `bytes`, every other byte as before, no byte past the end of BRAM (00_scope.md R13, 20_memory.md R80). -/
def Stored (s t : State) (a : Nat) (bytes : List Byte) : Prop :=
  ∀ x, t.readBram x =
    if a ≤ x ∧ x < a + bytes.length ∧ x < s.cfg.bramSize then bytes.getD (x - a) 0#8 else s.readBram x

/-- The event queue after emitting `es` in order: those that fit are appended (45_control.md R231). -/
def evqAfter (s : State) (es : List Event) : List Event := s.evq ++ es.take (s.cfg.evqDepth - s.evq.length)

/-- EVQ_OVF after emitting `es`: set when one did not fit, else as before (45_control.md R231). -/
def ovfAfter (s : State) (es : List Event) : Bool :=
  s.evqOvf || decide (s.cfg.evqDepth - s.evq.length < es.length)

/-- What each register reads as after either reset (10_state.md R27, 70_reset_and_hazards.md R261). -/
def resetValue : Reg → Word
  | .id => 0x41524731#32
  | .dtmfState => 0x00000010#32
  | .pktFcs => 0x0000FFFF#32
  | .ctrl | .status | .cmd | .arg0 | .arg1 | .arg2 | .arg3 | .res0 | .res1 | .evqCount | .evh0 | .evh1
  | .evh2 | .sreq _ _ | .dtmfFs | .dtmfThresh | .dtmfDwell | .pktState | .pktRxbuf | .pktRxcap
  | .pktCursor | .pktHdr | .pktLen | .piCursor | .emoState | .emoTs | .orchState | .orchDacbuf
  | .orchDaclen | .orchFs | .reserved => 0#32

/-- The statuses a command may end with (60_exceptions.md R240). -/
def mayEnd : Instr → List Status
  | .nop | .piNext | .piReset | .emoInit | .emoUpdate | .evtClear => [.okay]
  | .sinePopulate _ | .sineSample | .dtmfInit | .pktRxbyte | .evtPop => [.okay, .invalid]
  | .sineGen _ | .sineFill _ => [.okay, .tooShort, .invalid, .undersampled, .erange]
  | .sineMix | .dtmfBlock | .pktFcs | .pktRxinit | .pktRxstream => [.okay, .invalid, .erange]
  | .pktFrame => [.okay, .invalid, .erange, .tooLong]
  | .piRx => [.okay, .wrong, .exhausted]
  | .orchTick => [.okay, .invalid, .notFound, .undersampled, .erange]

/-- The magnitude of a finite pattern without its sign, in units of 2^-149. -/
def f32Units (p : Nat) : Nat :=
  match F32.ofBits (BitVec.ofNat 32 p) with
  | .fin _ m => m
  | .inf _ => 0
  | .nan => 0

end Sys2Proof.Machine
end

