-- ==== Sys2Proof/Certificates/Slice0/Obligations.lean ====
section
/-! DEFINITION. The statements for the provers, in the order of OBLIGATIONS.json. A conclusion `exec i s = .next { s with … }` gives a command's result, its completion and its frame at once: every field of State not named is as before. Where a command stores to BRAM, `Stored` says every byte of BRAM afterwards. -/

section

open Sys2Proof Sys2Proof.Machine

/-! ### Encoding (30_encoding.md) -/

/-- O1. Decoding the word of a well-formed command gives the command back, at every SLOT (R101 to R104, R110). -/
def Obligations.DecodeInvertsEncode : Prop :=
  ∀ i : Instr, i.WellFormed → decode (encode i) = some i

/-- O2. Every word the decoder accepts is the word of the command it decodes to, and that command is well-formed: no two words share a meaning (R101 to R104). -/
def Obligations.EncodeInvertsDecode : Prop :=
  ∀ (w : Word) (i : Instr), decode w = some i → i.WellFormed ∧ encode i = w

/-- O3. A word is ILLEGAL exactly when its opcode is unassigned, or RSV is not 0, or SLOT is not 0 on a command without a slot (R102, R104). -/
def Obligations.IllegalWordsAreExactly : Prop :=
  ∀ w : Word, decode w = none ↔
    (w.toNat % 256 ∉ [0x00, 0x10, 0x11, 0x12, 0x13, 0x14, 0x20, 0x21, 0x30, 0x31, 0x32, 0x33, 0x34,
        0x40, 0x41, 0x42, 0x50, 0x51, 0x60, 0x70, 0x71] ∨
      w.toNat / 4096 ≠ 0 ∨
      (w.toNat % 256 ∉ [0x10, 0x11, 0x12] ∧ w.toNat / 256 % 16 ≠ 0))

/-- O4. Words written out from R101 and R110 decode to the commands they stand for. -/
def Obligations.SampleWordsDecode : Prop :=
  decode 0x00000000#32 = some .nop ∧
  decode 0b00000000000000000000000100010000#32 = some (.sinePopulate 1) ∧
  decode 0b00000000000000000000111100010001#32 = some (.sineGen 15) ∧
  decode 0b00000000000000000000001000010010#32 = some (.sineFill 2) ∧
  decode 0x00000014#32 = some .sineMix ∧
  decode 0x00000021#32 = some .dtmfBlock ∧
  decode 0x00000031#32 = some .pktFrame ∧
  decode 0x00000041#32 = some .piRx ∧
  decode 0x00000051#32 = some .emoUpdate ∧
  decode 0x00000060#32 = some .orchTick ∧
  decode 0x00000070#32 = some .evtPop ∧
  decode 0x00000113#32 = none ∧
  decode 0x00000015#32 = none ∧
  decode 0x00001000#32 = none

/-- O5. A step whose HOST input is a CMD write of a command word takes the input from the queue and runs the command (R31, 20_memory.md R87); `withFetchWord` makes the next step run the word; with no input waiting the CORE holds all state (R254). hostQueue is the model's field (log 1, log 13). -/
def Obligations.StepRunsDecodedCommand : Prop :=
  (∀ (s : State) (rest : List HostInput) (w : Word) (i : Instr),
    decode w = some i → s.hostQueue = .write .word (s.cfg.coreBase + 0x00C) w :: rest →
    step s = exec i { s with hostQueue := rest }) ∧
  (∀ (s : State) (nbits w : Nat) (i : Instr),
    decodeTableWord nbits w = some i → step (s.withFetchWord nbits w) = exec i s) ∧
  (∀ s : State, s.hostQueue = [] → step s = .next s)

/-- O6. An ILLEGAL word written to CMD writes STATUS.CODE = ILLEGAL and changes nothing else of the CORE (60_exceptions.md R241). -/
def Obligations.IllegalCommandChangesStatusOnly : Prop :=
  ∀ (s : State) (rest : List HostInput) (w : Word),
    decode w = none → s.hostQueue = .write .word (s.cfg.coreBase + 0x00C) w :: rest →
    step s = .next { s with hostQueue := rest, status := .illegal }

/-! ### The HOST port (10_state.md section 2, 20_memory.md) -/

/-- O7. A HOST read changes nothing but the recorded read data, and repeating it returns the same value (R86). hostRead is the model's field (log 2). -/
def Obligations.HostReadsHaveNoSideEffect : Prop :=
  ∀ (s t : State) (w : Width) (addr : Nat), s.perform (.read w addr) = .next t →
    t = { s with hostRead := t.hostRead } ∧ t.perform (.read w addr) = .next t

/-- O8. A word access at CORE_BASE plus a register's offset reads that register, and writes it when it is not CMD (R27, R37, 20_memory.md R76). hostRead is the model's field (log 2). -/
def Obligations.RegisterAccessReachesNamedRegister : Prop :=
  ∀ (s : State) (r : Reg) (off : Nat) (v : Word),
    s.cfg.nsreq ≤ 16 → (∀ slot f, r = .sreq slot f → slot < s.cfg.nsreq) → r.offset = some off →
    s.perform (.read .word (s.cfg.coreBase + off)) = .next { s with hostRead := s.readReg r } ∧
    (r ≠ .cmd → s.perform (.write .word (s.cfg.coreBase + off) v) = .next (s.writeReg r v))

/-- O9. What each register reads as: each field at its bits, every other bit 0, a whole-word register as the word it holds, a slot beyond NSREQ as 0 (R27, R29, R30, R34, R35, R37, R41, R58); and the numbers of the completion codes (60_exceptions.md R240) and of the states (R45, R62, R66). EVQ_COUNT is stated for queues shorter than 2^16 (log 16). -/
def Obligations.RegisterFieldsLieWhereMapped : Prop :=
  ∀ s : State,
    s.readReg .id = 0x41524731#32 ∧ s.readReg .cmd = 0#32 ∧ s.readReg .reserved = 0#32 ∧
    (s.readReg .ctrl).toNat = s.irqEn.toNat ∧
    (s.readReg .status).toNat = s.status.code.toNat + 256 * s.evqOvf.toNat ∧
    (s.evq.length < 2 ^ 16 → (s.readReg .evqCount).toNat = s.evq.length) ∧
    (∀ e q, s.evq = e :: q →
      s.readReg .evh0 = e.w0 ∧ s.readReg .evh1 = e.w1 ∧ s.readReg .evh2 = e.w2) ∧
    (s.evq = [] → s.readReg .evh0 = 0#32 ∧ s.readReg .evh1 = 0#32 ∧ s.readReg .evh2 = 0#32) ∧
    (s.readReg .dtmfState).toNat = symCode s.dtmf.held + 2 ^ 31 * s.dtmf.init.toNat ∧
    (s.readReg .pktState).toNat =
      s.pkt.rx.code.toNat + 256 * s.pkt.esc.toNat + 2 ^ 31 * s.pkt.init.toNat ∧
    (s.readReg .pktHdr).toNat = s.pkt.addr.toNat + 256 * s.pkt.ctrl.toNat ∧
    (s.readReg .pktLen).toNat = s.pkt.declared.toNat + 2 ^ 16 * s.pkt.remaining.toNat ∧
    (s.readReg .pktFcs).toNat = s.pkt.running.toNat + 2 ^ 16 * s.pkt.received.toNat ∧
    (∀ k : Fin 129, s.pi = .pos k → (s.readReg .piCursor).toNat = k.val) ∧
    (s.pi = .sentinelWrong → s.readReg .piCursor = 0xFF#32) ∧
    (s.readReg .emoState).toNat = s.emo.emotion.code.toNat ∧
    (s.readReg .orchState).toNat = s.orch.phase.code.toNat ∧ (s.readReg .orchState).toNat ≤ 5 ∧
    s.readReg .arg0 = s.arg0 ∧ s.readReg .arg1 = s.arg1 ∧ s.readReg .arg2 = s.arg2 ∧ s.readReg .arg3 = s.arg3 ∧
    s.readReg .res0 = s.res0 ∧ s.readReg .res1 = s.res1 ∧
    (∀ slot r, slot < s.cfg.nsreq → s.sreq[slot]? = some r →
      s.readReg (.sreq slot .buf) = r.buf ∧ s.readReg (.sreq slot .bufLen) = r.bufLen ∧
      s.readReg (.sreq slot .theta0) = r.theta0 ∧ s.readReg (.sreq slot .fTone) = r.fTone ∧
      s.readReg (.sreq slot .fSample) = r.fSample ∧ s.readReg (.sreq slot .scale) = r.scale ∧
      s.readReg (.sreq slot .resultLen) = r.resultLen ∧ s.readReg (.sreq slot .phaseErr) = r.phaseErr) ∧
    (∀ slot f, s.cfg.nsreq ≤ slot → s.readReg (.sreq slot f) = 0#32) ∧
    s.readReg .dtmfFs = s.dtmf.fs ∧ s.readReg .dtmfThresh = s.dtmf.thresh ∧ s.readReg .dtmfDwell = s.dtmf.dwell ∧
    s.readReg .pktRxbuf = s.pkt.rxbuf ∧ s.readReg .pktRxcap = s.pkt.rxcap ∧ s.readReg .pktCursor = s.pkt.cursor ∧
    s.readReg .emoTs = s.emo.ts ∧ s.readReg .orchDacbuf = s.orch.dacBuf ∧
    s.readReg .orchDaclen = s.orch.dacLen ∧ s.readReg .orchFs = s.orch.fs ∧
    [Status.okay, .invalid, .undersampled, .tooShort, .wrong, .exhausted, .tooLong, .illegal, .erange,
      .notFound].map Status.code = [0#8, 1#8, 2#8, 3#8, 4#8, 5#8, 6#8, 7#8, 8#8, 9#8] ∧
    symCode none = 16 ∧ (∀ c : Fin 16, symCode (some c) = c.val) ∧
    [RxState.idle, .waitAddr, .waitControl, .waitLenHi, .waitLenLo, .inBody, .waitFcsHi, .waitFcsLo].map
      RxState.code = [0#3, 1#3, 2#3, 3#3, 4#3, 5#3, 6#3, 7#3] ∧
    [Emotion.lonely, .happy, .bored, .unknown].map Emotion.code = [0#2, 1#2, 2#2, 3#2] ∧
    [OrchPhase.idle, .waitingSend, .sending, .waitingStop, .done, .restart].map OrchPhase.code =
      [0#3, 1#3, 2#3, 3#3, 4#3, 5#3]

/-- O10. A HOST write of a read-write register reads back, leaves every other register and BRAM, the event queue and the hidden coefficients alone; CTRL keeps IRQ_EN only and EMO_STATE its low two bits (R27, R29, R37, R61, R62, R67). A CTRL write with SRST = 1 is the soft reset (O14). -/
def Obligations.WrittenRegistersReadBack : Prop :=
  ∀ (s : State) (r : Reg) (v : Word),
    s.sreq.length = s.cfg.nsreq →
    (r = .ctrl → v.getLsbD 1 = false) →
    r ∈ [.ctrl, .arg0, .arg1, .arg2, .arg3, .emoState, .emoTs, .orchDacbuf, .orchDaclen, .orchFs] ∨
      (∃ slot f, r = .sreq slot f ∧ slot < s.cfg.nsreq) →
    (s.writeReg r v).readReg r =
      (if r = .ctrl then v &&& 1#32 else if r = .emoState then v &&& 3#32 else v) ∧
    (∀ r', r' ≠ r → (s.writeReg r v).readReg r' = s.readReg r') ∧
    (s.writeReg r v).bram = s.bram ∧ (s.writeReg r v).evq = s.evq ∧ (s.writeReg r v).dtmf = s.dtmf

/-- O11. A word write to any other aligned offset of the register block, CMD apart, and any write to a reserved range is ignored; a read of an offset that holds no register, of a slot block beyond NSREQ or of a reserved range returns 0 (R27, 20_memory.md R76). That a reserved range admits every width and every alignment, and hostRead, are the model's reading and field (log 6, log 2). -/
def Obligations.OtherRegisterWritesIgnored : Prop :=
  ∀ (s : State) (off : Nat) (v : Word),
    (off < 0x400 → off % 4 = 0 →
      off ∉ [0x004, 0x00C, 0x010, 0x014, 0x018, 0x01C, 0x350, 0x354, 0x364, 0x368, 0x36C] →
      ¬ (0x040 ≤ off ∧ off < 0x040 + 0x20 * min s.cfg.nsreq 16) →
      s.perform (.write .word (s.cfg.coreBase + off) v) = .next s) ∧
    (off < 0x400 → off % 4 = 0 →
      off ∉ [0x000, 0x004, 0x008, 0x00C, 0x010, 0x014, 0x018, 0x01C, 0x020, 0x024, 0x030, 0x034, 0x038, 0x03C,
        0x300, 0x304, 0x308, 0x30C, 0x320, 0x324, 0x328, 0x32C, 0x330, 0x334, 0x338, 0x340, 0x350, 0x354,
        0x360, 0x364, 0x368, 0x36C] →
      ¬ (0x040 ≤ off ∧ off < 0x040 + 0x20 * min s.cfg.nsreq 16) →
      s.perform (.read .word (s.cfg.coreBase + off)) = .next { s with hostRead := 0#32 }) ∧
    (∀ w : Width, (0x400 ≤ off ∧ off + w.bytes ≤ 0x4000) ∨ (0x4000 + s.cfg.bramSize ≤ off ∧ off + w.bytes ≤ 0x8000) →
      s.perform (.write w (s.cfg.coreBase + off) v) = .next s ∧
      s.perform (.read w (s.cfg.coreBase + off)) = .next { s with hostRead := 0#32 })

/-- O12. In the register block every access that is not an aligned word, and in the BRAM window every misaligned access, has no step; every other access there has one (20_memory.md R81). That having no step is the fault accessNotAdmitted (log 5), and that alignment is the window offset's whatever CORE_BASE is (log 6), are the model's readings. -/
def Obligations.UnadmittedAccessIsStuck : Prop :=
  ∀ (s : State) (w : Width) (off : Nat) (v : Word), s.cfg.bramSize ≤ 0x4000 →
    (off < 0x400 →
      ((w ≠ .word ∨ off % 4 ≠ 0) →
        s.perform (.read w (s.cfg.coreBase + off)) = .fault .accessNotAdmitted ∧
        s.perform (.write w (s.cfg.coreBase + off) v) = .fault .accessNotAdmitted) ∧
      (w = .word → off % 4 = 0 →
        (∃ t, s.perform (.read w (s.cfg.coreBase + off)) = .next t) ∧
        (∃ t, s.perform (.write w (s.cfg.coreBase + off) v) = .next t))) ∧
    (0x4000 ≤ off → off < 0x4000 + s.cfg.bramSize →
      (off % w.bytes ≠ 0 →
        s.perform (.read w (s.cfg.coreBase + off)) = .fault .accessNotAdmitted ∧
        s.perform (.write w (s.cfg.coreBase + off) v) = .fault .accessNotAdmitted) ∧
      (off % w.bytes = 0 →
        (∃ t, s.perform (.read w (s.cfg.coreBase + off)) = .next t) ∧
        (∃ t, s.perform (.write w (s.cfg.coreBase + off) v) = .next t)))

/-- O13. BRAM accesses of 8, 16 and 32 bits: little-endian, zero past the end of BRAM on a read, ignored there on a write, every other byte unchanged, and only natural alignment is admitted (20_memory.md R80). The model's readings: a narrow write stores the low-order bytes of its data (log 12), a misaligned access faults (log 5), alignment is the window offset's (log 6); hostRead is its field (log 2). -/
def Obligations.BramAccessIsLittleEndian : Prop :=
  ∀ (s : State) (w : Width) (a : Nat) (v : Word),
    s.bram.wf → s.cfg.bramSize ≤ 0x4000 → a < s.cfg.bramSize →
    (a % w.bytes = 0 →
      (∃ d : Word, s.perform (.read w (s.cfg.coreBase + 0x4000 + a)) = .next { s with hostRead := d } ∧
        d.toNat = (s.readBram a).toNat +
          (if 2 ≤ w.bytes then 2 ^ 8 * (s.readBram (a + 1)).toNat else 0) +
          (if w.bytes = 4 then 2 ^ 16 * (s.readBram (a + 2)).toNat + 2 ^ 24 * (s.readBram (a + 3)).toNat
            else 0)) ∧
      (∃ m : Memory,
        s.perform (.write w (s.cfg.coreBase + 0x4000 + a) v) = .next { s with bram := m } ∧ m.wf ∧
        ∀ x, ({ s with bram := m } : State).readBram x =
          if a ≤ x ∧ x < a + w.bytes ∧ x < s.cfg.bramSize then
            BitVec.ofNat 8 (v.toNat / 2 ^ (8 * (x - a)))
          else s.readBram x)) ∧
    (a % w.bytes ≠ 0 →
      s.perform (.read w (s.cfg.coreBase + 0x4000 + a)) = .fault .accessNotAdmitted ∧
      s.perform (.write w (s.cfg.coreBase + 0x4000 + a) v) = .fault .accessNotAdmitted) ∧
    (∀ x, s.cfg.bramSize ≤ x → s.readBram x = 0#8)

/-- O14. After the soft reset (a CTRL write with bit 1 set, whatever the other bits are) and after the power-on reset every register reads its reset value, the event queue is empty and IRQ is 0; the soft reset leaves BRAM unchanged; State.reset is such a state (70_reset_and_hazards.md R261, R262). The power-on clause is the model's choice: an input of the queue that brings the cells of BRAM with it and leaves hostQueue as it is (log 14, log 1). -/
def Obligations.ResetsGiveResetValues : Prop :=
  (∀ (s : State) (v : Word), v.getLsbD 1 = true →
    ∃ t, s.perform (.write .word (s.cfg.coreBase + 0x004) v) = .next t ∧ t.bram = s.bram ∧
      t.evq = [] ∧ t.irq = false ∧ t.cfg = s.cfg ∧ t.hostQueue = s.hostQueue ∧
      ∀ r : Reg, t.readReg r = resetValue r) ∧
  (∀ (s : State) (cells : List Host.Cell),
    ∃ t, s.perform (.powerOnReset cells) = .next t ∧ t.bram = Memory.ofCells s.cfg.bramSize cells ∧
      t.evq = [] ∧ t.irq = false ∧ t.cfg = s.cfg ∧ t.hostQueue = s.hostQueue ∧
      ∀ r : Reg, t.readReg r = resetValue r) ∧
  State.reset.evq = [] ∧ State.reset.irq = false ∧
  (∀ r : Reg, State.reset.readReg r = resetValue r)

/-- O15. IRQ is IRQ_EN and EVQ_COUNT > 0 (60_exceptions.md R244). -/
def Obligations.IrqFollowsQueue : Prop :=
  ∀ s : State, s.irq = true ↔ s.irqEn = true ∧ 0 < s.evq.length

/-! ### Events and the control commands (10_state.md R36, 45_control.md) -/

/-- O16. The layout of an event record and the fields of each kind; the head of an empty queue reads as three zero words, kind 0 (R36); and the sixteen symbols "123A456B789C*0#D" a record names, with the lookup that inverts them (00_scope.md R21, R22). -/
def Obligations.EventRecordLayout : Prop :=
  (∀ (k : EventKind) (lo hi : Byte) (b : Bool) (w1 w2 : Word),
    (mkEvent k lo hi b w1 w2).w0.toNat =
      k.code.toNat + 2 ^ 8 * lo.toNat + 2 ^ 16 * hi.toNat + 2 ^ 24 * b.toNat ∧
    (mkEvent k lo hi b w1 w2).w1 = w1 ∧ (mkEvent k lo hi b w1 w2).w2 = w2) ∧
  (∀ (c : Fin 16) (dwell : Word),
    (evDtmfDown c).w0.toNat = 1 + 2 ^ 8 * c.val + 2 ^ 16 * (symChar c).toNat ∧
    (evDtmfDown c).w1 = 0#32 ∧ (evDtmfDown c).w2 = 0#32 ∧
    (evDtmfUp c dwell).w0.toNat = 2 + 2 ^ 8 * c.val + 2 ^ 16 * (symChar c).toNat ∧
    (evDtmfUp c dwell).w1 = dwell ∧ (evDtmfUp c dwell).w2 = 0#32) ∧
  (∀ p : PktState,
    (evComplete p).w0.toNat = 3 + 2 ^ 8 * p.addr.toNat + 2 ^ 16 * p.ctrl.toNat +
      2 ^ 24 * (decide (p.received = p.running)).toNat ∧
    (evPartial .pktTooLong p).w0.toNat = 4 + 2 ^ 8 * p.addr.toNat + 2 ^ 16 * p.ctrl.toNat ∧
    (evPartial .pktInterrupted p).w0.toNat = 5 + 2 ^ 8 * p.addr.toNat + 2 ^ 16 * p.ctrl.toNat ∧
    (evComplete p).w1 = p.rxbuf + 5#32 ∧ (evComplete p).w2 = p.cursor - 5#32 ∧
    ∀ k : EventKind, (evPartial k p).w1 = p.rxbuf ∧ (evPartial k p).w2 = p.cursor) ∧
  (∀ buf len : Word, evDacInstall buf len = ⟨6#32, buf, len⟩) ∧
  evDacStart = ⟨7#32, 0#32, 0#32⟩ ∧ evDacStop = ⟨8#32, 0#32, 0#32⟩ ∧
  evAdcStart = ⟨9#32, 0#32, 0#32⟩ ∧ evAdcStop = ⟨10#32, 0#32, 0#32⟩ ∧
  (∀ s : State, s.evq = [] →
    s.readReg .evh0 = 0#32 ∧ s.readReg .evh1 = 0#32 ∧ s.readReg .evh2 = 0#32) ∧
  ([0, 1, 2, 3, 4, 5, 6, 7, 8, 9, 10, 11, 12, 13, 14, 15] : List (Fin 16)).map symChar =
    [0x31#8, 0x32#8, 0x33#8, 0x41#8, 0x34#8, 0x35#8, 0x36#8, 0x42#8,
      0x37#8, 0x38#8, 0x39#8, 0x43#8, 0x2A#8, 0x30#8, 0x23#8, 0x44#8] ∧
  (∀ (ch : Byte) (c : Fin 16), symIndex ch = some c ↔ symChar c = ch)

/-- O17. Emit appends a record while there is room, and otherwise drops it and sets EVQ_OVF; emitting several appends those that fit, in order (R231). -/
def Obligations.EmitAppendsOrDrops : Prop :=
  (∀ (s : State) (e : Event),
    (s.evq.length < s.cfg.evqDepth → s.emit e = { s with evq := s.evq ++ [e] }) ∧
    (s.cfg.evqDepth ≤ s.evq.length → s.emit e = { s with evqOvf := true })) ∧
  (∀ (s : State) (es : List Event),
    s.emitAll es = { s with evq := evqAfter s es, evqOvf := ovfAfter s es })

/-- O18. NOP writes STATUS.CODE only; EVT_POP removes the head record, or is INVALID on an empty queue; EVT_CLEAR empties the queue and clears EVQ_OVF (R230, R233, R234). -/
def Obligations.ControlCommands : Prop :=
  ∀ s : State,
    exec .nop s = .next { s with status := .okay } ∧
    (s.evq = [] → exec .evtPop s = .next { s with status := .invalid }) ∧
    (∀ e q, s.evq = e :: q → exec .evtPop s = .next { s with evq := q, status := .okay }) ∧
    exec .evtClear s = .next { s with evq := [], evqOvf := false, status := .okay }

/-- O19. A command other than EVT_POP and EVT_CLEAR appends at most as many records as R232 allows, those that fit in order, and sets EVQ_OVF exactly when one did not fit (R231, R232, 10_state.md R30). -/
def Obligations.EventsOnlyAppend : Prop :=
  ∀ (i : Instr) (s t : State), i ≠ .evtPop → i ≠ .evtClear → exec i s = .next t →
    ∃ es : List Event, es.length ≤ maxEvents i ∧ (∀ e ∈ es, e.Ok) ∧
      t.evq = evqAfter s es ∧ t.evqOvf = ovfAfter s es ∧
      (i = .dtmfBlock → s.arg1 = 0#32 → es.length ≤ 2)

/-! ### Every command -/

/-- O20. The statuses each command may end with: none but those of R240, and NOT_FOUND never on a legal machine (R30, R240, 44_orchestrator.md R214). -/
def Obligations.StatusesPerCommand : Prop :=
  ∀ (i : Instr) (s t : State), exec i s = .next t →
    t.status ∈ mayEnd i ∧ (s.cfg.Legal → t.status ≠ .notFound)

/-- O21. A failure changes nothing but STATUS.CODE, SINE_POPULATE alone excepted, which changes its slot as well (60_exceptions.md R242, 40_sine.md R125). -/
def Obligations.FailureChangesOnlyStatus : Prop :=
  ∀ (i : Instr) (s t : State), exec i s = .next t → t.status.isFailure = true →
    ((∀ slot, i ≠ .sinePopulate slot) → t = { s with status := t.status }) ∧
    (∀ slot, i = .sinePopulate slot →
      t = { s with sreq := t.sreq, status := .invalid } ∧ ∀ k, k ≠ slot → t.sreq[k]? = s.sreq[k]?)

/-- O22. No command halts the CORE: every command, in every state, completes (60_exceptions.md R246). -/
def Obligations.CommandsAlwaysComplete : Prop :=
  ∀ (i : Instr) (s : State), ∃ t, exec i s = .next t

/-- O23. No command writes ARG0..ARG3 (10_state.md R32), RES1 (R33) or CTRL (R29), nor the model's own fields: the parameters cfg (log 10), hostQueue (log 1) and hostRead (log 2). -/
def Obligations.OperandsAndHostSideUntouched : Prop :=
  ∀ (i : Instr) (s t : State), exec i s = .next t →
    t.arg0 = s.arg0 ∧ t.arg1 = s.arg1 ∧ t.arg2 = s.arg2 ∧ t.arg3 = s.arg3 ∧ t.irqEn = s.irqEn ∧
    t.res1 = s.res1 ∧ t.cfg = s.cfg ∧ t.hostQueue = s.hostQueue ∧ t.hostRead = s.hostRead

/-- O24. A unit's state is written only by that unit's commands, the orchestrator's use of the Pi cursor and the demodulator's of the orchestrator excepted; RES0 only by the commands that name it; a sine command writes no slot but its own (10_state.md R33, R70). -/
def Obligations.UnitsOwnTheirState : Prop :=
  ∀ (i : Instr) (s t : State), exec i s = .next t →
    (t.sreq ≠ s.sreq → ∃ slot, i = .sinePopulate slot ∨ i = .sineGen slot ∨ i = .sineFill slot) ∧
    (∀ slot k, i = .sinePopulate slot ∨ i = .sineGen slot ∨ i = .sineFill slot → k ≠ slot →
      t.sreq[k]? = s.sreq[k]?) ∧
    (t.dtmf ≠ s.dtmf → i = .dtmfInit ∨ i = .dtmfBlock) ∧
    (t.pkt ≠ s.pkt → i = .pktRxinit ∨ i = .pktRxbyte ∨ i = .pktRxstream) ∧
    (t.pi ≠ s.pi → i = .piRx ∨ i = .piReset ∨ i = .orchTick ∨ i = .dtmfBlock) ∧
    (t.emo ≠ s.emo → i = .emoInit ∨ i = .emoUpdate) ∧
    (t.orch.phase ≠ s.orch.phase → i = .orchTick ∨ i = .dtmfBlock) ∧
    (t.orch.dacBuf = s.orch.dacBuf ∧ t.orch.dacLen = s.orch.dacLen ∧ t.orch.fs = s.orch.fs) ∧
    (t.res0 ≠ s.res0 → i = .sineSample ∨ i = .dtmfBlock ∨ i = .pktFcs ∨ i = .pktFrame ∨
      i = .pktRxstream ∨ i = .piNext ∨ i = .piRx ∨ i = .emoUpdate)

/-- O25. The commands that store nothing leave every byte of BRAM (20_memory.md R77, R97): all but SINE_GENERATE, SINE_GENERATE_FILL, SINE_MIX, PKT_FRAME, PKT_RX_BYTE, PKT_RX_STREAM and ORCH_TICK. -/
def Obligations.NonStoringCommandsKeepBram : Prop :=
  ∀ (i : Instr) (s t : State), exec i s = .next t →
    ((∃ slot, i = .sinePopulate slot) ∨
      i ∈ [.nop, .sineSample, .dtmfInit, .dtmfBlock, .pktFcs, .pktRxinit, .piNext, .piRx, .piReset,
        .emoInit, .emoUpdate, .evtPop, .evtClear]) →
    ∀ x, t.readBram x = s.readBram x

/-! ### The sine unit (40_sine.md) -/

/-- O26. SINE_POPULATE: INVALID on a null slot with nothing written, else the slot's eight fields, INVALID when an operand is 0 (R125). -/
def Obligations.PopulateFillsSlot : Prop :=
  ∀ (s : State) (slot : Nat), s.sreq.length = s.cfg.nsreq →
    (s.cfg.nsreq ≤ slot → exec (.sinePopulate slot) s = .next { s with status := .invalid }) ∧
    (slot < s.cfg.nsreq → exec (.sinePopulate slot) s = .next { s with
      sreq := s.sreq.set slot
        { buf := s.arg0, bufLen := s.arg1, theta0 := 0#32, fTone := s.arg2, fSample := s.arg3,
          scale := 1#32, resultLen := 0#32, phaseErr := 0#32 }
      status := if s.arg0 = 0#32 ∨ s.arg1 = 0#32 ∨ s.arg2 = 0#32 ∨ s.arg3 = 0#32 then .invalid else .okay })

/-- O27. The checks of SINE_GENERATE and SINE_GENERATE_FILL in their order, each leaving everything but STATUS.CODE as it was (R126). -/
def Obligations.SineCheckOrder : Prop :=
  ∀ (i : Instr) (s : State) (slot : Nat), i = .sineGen slot ∨ i = .sineFill slot →
    s.sreq.length = s.cfg.nsreq →
    (s.cfg.nsreq ≤ slot → exec i s = .next { s with status := .invalid }) ∧
    (∀ r, slot < s.cfg.nsreq → s.sreq[slot]? = some r →
      (r.buf = 0#32 ∨ r.bufLen = 0#32 ∨ r.fTone = 0#32 ∨ r.fSample = 0#32 →
        exec i s = .next { s with status := .invalid }) ∧
      (r.buf ≠ 0#32 → r.bufLen ≠ 0#32 → r.fTone ≠ 0#32 → r.fSample ≠ 0#32 →
        (r.scale = 0#32 → exec i s = .next { s with status := .invalid }) ∧
        (r.scale ≠ 0#32 →
          (2 * r.fTone.toNat ≥ r.fSample.toNat → exec i s = .next { s with status := .undersampled }) ∧
          (2 * r.fTone.toNat < r.fSample.toNat → s.cfg.bramSize < r.buf.toNat + r.bufLen.toNat →
            exec i s = .next { s with status := .erange }))))

/-- O28. SINE_GENERATE on a valid request: rl samples at BUF, RESULT_LEN, PHASE_ERR and the status (R127, R128). -/
def Obligations.GenerateResult : Prop :=
  ∀ (s : State) (slot : Nat) (r : SineReq) (rl : Nat),
    s.bram.wf → slot < s.cfg.nsreq → s.sreq[slot]? = some r →
    r.buf ≠ 0#32 → r.bufLen ≠ 0#32 → r.fTone ≠ 0#32 → r.fSample ≠ 0#32 → r.scale ≠ 0#32 →
    2 * r.fTone.toNat < r.fSample.toNat → r.buf.toNat + r.bufLen.toNat ≤ s.cfg.bramSize →
    rl = min (r.fSample.toNat / r.fTone.toNat) r.bufLen.toNat →
    ∃ (m : Memory) (q : SineReq),
      exec (.sineGen slot) s = .next { s with
        bram := m, sreq := s.sreq.set slot q
        status := if r.fSample.toNat > r.bufLen.toNat * r.fTone.toNat then .tooShort else .okay } ∧
      q = { r with resultLen := q.resultLen, phaseErr := q.phaseErr } ∧
      q.resultLen.toNat = rl ∧ 1 ≤ rl ∧
      q.phaseErr.toNat = 2 ^ 32 * (r.fSample.toNat - rl * r.fTone.toNat) / r.fSample.toNat ∧
      rl * r.fTone.toNat ≤ r.fSample.toNat ∧ m.wf ∧
      ∀ x, ({ s with bram := m } : State).readBram x =
        if r.buf.toNat ≤ x ∧ x < r.buf.toNat + rl then
          sineSample s.cfg
            (r.theta0.toNat * r.fSample.toNat + (x - r.buf.toNat) * r.fTone.toNat * 2 ^ 32)
            (r.fSample.toNat * 2 ^ 22) r.scale.toNat
        else s.readBram x

/-- O29. SINE_GENERATE_FILL on a valid request: BUFLEN samples at BUF, RESULT_LEN, PHASE_ERR and the status (R129, R130). -/
def Obligations.FillResult : Prop :=
  ∀ (s : State) (slot : Nat) (r : SineReq) (k c : Nat),
    s.bram.wf → slot < s.cfg.nsreq → s.sreq[slot]? = some r →
    r.buf ≠ 0#32 → r.bufLen ≠ 0#32 → r.fTone ≠ 0#32 → r.fSample ≠ 0#32 → r.scale ≠ 0#32 →
    2 * r.fTone.toNat < r.fSample.toNat → r.buf.toNat + r.bufLen.toNat ≤ s.cfg.bramSize →
    k = r.bufLen.toNat * r.fTone.toNat → c = (k + r.fSample.toNat - 1) / r.fSample.toNat →
    ∃ (m : Memory) (q : SineReq),
      exec (.sineFill slot) s = .next { s with
        bram := m, sreq := s.sreq.set slot q
        status := if r.fSample.toNat > k then .tooShort else .okay } ∧
      q = { r with resultLen := r.bufLen, phaseErr := q.phaseErr } ∧
      q.phaseErr.toNat = 2 ^ 32 * (c * r.fSample.toNat - k) / r.fSample.toNat ∧
      k ≤ c * r.fSample.toNat ∧ m.wf ∧
      ∀ x, ({ s with bram := m } : State).readBram x =
        if r.buf.toNat ≤ x ∧ x < r.buf.toNat + r.bufLen.toNat then
          sineSample s.cfg
            (r.theta0.toNat * r.fSample.toNat + (x - r.buf.toNat) * r.fTone.toNat * 2 ^ 32)
            (r.fSample.toNat * 2 ^ 22) r.scale.toNat
        else s.readBram x

/-- O30. On a buffer no longer than one wave SINE_GENERATE_FILL does what SINE_GENERATE does, and PE_fill is 0 on a whole number of waves (corner cases of R129 and R130). -/
def Obligations.FillMatchesGenerate : Prop :=
  (∀ (s : State) (slot : Nat) (r : SineReq), s.sreq[slot]? = some r →
    r.bufLen.toNat * r.fTone.toNat ≤ r.fSample.toNat →
    exec (.sineFill slot) s = exec (.sineGen slot) s) ∧
  (∀ r : SineReq, r.fSample ≠ 0#32 → r.bufLen.toNat * r.fTone.toNat % r.fSample.toNat = 0 →
    phaseErrFill r = 0)

/-- O31. SS(num, den, scale): the rounded position, the mirrored table entry, the sign, the division toward zero and the bias; always in 0..254, and exact at the quarter positions (R19, R123, R124). -/
def Obligations.SampleIsBiasedQuotient : Prop :=
  ∀ (c : Config) (num den scale p off idx : Nat), c.Legal → 0 < den → 1 ≤ scale →
    p = (if 2 * (num % den) > den then num / den + 1 else num / den) % 1024 →
    off = p % 256 → idx = (if p / 256 % 2 = 1 then 255 - off else off) →
    ∃ m : Byte, c.sineRom[idx]? = some m ∧
      ((sineSample c num den scale).toNat : Int) =
        Int.tdiv (if 2 ≤ p / 256 then -(m.toNat : Int) else m.toNat) scale + 127 ∧
      (sineSample c num den scale).toNat ≤ 254 ∧
      (scale = 1 → (p = 0 ∨ p = 512 → sineSample c num den scale = 127#8) ∧
        (p = 256 → sineSample c num den scale = 254#8) ∧
        (p = 768 → sineSample c num den scale = 0#8))

/-- O32. SINE_SAMPLE: INVALID for scale 0, else the sample of the phase word in RES0; a scale of 128 or more gives 127 for every angle (R131). -/
def Obligations.SineSampleResult : Prop :=
  ∀ s : State,
    (s.arg1 = 0#32 → exec .sineSample s = .next { s with status := .invalid }) ∧
    (s.arg1 ≠ 0#32 → exec .sineSample s = .next { s with
      res0 := (sineSample s.cfg s.arg0.toNat (2 ^ 22) s.arg1.toNat).setWidth 32, status := .okay }) ∧
    (s.cfg.Legal → 128 ≤ s.arg1.toNat →
      exec .sineSample s = .next { s with res0 := 127#32, status := .okay }) ∧
    (s.cfg.Legal → s.arg0 = 4293289575#32 ∨ s.arg0 = 0x00200000#32 → s.arg1 ≠ 0#32 →
      exec .sineSample s = .next { s with res0 := 127#32, status := .okay }) ∧
    (s.cfg.Legal → s.arg0 = 0x40000000#32 → s.arg1 = 1#32 →
      exec .sineSample s = .next { s with res0 := 254#32, status := .okay })

/-- O33. SINE_MIX: nothing for length 0, then NULL, then the range, else the pairwise averages of the bytes the command started from (R132). -/
def Obligations.MixAveragesBytes : Prop :=
  ∀ (s : State) (n : Nat), s.bram.wf → n = s.arg3.toNat →
    (n = 0 → exec .sineMix s = .next { s with status := .okay }) ∧
    (n ≠ 0 → s.arg0 = 0#32 ∨ s.arg1 = 0#32 ∨ s.arg2 = 0#32 →
      exec .sineMix s = .next { s with status := .invalid }) ∧
    (n ≠ 0 → s.arg0 ≠ 0#32 → s.arg1 ≠ 0#32 → s.arg2 ≠ 0#32 →
      (s.cfg.bramSize < s.arg0.toNat + n ∨ s.cfg.bramSize < s.arg1.toNat + n ∨
          s.cfg.bramSize < s.arg2.toNat + n →
        exec .sineMix s = .next { s with status := .erange }) ∧
      (s.arg0.toNat + n ≤ s.cfg.bramSize → s.arg1.toNat + n ≤ s.cfg.bramSize →
        s.arg2.toNat + n ≤ s.cfg.bramSize →
        ∃ m : Memory, exec .sineMix s = .next { s with bram := m, status := .okay } ∧ m.wf ∧
          ∀ x, ({ s with bram := m } : State).readBram x =
            if s.arg0.toNat ≤ x ∧ x < s.arg0.toNat + n then
              BitVec.ofNat 8 (((s.readBram (s.arg1.toNat + (x - s.arg0.toNat))).toNat +
                (s.readBram (s.arg2.toNat + (x - s.arg0.toNat))).toNat) / 2)
            else s.readBram x))

/-! ### The demodulator (41_dtmf.md) -/

/-- O34. DTMF_INIT: INVALID for Fs = 0, else the configuration, the coefficients of the eight tones and a cleared state (R141). The coefficients are those of the machine's GNUM (log 8). In binary32 they are the vectors of L2-C1 at 8 kHz, exact at the quarter turns with +0 for every zero, and have the symmetries of the circle: the turn's period, the reflection, and the sine as the cosine of the rest of the quarter (R43, R153). How the model evaluates them is log 9. -/
def Obligations.DtmfInitConfigures : Prop :=
  ∀ s : State,
    (s.arg0 = 0#32 → exec .dtmfInit s = .next { s with status := .invalid }) ∧
    (s.arg0 ≠ 0#32 → exec .dtmfInit s = .next { s with
      dtmf :=
        { fs := s.arg0, thresh := s.arg1, held := none, dwell := 0#32, init := true
          cosw := [697, 770, 852, 941, 1209, 1336, 1477, 1633].map (fun f => (gnumOf s.cfg).cosTurn f s.arg0.toNat)
          sinw := [697, 770, 852, 941, 1209, 1336, 1477, 1633].map (fun f => (gnumOf s.cfg).sinTurn f s.arg0.toNat) }
      status := .okay }) ∧
    [697, 770, 852, 941, 1209, 1336, 1477, 1633].map (fun f => binary32.cosTurn f 8000) =
      [0x3F5A9727#32, 0x3F529892#32, 0x3F48CABC#32, 0x3F3D35CF#32,
        0x3F15015C#32, 0x3EFF121E#32, 0x3ECC7241#32, 0x3E918B5C#32] ∧
    [697, 770, 852, 941, 1209, 1336, 1477, 1633].map (fun f => binary32.sinTurn f 8000) =
      [0x3F053EB6#32, 0x3F118D45#32, 0x3F1ECDBC#32, 0x3F2C709B#32,
        0x3F502AB3#32, 0x3F5DF858#32, 0x3F6AB479#32, 0x3F757056#32] ∧
    ∀ f fs : Nat, 0 < fs →
      (f = 0 → binary32.cosTurn f fs = 0x3F800000#32 ∧ binary32.sinTurn f fs = 0#32) ∧
      (4 * f = fs → binary32.cosTurn f fs = 0#32 ∧ binary32.sinTurn f fs = 0x3F800000#32) ∧
      (2 * f = fs → binary32.cosTurn f fs = 0xBF800000#32 ∧ binary32.sinTurn f fs = 0#32) ∧
      (4 * f = 3 * fs → binary32.cosTurn f fs = 0#32 ∧ binary32.sinTurn f fs = 0xBF800000#32) ∧
      binary32.cosTurn (f + fs) fs = binary32.cosTurn f fs ∧
      binary32.sinTurn (f + fs) fs = binary32.sinTurn f fs ∧
      (f ≤ fs → binary32.cosTurn (fs - f) fs = binary32.cosTurn f fs ∧
        binary32.sinTurn (fs - f) fs =
          if binary32.sinTurn f fs = 0#32 then 0#32 else binary32.sinTurn f fs ^^^ 0x80000000#32) ∧
      (4 * f ≤ fs → binary32.sinTurn f fs = binary32.cosTurn (fs - 4 * f) (4 * fs))

/-- O35. The checks of the demodulator's and the packet unit's commands in their order (60_exceptions.md R243); a later check is reported only when the earlier ones passed. -/
def Obligations.BlockAndPacketCheckOrder : Prop :=
  ∀ s : State,
    (s.dtmf.init = false → exec .dtmfBlock s = .next { s with status := .invalid }) ∧
    (s.dtmf.init = true → s.arg1 ≠ 0#32 →
      (s.arg0 = 0#32 → exec .dtmfBlock s = .next { s with status := .invalid }) ∧
      (s.arg0 ≠ 0#32 → s.cfg.bramSize < s.arg0.toNat + s.arg1.toNat →
        exec .dtmfBlock s = .next { s with status := .erange })) ∧
    (s.arg1 ≠ 0#32 →
      (s.arg0 = 0#32 → exec .pktFcs s = .next { s with status := .invalid }) ∧
      (s.arg0 ≠ 0#32 → s.cfg.bramSize < s.arg0.toNat + s.arg1.toNat →
        exec .pktFcs s = .next { s with status := .erange })) ∧
    (s.arg0 = 0#32 → exec .pktFrame s = .next { s with status := .invalid }) ∧
    (s.arg0 ≠ 0#32 → s.arg2 ≠ 0#32 →
      (s.arg1 = 0#32 → exec .pktFrame s = .next { s with status := .invalid }) ∧
      (s.arg1 ≠ 0#32 → s.cfg.bramSize < s.arg1.toNat + s.arg2.toNat →
        exec .pktFrame s = .next { s with status := .erange })) ∧
    (s.arg0 = 0#32 ∨ s.arg1.toNat < 5 → exec .pktRxinit s = .next { s with status := .invalid }) ∧
    (s.arg0 ≠ 0#32 → 5 ≤ s.arg1.toNat → s.cfg.bramSize < s.arg0.toNat + s.arg1.toNat →
      exec .pktRxinit s = .next { s with status := .erange }) ∧
    (s.pkt.init = false → exec .pktRxbyte s = .next { s with status := .invalid } ∧
      exec .pktRxstream s = .next { s with status := .invalid }) ∧
    (s.pkt.init = true → s.arg1 = 0#32 →
      exec .pktRxstream s = .next { s with res0 := 0#32, status := .okay }) ∧
    (s.pkt.init = true → s.arg1 ≠ 0#32 →
      (s.arg0 = 0#32 → exec .pktRxstream s = .next { s with status := .invalid }) ∧
      (s.arg0 ≠ 0#32 → s.cfg.bramSize < s.arg0.toNat + s.arg1.toNat →
        exec .pktRxstream s = .next { s with status := .erange }))

/-- O36. DTMF_BLOCK on a block whose symbol is the held one: the dwell runs on, saturating, RES0 is the code, and nothing is emitted (R142, R148). -/
def Obligations.DtmfBlockSameSymbol : Prop :=
  ∀ (s : State) (n : Nat) (new : Option (Fin 16)),
    s.dtmf.init = true → n = s.arg1.toNat → n ≠ 0 → s.arg0 ≠ 0#32 →
    s.arg0.toNat + n ≤ s.cfg.bramSize →
    new = classify (gnumOf s.cfg) (magnitudes (gnumOf s.cfg) s.cfg.adcBias s.dtmf
      ((List.range n).map (fun i => s.readBram (s.arg0.toNat + i)))) s.dtmf.thresh →
    new = s.dtmf.held →
    exec .dtmfBlock s = .next { s with
      dtmf := { s.dtmf with dwell := BitVec.ofNat 32 (min (s.dtmf.dwell.toNat + n) (2 ^ 32 - 1)) }
      res0 := BitVec.ofNat 32 (match new with | some c => c.val | none => 16)
      status := .okay }

/-- O37. DTMF_BLOCK on a block with a new symbol: DTMF_UP of the held one and the orchestrator's answer, then HELD and DTMF_DWELL, then DTMF_DOWN of the new one and the orchestrator's answer, in that order (R142, R148, R150; 44_orchestrator.md R218, R219). -/
def Obligations.DtmfBlockNewSymbol : Prop :=
  ∀ (s : State) (n : Nat) (new : Option (Fin 16)) (up down : List Event)
    (cursor : PiCursor) (phase phase' : OrchPhase),
    s.dtmf.init = true → n = s.arg1.toNat → n ≠ 0 → s.arg0 ≠ 0#32 →
    s.arg0.toNat + n ≤ s.cfg.bramSize →
    new = classify (gnumOf s.cfg) (magnitudes (gnumOf s.cfg) s.cfg.adcBias s.dtmf
      ((List.range n).map (fun i => s.readBram (s.arg0.toNat + i)))) s.dtmf.thresh →
    new ≠ s.dtmf.held →
    up = (match s.dtmf.held with
      | none => []
      | some c => evDtmfUp c s.dtmf.dwell :: (if s.orch.phase = .waitingStop then [evAdcStop] else [])) →
    (cursor, phase) = (match s.dtmf.held with
      | none => (s.pi, s.orch.phase)
      | some c =>
        if s.orch.phase = .waitingStop then
          ((piRx s.cfg (symChar c) s.pi).1,
            if (piRx s.cfg (symChar c) s.pi).2 = .okay then .done else .restart)
        else (s.pi, s.orch.phase)) →
    down = (match new with
      | none => []
      | some c => evDtmfDown c :: (if phase = .sending then [evDacStop] else [])) →
    phase' = (if new ≠ none ∧ phase = .sending then .waitingStop else phase) →
    exec .dtmfBlock s = .next { s with
      evq := evqAfter s (up ++ down), evqOvf := ovfAfter s (up ++ down)
      pi := cursor, orch := { s.orch with phase := phase' }
      dtmf := { s.dtmf with held := new, dwell := BitVec.ofNat 32 n }
      res0 := BitVec.ofNat 32 (match new with | some c => c.val | none => 16)
      status := .okay }

/-- O38. DTMF_BLOCK with N = 0, the flush: with NONE held only RES0 and STATUS.CODE change; else DTMF_UP with the dwell, the orchestrator's answer, and NONE held (R142, R149; 44_orchestrator.md R219). ARG0 is ignored. -/
def Obligations.DtmfFlushResult : Prop :=
  ∀ s : State, s.dtmf.init = true → s.arg1 = 0#32 →
    (s.dtmf.held = none → exec .dtmfBlock s = .next { s with res0 := 16#32, status := .okay }) ∧
    (∀ c, s.dtmf.held = some c → s.orch.phase ≠ .waitingStop →
      exec .dtmfBlock s = .next { s with
        evq := evqAfter s [evDtmfUp c s.dtmf.dwell], evqOvf := ovfAfter s [evDtmfUp c s.dtmf.dwell]
        dtmf := { s.dtmf with held := none, dwell := 0#32 }, res0 := 16#32, status := .okay }) ∧
    (∀ c, s.dtmf.held = some c → s.orch.phase = .waitingStop →
      exec .dtmfBlock s = .next { s with
        evq := evqAfter s [evDtmfUp c s.dtmf.dwell, evAdcStop]
        evqOvf := ovfAfter s [evDtmfUp c s.dtmf.dwell, evAdcStop]
        pi := (piRx s.cfg (symChar c) s.pi).1
        orch := { s.orch with phase :=
          if (piRx s.cfg (symChar c) s.pi).2 = .okay then .done else .restart }
        dtmf := { s.dtmf with held := none, dwell := 0#32 }, res0 := 16#32, status := .okay })

/-- O39. Goertzel(S, c, s): the recurrence from z1 = z2 = 0 over the samples in order, evaluated in the order R144 fixes, and the division by RN_G(N/2) (R143, R144, R145). -/
def Obligations.GoertzelFollowsRecurrence : Prop :=
  ∀ (G : Gnum) (adcBias : Nat) (block : List Byte) (c s : Word),
    ∃ z : Nat → Word, z 0 = G.zero ∧ z 1 = G.zero ∧
      (∀ (i : Nat) (v : Byte), block[i]? = some v →
        z (i + 2) = G.sub (G.add (G.ofRat ((v.toNat : Int) - adcBias) 127)
          (G.mul (G.mul (G.ofRat 2 1) c) (z (i + 1)))) (z i)) ∧
      goertzel G (block.map (normSample G adcBias)) c s =
        G.div
          (G.add
            (G.mul (G.sub (G.mul (z (block.length + 1)) c) (z block.length))
              (G.sub (G.mul (z (block.length + 1)) c) (z block.length)))
            (G.mul (G.mul (z (block.length + 1)) s) (G.mul (z (block.length + 1)) s)))
          (G.ofRat block.length 2)

/-- O40. In any GNUM an initialised demodulator reports NONE for a block all of whose samples equal ADC_BIAS, whatever the threshold, when its square is neither 0 nor a NaN (R154). What a GNUM is, R18's rounding and what R154 takes for granted of a format, is the model's reading (`gnumOf_lawful`; log 8). -/
def Obligations.SilentBlockIsNone : Prop :=
  ∀ s : State, s.dtmf.Inv s.cfg → s.dtmf.init = true → s.arg1 ≠ 0#32 → s.arg0 ≠ 0#32 →
    s.arg0.toNat + s.arg1.toNat ≤ s.cfg.bramSize →
    (∀ i, i < s.arg1.toNat → (s.readBram (s.arg0.toNat + i)).toNat = s.cfg.adcBias) →
    (gnumOf s.cfg).datum ((gnumOf s.cfg).mul s.dtmf.thresh s.dtmf.thresh) ≠ .nan →
    (gnumOf s.cfg).datum ((gnumOf s.cfg).mul s.dtmf.thresh s.dtmf.thresh) ≠ .fin 0 →
    ∃ t, exec .dtmfBlock s = .next t ∧ t.res0 = 16#32 ∧ t.dtmf.held = none ∧ t.status = .okay

/-- O41. The scan for the best row and column: it replaces the best only on a strictly greater magnitude; so, when no magnitude is a NaN, the best is a largest one, and the first of them (R146). -/
def Obligations.BestIsFirstMaximum : Prop :=
  (∀ (G : Gnum) (mag : List Word) (k b1 b2 b3 : Nat),
    b1 = (if G.lt (mag.getD k G.zero) (mag.getD (k + 1) G.zero) then k + 1 else k) →
    b2 = (if G.lt (mag.getD b1 G.zero) (mag.getD (k + 2) G.zero) then k + 2 else b1) →
    b3 = (if G.lt (mag.getD b2 G.zero) (mag.getD (k + 3) G.zero) then k + 3 else b2) →
    bestOf G mag k = b3) ∧
  (∀ (mag : List Word) (k : Nat), (∀ j, F32.ofBits (mag.getD j 0#32) ≠ .nan) →
    k ≤ bestOf binary32 mag k ∧ bestOf binary32 mag k ≤ k + 3 ∧
    ∀ j, k ≤ j → j ≤ k + 3 →
      binary32.lt (mag.getD (bestOf binary32 mag k) 0#32) (mag.getD j 0#32) = false ∧
      (j < bestOf binary32 mag k →
        binary32.lt (mag.getD j 0#32) (mag.getD (bestOf binary32 mag k) 0#32) = true))

/-- O42. The threshold test: NONE when the best row or the best column is below the squared threshold, else the symbol of the two, in every GNUM; in the default one a magnitude equal to it passes, a NaN threshold never gives NONE, and a threshold's sign does not matter (R147). -/
def Obligations.ClassifyAgainstThreshold : Prop :=
  (∀ (G : Gnum) (mag : List Word) (th : Word) (br bc : Nat), br = bestOf G mag 0 → bc = bestOf G mag 4 →
    (G.lt (mag.getD br G.zero) (G.mul th th) = true ∨ G.lt (mag.getD bc G.zero) (G.mul th th) = true →
      classify G mag th = none) ∧
    (G.lt (mag.getD br G.zero) (G.mul th th) = false → G.lt (mag.getD bc G.zero) (G.mul th th) = false →
      ∃ c : Fin 16, classify G mag th = some c ∧ c.val = 4 * br + (bc - 4))) ∧
  (∀ (mag : List Word) (th : Word) (br bc : Nat), br = bestOf binary32 mag 0 → bc = bestOf binary32 mag 4 →
    (mag.getD br 0#32 = binary32.mul th th → mag.getD bc 0#32 = binary32.mul th th →
      classify binary32 mag th ≠ none) ∧
    (F32.ofBits th = .nan → classify binary32 mag th ≠ none) ∧
    classify binary32 mag (th ^^^ 0x80000000#32) = classify binary32 mag th)

/-- O43. The arithmetic of the default GNUM is correctly rounded binary32: every operation on finite numbers with an exact result is that result rounded once, to a nearest value, a tie to the even pattern, with subnormals kept and overflow to infinity exactly from half an ulp past the largest finite value; an exact zero is a zero, negative only as a sum of negatives or by the sign rule of products and quotients, +0 as a converted rational (R18, R153; that GNUM is binary32 is the spec's default, log 8). `f32Units q` is the value of the pattern q in units of 2^-149. -/
def Obligations.Binary32RoundsToNearest : Prop :=
  (∀ num den p : Nat, 0 < num → 0 < den → p = roundMag num den →
    p ≤ 0x7F800000 ∧
    (p = 0x7F800000 ↔ den * ((2 ^ 25 - 1) * 2 ^ 253) ≤ 2 * (num * 2 ^ 149)) ∧
    (p < 0x7F800000 → ∀ q, q < 0x7F800000 →
      ((f32Units p * den : Nat) - (num * 2 ^ 149 : Nat) : Int).natAbs ≤
        ((f32Units q * den : Nat) - (num * 2 ^ 149 : Nat) : Int).natAbs ∧
      (q ≠ p → ((f32Units p * den : Nat) - (num * 2 ^ 149 : Nat) : Int).natAbs =
        ((f32Units q * den : Nat) - (num * 2 ^ 149 : Nat) : Int).natAbs → p % 2 = 0))) ∧
  (∀ (x y : Word) (a b : Bool) (m n : Nat), F32.ofBits x = .fin a m → F32.ofBits y = .fin b n →
    (m * n ≠ 0 → binary32.mul x y = signed (a ^^ b) (roundMag (m * n) (2 ^ 298))) ∧
    (m * n = 0 → binary32.mul x y = signed (a ^^ b) 0) ∧
    (m ≠ 0 → n ≠ 0 → binary32.div x y = signed (a ^^ b) (roundMag m n)) ∧
    (m = 0 → n ≠ 0 → binary32.div x y = signed (a ^^ b) 0) ∧
    (∀ k : Int, k = (if a then -(m : Int) else m) + (if b then -(n : Int) else n) → k ≠ 0 →
      binary32.add x y = signed (decide (k < 0)) (roundMag k.natAbs (2 ^ 149))) ∧
    ((if a then -(m : Int) else m) + (if b then -(n : Int) else n) = 0 →
      binary32.add x y = if a = true ∧ b = true then 0x80000000#32 else 0#32) ∧
    ((if a then -(m : Int) else m) - (if b then -(n : Int) else n) = 0 →
      binary32.sub x y = if a = true ∧ b = false then 0x80000000#32 else 0#32) ∧
    (∀ k : Int, k = (if a then -(m : Int) else m) - (if b then -(n : Int) else n) → k ≠ 0 →
      binary32.sub x y = signed (decide (k < 0)) (roundMag k.natAbs (2 ^ 149)))) ∧
  (∀ (k : Int) (d : Nat), 0 < d → k ≠ 0 →
    binary32.ofRat k d = signed (decide (k < 0)) (roundMag k.natAbs d)) ∧
  (∀ d : Nat, binary32.ofRat 0 d = 0#32)

/-! ### The packet unit (42_packet.md) -/

/-- O44. PKT_FCS: the initial value for length 0, else the FCS of the bytes, from ARG2[15:0]; FcsStep is eight shift steps from the least significant bit, and Fcs chains (R161, R162). The checks are O35's. -/
def Obligations.PktFcsResult : Prop :=
  (∀ s : State,
    (s.arg1 = 0#32 → exec .pktFcs s = .next { s with
      res0 := s.arg2 &&& 0xFFFF#32, status := .okay }) ∧
    (s.arg1 ≠ 0#32 → s.arg0 ≠ 0#32 → s.arg0.toNat + s.arg1.toNat ≤ s.cfg.bramSize →
      ∃ crc : BitVec 16, exec .pktFcs s = .next { s with res0 := crc.setWidth 32, status := .okay } ∧
        crc = fcs (s.arg2.setWidth 16)
          ((List.range s.arg1.toNat).map (fun i => s.readBram (s.arg0.toNat + i))))) ∧
  (∀ (crc : BitVec 16) (x : Byte),
    fcsStep crc x = (Nat.iterate (fun z : BitVec 16 × Byte =>
      (if (z.1 &&& 1#16) ^^^ (z.2.setWidth 16 &&& 1#16) = 1#16 then (z.1 >>> 1) ^^^ 0x8408#16
        else z.1 >>> 1, z.2 >>> 1)) 8 (crc, x)).1) ∧
  (∀ (init : BitVec 16) (a b : List Byte), fcs init [] = init ∧ fcs (fcs init a) b = fcs init (a ++ b)) ∧
  (∀ (init : BitVec 16) (b : Byte), fcs init [b] = fcsStep init b)

/-- O45. PKT_FRAME past its operand checks: TOO_LONG when the escaped payload exceeds 1016 bytes, ERANGE when the frame does not fit at dst, else the frame's bytes at dst and its length in RES0. LEN is the escaped length and the FCS covers the wire bytes between FLAG and FCS (R163, R164). The first checks are O35's. -/
def Obligations.PktFrameResult : Prop :=
  (∀ b : Byte, esc b = if b = 0x7E#8 ∨ b = 0x7D#8 then [0x7D#8, b] else [b]) ∧
  (∀ bs : List Byte, escAll bs = bs.flatMap esc) ∧
  ∀ (s : State) (payload p body out : List Byte) (addr ctrl : Byte) (c : BitVec 16),
    s.bram.wf → s.arg0 ≠ 0#32 →
    (s.arg2 ≠ 0#32 → s.arg1 ≠ 0#32 ∧ s.arg1.toNat + s.arg2.toNat ≤ s.cfg.bramSize) →
    payload = (List.range s.arg2.toNat).map (fun i => s.readBram (s.arg1.toNat + i)) →
    p = escAll payload → addr = s.arg3.setWidth 8 → ctrl = (s.arg3 >>> 8).setWidth 8 →
    body = escAll [addr, ctrl, BitVec.ofNat 8 (p.length / 256), BitVec.ofNat 8 p.length] ++ p →
    c = fcs 0xFFFF#16 body →
    out = [0x7E#8] ++ body ++ esc ((c >>> 8).setWidth 8) ++ esc (c.setWidth 8) ++ [0x7E#8] →
    (1016 < p.length → exec .pktFrame s = .next { s with status := .tooLong }) ∧
    (p.length ≤ 1016 → s.cfg.bramSize < s.arg0.toNat + out.length →
      exec .pktFrame s = .next { s with status := .erange }) ∧
    (p.length ≤ 1016 → s.arg0.toNat + out.length ≤ s.cfg.bramSize →
      ∃ m : Memory, exec .pktFrame s = .next { s with
        bram := m, res0 := BitVec.ofNat 32 out.length, status := .okay } ∧ m.wf ∧
        Stored s { s with bram := m } s.arg0.toNat out)

/-- O46. The length of a frame: 8 bytes, the escaped payload, and one more for each escaped byte among ADDR, CTRL, LEN_LO, FCS_HI and FCS_LO; at most 1029 (R165). -/
def Obligations.FrameLengthBound : Prop :=
  ∀ (addr ctrl : Byte) (payload : List Byte) (w : Nat) (c : BitVec 16),
    w = (escAll payload).length → w ≤ 1016 →
    c = fcs 0xFFFF#16 (frameBody addr ctrl (escAll payload)) →
    (frameBytes addr ctrl payload).length =
      8 + w + ([addr, ctrl, BitVec.ofNat 8 w, c.extractLsb' 8 8, c.extractLsb' 0 8].filter
        (fun b => b == 0x7E#8 || b == 0x7D#8)).length ∧
    (frameBytes addr ctrl payload).length ≤ 1029

/-- O47. PKT_RX_INIT on a legal buffer: the receive buffer installed and the whole parser put in its idle state (R166). The checks are O35's. -/
def Obligations.PktRxInitResult : Prop :=
  ∀ s : State, s.arg0 ≠ 0#32 → 5 ≤ s.arg1.toNat → s.arg0.toNat + s.arg1.toNat ≤ s.cfg.bramSize →
    exec .pktRxinit s = .next { s with
      pkt :=
        { rx := .idle, esc := false, init := true, rxbuf := s.arg0, rxcap := s.arg1, cursor := 0#32
          addr := 0#8, ctrl := 0#8, declared := 0#16, remaining := 0#16, running := 0xFFFF#16
          received := 0#16 }
      status := .okay }

/-- O48. PKT_RX_BYTE on an initialised parser: the parser's row for the byte (O49, O50), its store and its event, and nothing else (R167). -/
def Obligations.PktRxByteResult : Prop :=
  ∀ (s : State) (r : RxStep), s.bram.wf → s.pkt.init = true → r = rxStep s.pkt (s.arg0.setWidth 8) →
    ∃ m : Memory, exec .pktRxbyte s = .next { s with
      bram := m, pkt := r.pkt
      evq := evqAfter s r.event.toList, evqOvf := ovfAfter s r.event.toList
      status := .okay } ∧ m.wf ∧
      (r.store = none → Stored s { s with bram := m } 0 []) ∧
      (∀ a b, r.store = some (a, b) → Stored s { s with bram := m } a [b])

/-- O49. The parser on bytes that are not literals: IDLE, an unescaped FLAG and an unescaped ESCAPE (R169 to R172; which byte goes where is R168). -/
def Obligations.RxFlagAndEscapeRows : Prop :=
  ∀ (p started : PktState) (b : Byte),
    started = { p with
      rx := .waitAddr, esc := false, cursor := 1#32, addr := 0#8, ctrl := 0#8
      declared := 0#16, remaining := 0#16, running := 0xFFFF#16, received := 0#16 } →
    (p.rx = .idle → b ≠ 0x7E#8 → rxStep p b = ⟨p, none, none⟩) ∧
    (p.rx = .idle → b = 0x7E#8 → rxStep p b = ⟨started, some (p.rxbuf.toNat, 0x7E#8), none⟩) ∧
    (p.rx = .waitAddr → p.esc = false → b = 0x7E#8 → rxStep p b = ⟨p, none, none⟩) ∧
    (p.rx ≠ .idle → p.rx ≠ .waitAddr → p.esc = false → b = 0x7E#8 →
      rxStep p b = ⟨started, some (p.rxbuf.toNat, 0x7E#8),
        some (mkEvent .pktInterrupted p.addr p.ctrl false p.rxbuf p.cursor)⟩) ∧
    (p.rx = .waitFcsHi ∨ p.rx = .waitFcsLo → p.esc = false → b = 0x7D#8 →
      rxStep p b = ⟨{ p with esc := true }, none, none⟩) ∧
    (p.rx = .inBody → p.esc = false → b = 0x7D#8 →
      rxStep p b = ⟨{ p with
        esc := true, running := fcsStep p.running 0x7D#8, remaining := p.remaining - 1#16
        rx := if p.remaining = 1#16 then .waitFcsHi else .inBody }, none, none⟩) ∧
    (p.rx = .waitAddr ∨ p.rx = .waitControl ∨ p.rx = .waitLenHi ∨ p.rx = .waitLenLo →
      p.esc = false → b = 0x7D#8 →
      rxStep p b = ⟨{ p with esc := true, running := fcsStep p.running 0x7D#8 }, none, none⟩)

/-- O50. The parser on a literal byte, that is one after an ESCAPE or one that is neither FLAG nor ESCAPE, in each state outside IDLE (R173 to R177, with Store and Fold of R172). That the address is stored at the first such byte after the opening FLAG is R173's row, which the model follows against R267's second byte (log 19). -/
def Obligations.RxLiteralRows : Prop :=
  ∀ (p q : PktState) (b : Byte) (declared : BitVec 16) (store : Option (Nat × Byte)),
    p.esc = true ∨ (b ≠ 0x7E#8 ∧ b ≠ 0x7D#8) →
    q = { p with esc := false, running := fcsStep p.running b, cursor := p.cursor + 1#32 } →
    store = some (p.rxbuf.toNat + p.cursor.toNat, b) →
    declared = p.declared ||| b.setWidth 16 →
    (p.rx = .waitAddr → rxStep p b = ⟨{ q with addr := b, rx := .waitControl }, store, none⟩) ∧
    (p.rx = .waitControl → rxStep p b = ⟨{ q with ctrl := b, rx := .waitLenHi }, store, none⟩) ∧
    (p.rx = .waitLenHi →
      rxStep p b = ⟨{ q with declared := b.setWidth 16 <<< 8, rx := .waitLenLo }, store, none⟩) ∧
    (p.rx = .waitLenLo →
      (min 1016 (p.rxcap.toNat - 5) < declared.toNat →
        rxStep p b = ⟨{ q with declared := declared, rx := .idle }, store,
          some (mkEvent .pktTooLong p.addr p.ctrl false p.rxbuf (p.cursor + 1#32))⟩) ∧
      (declared.toNat ≤ min 1016 (p.rxcap.toNat - 5) → declared = 0#16 →
        rxStep p b = ⟨{ q with declared := declared, rx := .waitFcsHi }, store, none⟩) ∧
      (declared.toNat ≤ min 1016 (p.rxcap.toNat - 5) → declared ≠ 0#16 →
        rxStep p b = ⟨{ q with declared := declared, remaining := declared, rx := .inBody }, store, none⟩)) ∧
    (p.rx = .inBody →
      rxStep p b = ⟨{ q with
        remaining := p.remaining - 1#16
        rx := if p.remaining = 1#16 then .waitFcsHi else .inBody }, store, none⟩) ∧
    (p.rx = .waitFcsHi →
      rxStep p b = ⟨{ p with esc := false, received := b.setWidth 16 <<< 8, rx := .waitFcsLo }, none, none⟩) ∧
    (p.rx = .waitFcsLo →
      rxStep p b = ⟨{ p with esc := false, received := p.received ||| b.setWidth 16, rx := .idle }, none,
        some (mkEvent .pktComplete p.addr p.ctrl (decide (p.received ||| b.setWidth 16 = p.running))
          (p.rxbuf + 5#32) (p.cursor - 5#32))⟩)

/-- O51. PKT_RX_STREAM on a legal source: bytes are fed in address order until the first that emits a packet event, or all of them; RES0 counts them; the bytes read are those of the command's start; no byte outside the receive buffer is written (R178, R179). A dropped record was emitted all the same (log 15). The checks are O35's. -/
def Obligations.RxStreamResult : Prop :=
  ∀ (s : State) (bs : List Byte), s.bram.wf → s.pkt.Inv s.cfg → s.pkt.init = true →
    s.arg1 ≠ 0#32 → s.arg0 ≠ 0#32 → s.arg0.toNat + s.arg1.toNat ≤ s.cfg.bramSize →
    bs = (List.range s.arg1.toNat).map (fun i => s.readBram (s.arg0.toNat + i)) →
    ∃ (k : Nat) (t : State), 1 ≤ k ∧ k ≤ s.arg1.toNat ∧
      t = (bs.take k).foldl State.rxByte s ∧
      exec .pktRxstream s = .next { t with res0 := BitVec.ofNat 32 k, status := .okay } ∧
      (∀ (j : Nat) (b : Byte), j + 1 < k → bs[j]? = some b →
        (rxStep ((bs.take j).foldl State.rxByte s).pkt b).event = none) ∧
      (k < s.arg1.toNat → ∃ b, bs[k - 1]? = some b ∧
        (rxStep ((bs.take (k - 1)).foldl State.rxByte s).pkt b).event ≠ none) ∧
      (∀ x, ¬ (s.pkt.rxbuf.toNat ≤ x ∧ x < s.pkt.rxbuf.toNat + s.pkt.rxcap.toNat) →
        t.readBram x = s.readBram x)

/-- O52. Round trip: feeding a frame's bytes to an initialised parser in IDLE, or in WAIT_ADDR with no escape pending, appends exactly one record, PKT_COMPLETE with the frame's address and control, fcs_match 1 and the payload's length; the payload stands in the receive buffer after the five header bytes; and the closing FLAG leaves the parser in WAIT_ADDR (R180). `State.rxByte` is what PKT_RX_BYTE does to the state (O48). -/
def Obligations.FrameRoundTrip : Prop :=
  ∀ (s t : State) (addr ctrl : Byte) (payload : List Byte),
    s.bram.wf → s.pkt.Inv s.cfg → s.pkt.init = true →
    s.pkt.rx = .idle ∨ (s.pkt.rx = .waitAddr ∧ s.pkt.esc = false) →
    (escAll payload).length ≤ min 1016 (s.pkt.rxcap.toNat - 5) → s.evq.length < s.cfg.evqDepth →
    t = (frameBytes addr ctrl payload).foldl State.rxByte s →
    t.evq = s.evq ++ [mkEvent .pktComplete addr ctrl true (s.pkt.rxbuf + 5#32)
      (BitVec.ofNat 32 payload.length)] ∧
    t.evqOvf = s.evqOvf ∧ t.pkt.rx = .waitAddr ∧
    ∀ (i : Nat) (b : Byte), payload[i]? = some b → t.readBram (s.pkt.rxbuf.toNat + 5 + i) = b

/-! ### The Pi reciter and the emotion unit (43_digit_emotion.md) -/

/-- O53. PI_NEXT, PI_RX and PI_RESET at every cursor and every received character (R190 to R194). -/
def Obligations.PiCommands : Prop :=
  ∀ (s : State) (d : Byte), s.cfg.Legal → d = s.arg0.setWidth 8 →
    (s.pi = .sentinelWrong →
      exec .piNext s = .next { s with res0 := 0x41#32, status := .okay } ∧
      exec .piRx s = .next { s with res0 := 4#32, status := .wrong }) ∧
    (s.pi = .pos 128 →
      exec .piNext s = .next { s with res0 := 0x23#32, status := .okay } ∧
      exec .piRx s = .next { s with res0 := 5#32, status := .exhausted }) ∧
    (∀ (k : Fin 129) (digit : Byte), s.pi = .pos k → s.cfg.piDigits[k.val]? = some digit →
      exec .piNext s = .next { s with res0 := digit.setWidth 32, status := .okay } ∧
      (d ≠ digit → exec .piRx s = .next { s with pi := .sentinelWrong, res0 := 4#32, status := .wrong }) ∧
      (d = digit → k.val < 127 → exec .piRx s = .next { s with
        pi := .pos (Fin.ofNat 129 (k.val + 1)), res0 := 0#32, status := .okay }) ∧
      (d = digit → k.val = 127 → exec .piRx s = .next { s with
        pi := .pos 128, res0 := 5#32, status := .exhausted })) ∧
    exec .piReset s = .next { s with pi := .pos 0, status := .okay }

/-- O54. A latched SENTINEL_WRONG is left only by PI_RESET, by the orchestrator's RESTART tick, by the soft reset or by the power-on reset, each of which sets the cursor to 0 (10_state.md R54, R56). -/
def Obligations.WrongLatches : Prop :=
  ∀ (s t : State) (i : HostInput) (rest : List HostInput),
    s.pi = .sentinelWrong → s.hostQueue = i :: rest → step s = .next t → t.pi ≠ .sentinelWrong →
    t.pi = .pos 0 ∧
    ((∃ (addr : Nat) (w : Word), i = .write .word addr w ∧ addr = s.cfg.coreBase + 0x00C ∧
        (decode w = some .piReset ∨
          (decode w = some .orchTick ∧ s.orch.phase = .restart ∧ s.emo.emotion = .bored))) ∨
      (∃ (addr : Nat) (w : Word), i = .write .word addr w ∧ addr = s.cfg.coreBase + 0x004 ∧
        w.getLsbD 1 = true) ∨
      (∃ cells, i = .powerOnReset cells))

/-- O55. EMO_INIT, and the transition of EMO_UPDATE with its exact signed time difference: UNKNOWN first, then a negative difference, then the row of the current emotion (R196, R197, R198). -/
def Obligations.EmotionCommands : Prop :=
  ∀ (s : State) (dt : Int) (present : Bool), dt = (s.arg0.toNat : Int) - s.emo.ts.toNat →
    present = s.arg1.getLsbD 0 →
    exec .emoInit s = .next { s with emo := ⟨.lonely, s.arg0⟩, status := .okay } ∧
    (s.emo.emotion = .unknown →
      exec .emoUpdate s = .next { s with emo := ⟨.lonely, s.arg0⟩, res0 := 1#32, status := .okay }) ∧
    (s.emo.emotion ≠ .unknown → dt < 0 → exec .emoUpdate s = .next { s with
      emo := ⟨.lonely, s.arg0⟩, res0 := if s.emo.emotion = .lonely then 0#32 else 1#32, status := .okay }) ∧
    (s.emo.emotion = .lonely → 0 ≤ dt →
      (present = true →
        exec .emoUpdate s = .next { s with emo := ⟨.happy, s.arg0⟩, res0 := 1#32, status := .okay }) ∧
      (present = false → exec .emoUpdate s = .next { s with res0 := 0#32, status := .okay })) ∧
    (s.emo.emotion = .happy → 0 ≤ dt →
      (present = false →
        exec .emoUpdate s = .next { s with emo := ⟨.lonely, s.arg0⟩, res0 := 1#32, status := .okay }) ∧
      (present = true → 3 * (s.cfg.tps : Int) < dt →
        exec .emoUpdate s = .next { s with emo := ⟨.bored, s.arg0⟩, res0 := 1#32, status := .okay }) ∧
      (present = true → dt ≤ 3 * (s.cfg.tps : Int) →
        exec .emoUpdate s = .next { s with res0 := 0#32, status := .okay })) ∧
    (s.emo.emotion = .bored → 0 ≤ dt →
      (present = false → 5 * (s.cfg.tps : Int) < dt →
        exec .emoUpdate s = .next { s with emo := ⟨.lonely, s.arg0⟩, res0 := 1#32, status := .okay }) ∧
      (present = true ∨ dt ≤ 5 * (s.cfg.tps : Int) →
        exec .emoUpdate s = .next { s with res0 := 0#32, status := .okay }))

/-! ### The orchestrator (44_orchestrator.md) -/

/-- O56. The rows of ORCH_TICK other than WAITING_SEND's: leaving BORED first, then IDLE, SENDING, WAITING_STOP, DONE and RESTART (R211, R212, R216, R217). -/
def Obligations.OrchTickRows : Prop :=
  ∀ s : State,
    (s.orch.phase ≠ .idle → s.emo.emotion ≠ .bored → exec .orchTick s = .next { s with
      evq := evqAfter s [evDacStop, evAdcStop], evqOvf := ovfAfter s [evDacStop, evAdcStop]
      orch := { s.orch with phase := .idle }, status := .okay }) ∧
    (s.orch.phase = .idle → s.emo.emotion ≠ .bored → exec .orchTick s = .next { s with status := .okay }) ∧
    (s.orch.phase = .idle ∨ s.orch.phase = .done → s.emo.emotion = .bored →
      exec .orchTick s = .next { s with orch := { s.orch with phase := .waitingSend }, status := .okay }) ∧
    (s.orch.phase = .sending ∨ s.orch.phase = .waitingStop → s.emo.emotion = .bored →
      exec .orchTick s = .next { s with status := .okay }) ∧
    (s.orch.phase = .restart → s.emo.emotion = .bored → exec .orchTick s = .next { s with
      evq := evqAfter s [evDacStop, evAdcStop], evqOvf := ovfAfter s [evDacStop, evAdcStop]
      pi := .pos 0, orch := { s.orch with phase := .waitingSend }, status := .okay })

/-- O57. ORCH_TICK in WAITING_SEND: the preconditions in their order, each leaving everything but STATUS.CODE as it was; else the dual-tone buffer at ORCH_DACBUF, the three events and SENDING; every synthesised sample lies in 64..190 (R213, R214, R215). Following R214's test digit by digit, against its closing remark on ORCH_FS, is the model's reading (log 19). NOT_FOUND is unreachable on a legal machine (O20). -/
def Obligations.SendDigitResult : Prop :=
  ∀ (s : State) (c : Fin 16) (fr fc : Nat) (es : List Event), s.cfg.Legal → s.bram.wf →
    s.orch.phase = .waitingSend → s.emo.emotion = .bored →
    fr = [697, 770, 852, 941].getD (c.val / 4) 0 → fc = [1209, 1336, 1477, 1633].getD (c.val % 4) 0 →
    es = [evDacInstall s.orch.dacBuf s.orch.dacLen, evDacStart, evAdcStart] →
    (s.orch.dacBuf = 0#32 ∨ s.orch.dacLen = 0#32 ∨ s.orch.fs = 0#32 →
      exec .orchTick s = .next { s with status := .invalid }) ∧
    (s.orch.dacBuf ≠ 0#32 → s.orch.dacLen ≠ 0#32 → s.orch.fs ≠ 0#32 →
      symChar c = piNext s.cfg s.pi →
      (2 * fr ≥ s.orch.fs.toNat ∨ 2 * fc ≥ s.orch.fs.toNat →
        exec .orchTick s = .next { s with status := .undersampled }) ∧
      (2 * fr < s.orch.fs.toNat → 2 * fc < s.orch.fs.toNat →
        (s.cfg.bramSize < s.orch.dacBuf.toNat + s.orch.dacLen.toNat →
          exec .orchTick s = .next { s with status := .erange }) ∧
        (s.orch.dacBuf.toNat + s.orch.dacLen.toNat ≤ s.cfg.bramSize →
          ∃ m : Memory, exec .orchTick s = .next { s with
            bram := m, evq := evqAfter s es, evqOvf := ovfAfter s es
            orch := { s.orch with phase := .sending }, status := .okay } ∧ m.wf ∧
            (∀ x, ({ s with bram := m } : State).readBram x =
              if s.orch.dacBuf.toNat ≤ x ∧ x < s.orch.dacBuf.toNat + s.orch.dacLen.toNat then
                BitVec.ofNat 8
                  (((sineSample s.cfg ((x - s.orch.dacBuf.toNat) * fr * 2 ^ 32)
                      (s.orch.fs.toNat * 2 ^ 22) 2).toNat +
                    (sineSample s.cfg ((x - s.orch.dacBuf.toNat) * fc * 2 ^ 32)
                      (s.orch.fs.toNat * 2 ^ 22) 2).toNat) / 2)
              else s.readBram x) ∧
            ∀ x, s.orch.dacBuf.toNat ≤ x → x < s.orch.dacBuf.toNat + s.orch.dacLen.toNat →
              64 ≤ (({ s with bram := m } : State).readBram x).toNat ∧
              (({ s with bram := m } : State).readBram x).toNat ≤ 190)))

/-- O58. Every move of the orchestrator a command can make, and what makes it; of the two commands that move it (R211, R212, R218, R219) only the tick that goes from WAITING_SEND to SENDING writes BRAM, and only in the DAC buffer; WAITING_SEND is entered only from IDLE, DONE and RESTART (R221). Other units' commands and the HOST may write the same bytes. -/
def Obligations.OrchestratorMoves : Prop :=
  ∀ (i : Instr) (s t : State), exec i s = .next t →
    (t.orch.phase ≠ s.orch.phase →
      (i = .orchTick ∧ s.emo.emotion ≠ .bored ∧ t.orch.phase = .idle) ∨
      (i = .orchTick ∧ s.emo.emotion = .bored ∧
        ((s.orch.phase = .idle ∧ t.orch.phase = .waitingSend) ∨
          (s.orch.phase = .waitingSend ∧ t.orch.phase = .sending) ∨
          (s.orch.phase = .done ∧ t.orch.phase = .waitingSend) ∨
          (s.orch.phase = .restart ∧ t.orch.phase = .waitingSend))) ∨
      (i = .dtmfBlock ∧
        ((s.orch.phase = .sending ∧ t.orch.phase = .waitingStop) ∨
          (s.orch.phase = .waitingStop ∧ (t.orch.phase = .done ∨ t.orch.phase = .restart))))) ∧
    (i = .orchTick ∨ i = .dtmfBlock → ∀ x, t.readBram x ≠ s.readBram x →
      i = .orchTick ∧ s.orch.phase = .waitingSend ∧ t.orch.phase = .sending ∧
      s.orch.dacBuf.toNat ≤ x ∧ x < s.orch.dacBuf.toNat + s.orch.dacLen.toNat)

/-! ### The invariant -/

/-- O59. The reset state of the default machine, and the power-on state of every legal machine with any cells in its BRAM, meet the invariant. What is legal is log 10's. -/
def Obligations.ResetMeetsInvariant : Prop :=
  State.reset.Inv ∧
  ∀ (c : Config) (cells : List Host.Cell), c.Legal →
    (State.powerOn c (Memory.ofCells c.bramSize cells)).Inv

/-- O60. Every step keeps the invariant: legal parameters, BRAM canonical and inside BRAM_SIZE, NSREQ slots, at most EVQ_DEPTH well-formed records, the demodulator's coefficients those of its rate, and the parser's cursor, counters and buffer inside their bounds (10_state.md R34, R36, R43, R49, R51; 42_packet.md R179). -/
def Obligations.StepKeepsInvariant : Prop :=
  ∀ s t : State, s.Inv → step s = .next t → t.Inv

end
end

