-- ==== Sys2Proof/Laws/Encoding.lean ====
section
/-! SUPPORT. The fields of a command word as numbers, and what the opcode map gives (30_encoding.md R101 to R104). -/

namespace Sys2Proof

theorem opc_toNat (w : Word) : (opcOf w).toNat = w.toNat % 256 := by
  simp [opcOf, BitVec.extractLsb'_toNat]

theorem slot_toNat (w : Word) : slotOf w = w.toNat / 256 % 16 := by
  simp [slotOf, BitVec.extractLsb'_toNat, Nat.shiftRight_eq_div_pow]

theorem rsv_toNat (w : Word) : (rsvOf w).toNat = w.toNat / 4096 := by
  have := w.isLt
  simp [rsvOf, BitVec.extractLsb'_toNat, Nat.shiftRight_eq_div_pow]
  omega

/-- The word of a well-formed command as a number. -/
theorem encode_toNat (i : Instr) (h : i.WellFormed) : (encode i).toNat = i.slot * 256 + (opcodeOf i).toNat := by
  have h2 : (opcodeOf i).toNat < 2 ^ 8 := (opcodeOf i).isLt
  simp only [encode, BitVec.toNat_append, BitVec.toNat_ofNat]
  rw [← Nat.shiftLeft_add_eq_or_of_lt (by omega)]
  simp [Nat.shiftLeft_eq]
  omega

/-- The command the opcode map gives has that opcode, and the slot where it takes one. -/
theorem instrOf_some {opc : Byte} {n : Nat} {i : Instr} (h : instrOf opc n = some i) :
    opcodeOf i = opc ∧ (takesSlot opc = true → i.slot = n) ∧ (takesSlot opc = false → i.slot = 0) := by
  have e : opc = BitVec.ofNat 8 opc.toNat := by simp
  unfold instrOf at h
  split at h <;> first | (simp at h; done) | skip
  all_goals
    rename_i hk
    rw [hk] at e
    subst e
    simp only [Option.some.injEq] at h
    subst h
    simp [opcodeOf, takesSlot, Instr.slot]

/-- The unassigned opcodes. -/
theorem instrOf_none (opc : Byte) (n : Nat) : instrOf opc n = none ↔
    opc.toNat ∉ [0x00, 0x10, 0x11, 0x12, 0x13, 0x14, 0x20, 0x21, 0x30, 0x31, 0x32, 0x33, 0x34,
      0x40, 0x41, 0x42, 0x50, 0x51, 0x60, 0x70, 0x71] := by
  unfold instrOf
  split <;> simp_all

end Sys2Proof
end

