-- ==== Sys2Proof/Laws/State.lean ====
section
/-! SUPPORT. One lemma per field per named write of State, each true by rfl. -/

namespace Sys2Proof.Machine

variable (s : State)

@[simp] theorem State.setStatus_cfg (v : Status) : (s.setStatus v).cfg = s.cfg := rfl
@[simp] theorem State.setStatus_irqEn (v : Status) : (s.setStatus v).irqEn = s.irqEn := rfl
@[simp] theorem State.setStatus_status (v : Status) : (s.setStatus v).status = v := rfl
@[simp] theorem State.setStatus_evqOvf (v : Status) : (s.setStatus v).evqOvf = s.evqOvf := rfl
@[simp] theorem State.setStatus_arg0 (v : Status) : (s.setStatus v).arg0 = s.arg0 := rfl
@[simp] theorem State.setStatus_arg1 (v : Status) : (s.setStatus v).arg1 = s.arg1 := rfl
@[simp] theorem State.setStatus_arg2 (v : Status) : (s.setStatus v).arg2 = s.arg2 := rfl
@[simp] theorem State.setStatus_arg3 (v : Status) : (s.setStatus v).arg3 = s.arg3 := rfl
@[simp] theorem State.setStatus_res0 (v : Status) : (s.setStatus v).res0 = s.res0 := rfl
@[simp] theorem State.setStatus_res1 (v : Status) : (s.setStatus v).res1 = s.res1 := rfl
@[simp] theorem State.setStatus_evq (v : Status) : (s.setStatus v).evq = s.evq := rfl
@[simp] theorem State.setStatus_sreq (v : Status) : (s.setStatus v).sreq = s.sreq := rfl
@[simp] theorem State.setStatus_dtmf (v : Status) : (s.setStatus v).dtmf = s.dtmf := rfl
@[simp] theorem State.setStatus_pkt (v : Status) : (s.setStatus v).pkt = s.pkt := rfl
@[simp] theorem State.setStatus_pi (v : Status) : (s.setStatus v).pi = s.pi := rfl
@[simp] theorem State.setStatus_emo (v : Status) : (s.setStatus v).emo = s.emo := rfl
@[simp] theorem State.setStatus_orch (v : Status) : (s.setStatus v).orch = s.orch := rfl
@[simp] theorem State.setStatus_bram (v : Status) : (s.setStatus v).bram = s.bram := rfl
@[simp] theorem State.setStatus_hostQueue (v : Status) : (s.setStatus v).hostQueue = s.hostQueue := rfl
@[simp] theorem State.setStatus_hostRead (v : Status) : (s.setStatus v).hostRead = s.hostRead := rfl

@[simp] theorem State.setRes0_cfg (v : Word) : (s.setRes0 v).cfg = s.cfg := rfl
@[simp] theorem State.setRes0_irqEn (v : Word) : (s.setRes0 v).irqEn = s.irqEn := rfl
@[simp] theorem State.setRes0_status (v : Word) : (s.setRes0 v).status = s.status := rfl
@[simp] theorem State.setRes0_evqOvf (v : Word) : (s.setRes0 v).evqOvf = s.evqOvf := rfl
@[simp] theorem State.setRes0_arg0 (v : Word) : (s.setRes0 v).arg0 = s.arg0 := rfl
@[simp] theorem State.setRes0_arg1 (v : Word) : (s.setRes0 v).arg1 = s.arg1 := rfl
@[simp] theorem State.setRes0_arg2 (v : Word) : (s.setRes0 v).arg2 = s.arg2 := rfl
@[simp] theorem State.setRes0_arg3 (v : Word) : (s.setRes0 v).arg3 = s.arg3 := rfl
@[simp] theorem State.setRes0_res0 (v : Word) : (s.setRes0 v).res0 = v := rfl
@[simp] theorem State.setRes0_res1 (v : Word) : (s.setRes0 v).res1 = s.res1 := rfl
@[simp] theorem State.setRes0_evq (v : Word) : (s.setRes0 v).evq = s.evq := rfl
@[simp] theorem State.setRes0_sreq (v : Word) : (s.setRes0 v).sreq = s.sreq := rfl
@[simp] theorem State.setRes0_dtmf (v : Word) : (s.setRes0 v).dtmf = s.dtmf := rfl
@[simp] theorem State.setRes0_pkt (v : Word) : (s.setRes0 v).pkt = s.pkt := rfl
@[simp] theorem State.setRes0_pi (v : Word) : (s.setRes0 v).pi = s.pi := rfl
@[simp] theorem State.setRes0_emo (v : Word) : (s.setRes0 v).emo = s.emo := rfl
@[simp] theorem State.setRes0_orch (v : Word) : (s.setRes0 v).orch = s.orch := rfl
@[simp] theorem State.setRes0_bram (v : Word) : (s.setRes0 v).bram = s.bram := rfl
@[simp] theorem State.setRes0_hostQueue (v : Word) : (s.setRes0 v).hostQueue = s.hostQueue := rfl
@[simp] theorem State.setRes0_hostRead (v : Word) : (s.setRes0 v).hostRead = s.hostRead := rfl

@[simp] theorem State.setEvq_cfg (q : List Event) : (s.setEvq q).cfg = s.cfg := rfl
@[simp] theorem State.setEvq_irqEn (q : List Event) : (s.setEvq q).irqEn = s.irqEn := rfl
@[simp] theorem State.setEvq_status (q : List Event) : (s.setEvq q).status = s.status := rfl
@[simp] theorem State.setEvq_evqOvf (q : List Event) : (s.setEvq q).evqOvf = s.evqOvf := rfl
@[simp] theorem State.setEvq_arg0 (q : List Event) : (s.setEvq q).arg0 = s.arg0 := rfl
@[simp] theorem State.setEvq_arg1 (q : List Event) : (s.setEvq q).arg1 = s.arg1 := rfl
@[simp] theorem State.setEvq_arg2 (q : List Event) : (s.setEvq q).arg2 = s.arg2 := rfl
@[simp] theorem State.setEvq_arg3 (q : List Event) : (s.setEvq q).arg3 = s.arg3 := rfl
@[simp] theorem State.setEvq_res0 (q : List Event) : (s.setEvq q).res0 = s.res0 := rfl
@[simp] theorem State.setEvq_res1 (q : List Event) : (s.setEvq q).res1 = s.res1 := rfl
@[simp] theorem State.setEvq_evq (q : List Event) : (s.setEvq q).evq = q := rfl
@[simp] theorem State.setEvq_sreq (q : List Event) : (s.setEvq q).sreq = s.sreq := rfl
@[simp] theorem State.setEvq_dtmf (q : List Event) : (s.setEvq q).dtmf = s.dtmf := rfl
@[simp] theorem State.setEvq_pkt (q : List Event) : (s.setEvq q).pkt = s.pkt := rfl
@[simp] theorem State.setEvq_pi (q : List Event) : (s.setEvq q).pi = s.pi := rfl
@[simp] theorem State.setEvq_emo (q : List Event) : (s.setEvq q).emo = s.emo := rfl
@[simp] theorem State.setEvq_orch (q : List Event) : (s.setEvq q).orch = s.orch := rfl
@[simp] theorem State.setEvq_bram (q : List Event) : (s.setEvq q).bram = s.bram := rfl
@[simp] theorem State.setEvq_hostQueue (q : List Event) : (s.setEvq q).hostQueue = s.hostQueue := rfl
@[simp] theorem State.setEvq_hostRead (q : List Event) : (s.setEvq q).hostRead = s.hostRead := rfl

@[simp] theorem State.setEvqOvf_cfg (b : Bool) : (s.setEvqOvf b).cfg = s.cfg := rfl
@[simp] theorem State.setEvqOvf_irqEn (b : Bool) : (s.setEvqOvf b).irqEn = s.irqEn := rfl
@[simp] theorem State.setEvqOvf_status (b : Bool) : (s.setEvqOvf b).status = s.status := rfl
@[simp] theorem State.setEvqOvf_evqOvf (b : Bool) : (s.setEvqOvf b).evqOvf = b := rfl
@[simp] theorem State.setEvqOvf_arg0 (b : Bool) : (s.setEvqOvf b).arg0 = s.arg0 := rfl
@[simp] theorem State.setEvqOvf_arg1 (b : Bool) : (s.setEvqOvf b).arg1 = s.arg1 := rfl
@[simp] theorem State.setEvqOvf_arg2 (b : Bool) : (s.setEvqOvf b).arg2 = s.arg2 := rfl
@[simp] theorem State.setEvqOvf_arg3 (b : Bool) : (s.setEvqOvf b).arg3 = s.arg3 := rfl
@[simp] theorem State.setEvqOvf_res0 (b : Bool) : (s.setEvqOvf b).res0 = s.res0 := rfl
@[simp] theorem State.setEvqOvf_res1 (b : Bool) : (s.setEvqOvf b).res1 = s.res1 := rfl
@[simp] theorem State.setEvqOvf_evq (b : Bool) : (s.setEvqOvf b).evq = s.evq := rfl
@[simp] theorem State.setEvqOvf_sreq (b : Bool) : (s.setEvqOvf b).sreq = s.sreq := rfl
@[simp] theorem State.setEvqOvf_dtmf (b : Bool) : (s.setEvqOvf b).dtmf = s.dtmf := rfl
@[simp] theorem State.setEvqOvf_pkt (b : Bool) : (s.setEvqOvf b).pkt = s.pkt := rfl
@[simp] theorem State.setEvqOvf_pi (b : Bool) : (s.setEvqOvf b).pi = s.pi := rfl
@[simp] theorem State.setEvqOvf_emo (b : Bool) : (s.setEvqOvf b).emo = s.emo := rfl
@[simp] theorem State.setEvqOvf_orch (b : Bool) : (s.setEvqOvf b).orch = s.orch := rfl
@[simp] theorem State.setEvqOvf_bram (b : Bool) : (s.setEvqOvf b).bram = s.bram := rfl
@[simp] theorem State.setEvqOvf_hostQueue (b : Bool) : (s.setEvqOvf b).hostQueue = s.hostQueue := rfl
@[simp] theorem State.setEvqOvf_hostRead (b : Bool) : (s.setEvqOvf b).hostRead = s.hostRead := rfl

@[simp] theorem State.setSreq_cfg (i : Nat) (r : SineReq) : (s.setSreq i r).cfg = s.cfg := rfl
@[simp] theorem State.setSreq_irqEn (i : Nat) (r : SineReq) : (s.setSreq i r).irqEn = s.irqEn := rfl
@[simp] theorem State.setSreq_status (i : Nat) (r : SineReq) : (s.setSreq i r).status = s.status := rfl
@[simp] theorem State.setSreq_evqOvf (i : Nat) (r : SineReq) : (s.setSreq i r).evqOvf = s.evqOvf := rfl
@[simp] theorem State.setSreq_arg0 (i : Nat) (r : SineReq) : (s.setSreq i r).arg0 = s.arg0 := rfl
@[simp] theorem State.setSreq_arg1 (i : Nat) (r : SineReq) : (s.setSreq i r).arg1 = s.arg1 := rfl
@[simp] theorem State.setSreq_arg2 (i : Nat) (r : SineReq) : (s.setSreq i r).arg2 = s.arg2 := rfl
@[simp] theorem State.setSreq_arg3 (i : Nat) (r : SineReq) : (s.setSreq i r).arg3 = s.arg3 := rfl
@[simp] theorem State.setSreq_res0 (i : Nat) (r : SineReq) : (s.setSreq i r).res0 = s.res0 := rfl
@[simp] theorem State.setSreq_res1 (i : Nat) (r : SineReq) : (s.setSreq i r).res1 = s.res1 := rfl
@[simp] theorem State.setSreq_evq (i : Nat) (r : SineReq) : (s.setSreq i r).evq = s.evq := rfl
@[simp] theorem State.setSreq_sreq (i : Nat) (r : SineReq) : (s.setSreq i r).sreq = s.sreq.set i r := rfl
@[simp] theorem State.setSreq_dtmf (i : Nat) (r : SineReq) : (s.setSreq i r).dtmf = s.dtmf := rfl
@[simp] theorem State.setSreq_pkt (i : Nat) (r : SineReq) : (s.setSreq i r).pkt = s.pkt := rfl
@[simp] theorem State.setSreq_pi (i : Nat) (r : SineReq) : (s.setSreq i r).pi = s.pi := rfl
@[simp] theorem State.setSreq_emo (i : Nat) (r : SineReq) : (s.setSreq i r).emo = s.emo := rfl
@[simp] theorem State.setSreq_orch (i : Nat) (r : SineReq) : (s.setSreq i r).orch = s.orch := rfl
@[simp] theorem State.setSreq_bram (i : Nat) (r : SineReq) : (s.setSreq i r).bram = s.bram := rfl
@[simp] theorem State.setSreq_hostQueue (i : Nat) (r : SineReq) : (s.setSreq i r).hostQueue = s.hostQueue := rfl
@[simp] theorem State.setSreq_hostRead (i : Nat) (r : SineReq) : (s.setSreq i r).hostRead = s.hostRead := rfl

@[simp] theorem State.setDtmf_cfg (d : DtmfState) : (s.setDtmf d).cfg = s.cfg := rfl
@[simp] theorem State.setDtmf_irqEn (d : DtmfState) : (s.setDtmf d).irqEn = s.irqEn := rfl
@[simp] theorem State.setDtmf_status (d : DtmfState) : (s.setDtmf d).status = s.status := rfl
@[simp] theorem State.setDtmf_evqOvf (d : DtmfState) : (s.setDtmf d).evqOvf = s.evqOvf := rfl
@[simp] theorem State.setDtmf_arg0 (d : DtmfState) : (s.setDtmf d).arg0 = s.arg0 := rfl
@[simp] theorem State.setDtmf_arg1 (d : DtmfState) : (s.setDtmf d).arg1 = s.arg1 := rfl
@[simp] theorem State.setDtmf_arg2 (d : DtmfState) : (s.setDtmf d).arg2 = s.arg2 := rfl
@[simp] theorem State.setDtmf_arg3 (d : DtmfState) : (s.setDtmf d).arg3 = s.arg3 := rfl
@[simp] theorem State.setDtmf_res0 (d : DtmfState) : (s.setDtmf d).res0 = s.res0 := rfl
@[simp] theorem State.setDtmf_res1 (d : DtmfState) : (s.setDtmf d).res1 = s.res1 := rfl
@[simp] theorem State.setDtmf_evq (d : DtmfState) : (s.setDtmf d).evq = s.evq := rfl
@[simp] theorem State.setDtmf_sreq (d : DtmfState) : (s.setDtmf d).sreq = s.sreq := rfl
@[simp] theorem State.setDtmf_dtmf (d : DtmfState) : (s.setDtmf d).dtmf = d := rfl
@[simp] theorem State.setDtmf_pkt (d : DtmfState) : (s.setDtmf d).pkt = s.pkt := rfl
@[simp] theorem State.setDtmf_pi (d : DtmfState) : (s.setDtmf d).pi = s.pi := rfl
@[simp] theorem State.setDtmf_emo (d : DtmfState) : (s.setDtmf d).emo = s.emo := rfl
@[simp] theorem State.setDtmf_orch (d : DtmfState) : (s.setDtmf d).orch = s.orch := rfl
@[simp] theorem State.setDtmf_bram (d : DtmfState) : (s.setDtmf d).bram = s.bram := rfl
@[simp] theorem State.setDtmf_hostQueue (d : DtmfState) : (s.setDtmf d).hostQueue = s.hostQueue := rfl
@[simp] theorem State.setDtmf_hostRead (d : DtmfState) : (s.setDtmf d).hostRead = s.hostRead := rfl

@[simp] theorem State.setPkt_cfg (p : PktState) : (s.setPkt p).cfg = s.cfg := rfl
@[simp] theorem State.setPkt_irqEn (p : PktState) : (s.setPkt p).irqEn = s.irqEn := rfl
@[simp] theorem State.setPkt_status (p : PktState) : (s.setPkt p).status = s.status := rfl
@[simp] theorem State.setPkt_evqOvf (p : PktState) : (s.setPkt p).evqOvf = s.evqOvf := rfl
@[simp] theorem State.setPkt_arg0 (p : PktState) : (s.setPkt p).arg0 = s.arg0 := rfl
@[simp] theorem State.setPkt_arg1 (p : PktState) : (s.setPkt p).arg1 = s.arg1 := rfl
@[simp] theorem State.setPkt_arg2 (p : PktState) : (s.setPkt p).arg2 = s.arg2 := rfl
@[simp] theorem State.setPkt_arg3 (p : PktState) : (s.setPkt p).arg3 = s.arg3 := rfl
@[simp] theorem State.setPkt_res0 (p : PktState) : (s.setPkt p).res0 = s.res0 := rfl
@[simp] theorem State.setPkt_res1 (p : PktState) : (s.setPkt p).res1 = s.res1 := rfl
@[simp] theorem State.setPkt_evq (p : PktState) : (s.setPkt p).evq = s.evq := rfl
@[simp] theorem State.setPkt_sreq (p : PktState) : (s.setPkt p).sreq = s.sreq := rfl
@[simp] theorem State.setPkt_dtmf (p : PktState) : (s.setPkt p).dtmf = s.dtmf := rfl
@[simp] theorem State.setPkt_pkt (p : PktState) : (s.setPkt p).pkt = p := rfl
@[simp] theorem State.setPkt_pi (p : PktState) : (s.setPkt p).pi = s.pi := rfl
@[simp] theorem State.setPkt_emo (p : PktState) : (s.setPkt p).emo = s.emo := rfl
@[simp] theorem State.setPkt_orch (p : PktState) : (s.setPkt p).orch = s.orch := rfl
@[simp] theorem State.setPkt_bram (p : PktState) : (s.setPkt p).bram = s.bram := rfl
@[simp] theorem State.setPkt_hostQueue (p : PktState) : (s.setPkt p).hostQueue = s.hostQueue := rfl
@[simp] theorem State.setPkt_hostRead (p : PktState) : (s.setPkt p).hostRead = s.hostRead := rfl

@[simp] theorem State.setPi_cfg (c : PiCursor) : (s.setPi c).cfg = s.cfg := rfl
@[simp] theorem State.setPi_irqEn (c : PiCursor) : (s.setPi c).irqEn = s.irqEn := rfl
@[simp] theorem State.setPi_status (c : PiCursor) : (s.setPi c).status = s.status := rfl
@[simp] theorem State.setPi_evqOvf (c : PiCursor) : (s.setPi c).evqOvf = s.evqOvf := rfl
@[simp] theorem State.setPi_arg0 (c : PiCursor) : (s.setPi c).arg0 = s.arg0 := rfl
@[simp] theorem State.setPi_arg1 (c : PiCursor) : (s.setPi c).arg1 = s.arg1 := rfl
@[simp] theorem State.setPi_arg2 (c : PiCursor) : (s.setPi c).arg2 = s.arg2 := rfl
@[simp] theorem State.setPi_arg3 (c : PiCursor) : (s.setPi c).arg3 = s.arg3 := rfl
@[simp] theorem State.setPi_res0 (c : PiCursor) : (s.setPi c).res0 = s.res0 := rfl
@[simp] theorem State.setPi_res1 (c : PiCursor) : (s.setPi c).res1 = s.res1 := rfl
@[simp] theorem State.setPi_evq (c : PiCursor) : (s.setPi c).evq = s.evq := rfl
@[simp] theorem State.setPi_sreq (c : PiCursor) : (s.setPi c).sreq = s.sreq := rfl
@[simp] theorem State.setPi_dtmf (c : PiCursor) : (s.setPi c).dtmf = s.dtmf := rfl
@[simp] theorem State.setPi_pkt (c : PiCursor) : (s.setPi c).pkt = s.pkt := rfl
@[simp] theorem State.setPi_pi (c : PiCursor) : (s.setPi c).pi = c := rfl
@[simp] theorem State.setPi_emo (c : PiCursor) : (s.setPi c).emo = s.emo := rfl
@[simp] theorem State.setPi_orch (c : PiCursor) : (s.setPi c).orch = s.orch := rfl
@[simp] theorem State.setPi_bram (c : PiCursor) : (s.setPi c).bram = s.bram := rfl
@[simp] theorem State.setPi_hostQueue (c : PiCursor) : (s.setPi c).hostQueue = s.hostQueue := rfl
@[simp] theorem State.setPi_hostRead (c : PiCursor) : (s.setPi c).hostRead = s.hostRead := rfl

@[simp] theorem State.setEmo_cfg (e : EmoState) : (s.setEmo e).cfg = s.cfg := rfl
@[simp] theorem State.setEmo_irqEn (e : EmoState) : (s.setEmo e).irqEn = s.irqEn := rfl
@[simp] theorem State.setEmo_status (e : EmoState) : (s.setEmo e).status = s.status := rfl
@[simp] theorem State.setEmo_evqOvf (e : EmoState) : (s.setEmo e).evqOvf = s.evqOvf := rfl
@[simp] theorem State.setEmo_arg0 (e : EmoState) : (s.setEmo e).arg0 = s.arg0 := rfl
@[simp] theorem State.setEmo_arg1 (e : EmoState) : (s.setEmo e).arg1 = s.arg1 := rfl
@[simp] theorem State.setEmo_arg2 (e : EmoState) : (s.setEmo e).arg2 = s.arg2 := rfl
@[simp] theorem State.setEmo_arg3 (e : EmoState) : (s.setEmo e).arg3 = s.arg3 := rfl
@[simp] theorem State.setEmo_res0 (e : EmoState) : (s.setEmo e).res0 = s.res0 := rfl
@[simp] theorem State.setEmo_res1 (e : EmoState) : (s.setEmo e).res1 = s.res1 := rfl
@[simp] theorem State.setEmo_evq (e : EmoState) : (s.setEmo e).evq = s.evq := rfl
@[simp] theorem State.setEmo_sreq (e : EmoState) : (s.setEmo e).sreq = s.sreq := rfl
@[simp] theorem State.setEmo_dtmf (e : EmoState) : (s.setEmo e).dtmf = s.dtmf := rfl
@[simp] theorem State.setEmo_pkt (e : EmoState) : (s.setEmo e).pkt = s.pkt := rfl
@[simp] theorem State.setEmo_pi (e : EmoState) : (s.setEmo e).pi = s.pi := rfl
@[simp] theorem State.setEmo_emo (e : EmoState) : (s.setEmo e).emo = e := rfl
@[simp] theorem State.setEmo_orch (e : EmoState) : (s.setEmo e).orch = s.orch := rfl
@[simp] theorem State.setEmo_bram (e : EmoState) : (s.setEmo e).bram = s.bram := rfl
@[simp] theorem State.setEmo_hostQueue (e : EmoState) : (s.setEmo e).hostQueue = s.hostQueue := rfl
@[simp] theorem State.setEmo_hostRead (e : EmoState) : (s.setEmo e).hostRead = s.hostRead := rfl

@[simp] theorem State.setOrch_cfg (o : OrchState) : (s.setOrch o).cfg = s.cfg := rfl
@[simp] theorem State.setOrch_irqEn (o : OrchState) : (s.setOrch o).irqEn = s.irqEn := rfl
@[simp] theorem State.setOrch_status (o : OrchState) : (s.setOrch o).status = s.status := rfl
@[simp] theorem State.setOrch_evqOvf (o : OrchState) : (s.setOrch o).evqOvf = s.evqOvf := rfl
@[simp] theorem State.setOrch_arg0 (o : OrchState) : (s.setOrch o).arg0 = s.arg0 := rfl
@[simp] theorem State.setOrch_arg1 (o : OrchState) : (s.setOrch o).arg1 = s.arg1 := rfl
@[simp] theorem State.setOrch_arg2 (o : OrchState) : (s.setOrch o).arg2 = s.arg2 := rfl
@[simp] theorem State.setOrch_arg3 (o : OrchState) : (s.setOrch o).arg3 = s.arg3 := rfl
@[simp] theorem State.setOrch_res0 (o : OrchState) : (s.setOrch o).res0 = s.res0 := rfl
@[simp] theorem State.setOrch_res1 (o : OrchState) : (s.setOrch o).res1 = s.res1 := rfl
@[simp] theorem State.setOrch_evq (o : OrchState) : (s.setOrch o).evq = s.evq := rfl
@[simp] theorem State.setOrch_sreq (o : OrchState) : (s.setOrch o).sreq = s.sreq := rfl
@[simp] theorem State.setOrch_dtmf (o : OrchState) : (s.setOrch o).dtmf = s.dtmf := rfl
@[simp] theorem State.setOrch_pkt (o : OrchState) : (s.setOrch o).pkt = s.pkt := rfl
@[simp] theorem State.setOrch_pi (o : OrchState) : (s.setOrch o).pi = s.pi := rfl
@[simp] theorem State.setOrch_emo (o : OrchState) : (s.setOrch o).emo = s.emo := rfl
@[simp] theorem State.setOrch_orch (o : OrchState) : (s.setOrch o).orch = o := rfl
@[simp] theorem State.setOrch_bram (o : OrchState) : (s.setOrch o).bram = s.bram := rfl
@[simp] theorem State.setOrch_hostQueue (o : OrchState) : (s.setOrch o).hostQueue = s.hostQueue := rfl
@[simp] theorem State.setOrch_hostRead (o : OrchState) : (s.setOrch o).hostRead = s.hostRead := rfl

@[simp] theorem State.setOrchPhase_cfg (p : OrchPhase) : (s.setOrchPhase p).cfg = s.cfg := rfl
@[simp] theorem State.setOrchPhase_irqEn (p : OrchPhase) : (s.setOrchPhase p).irqEn = s.irqEn := rfl
@[simp] theorem State.setOrchPhase_status (p : OrchPhase) : (s.setOrchPhase p).status = s.status := rfl
@[simp] theorem State.setOrchPhase_evqOvf (p : OrchPhase) : (s.setOrchPhase p).evqOvf = s.evqOvf := rfl
@[simp] theorem State.setOrchPhase_arg0 (p : OrchPhase) : (s.setOrchPhase p).arg0 = s.arg0 := rfl
@[simp] theorem State.setOrchPhase_arg1 (p : OrchPhase) : (s.setOrchPhase p).arg1 = s.arg1 := rfl
@[simp] theorem State.setOrchPhase_arg2 (p : OrchPhase) : (s.setOrchPhase p).arg2 = s.arg2 := rfl
@[simp] theorem State.setOrchPhase_arg3 (p : OrchPhase) : (s.setOrchPhase p).arg3 = s.arg3 := rfl
@[simp] theorem State.setOrchPhase_res0 (p : OrchPhase) : (s.setOrchPhase p).res0 = s.res0 := rfl
@[simp] theorem State.setOrchPhase_res1 (p : OrchPhase) : (s.setOrchPhase p).res1 = s.res1 := rfl
@[simp] theorem State.setOrchPhase_evq (p : OrchPhase) : (s.setOrchPhase p).evq = s.evq := rfl
@[simp] theorem State.setOrchPhase_sreq (p : OrchPhase) : (s.setOrchPhase p).sreq = s.sreq := rfl
@[simp] theorem State.setOrchPhase_dtmf (p : OrchPhase) : (s.setOrchPhase p).dtmf = s.dtmf := rfl
@[simp] theorem State.setOrchPhase_pkt (p : OrchPhase) : (s.setOrchPhase p).pkt = s.pkt := rfl
@[simp] theorem State.setOrchPhase_pi (p : OrchPhase) : (s.setOrchPhase p).pi = s.pi := rfl
@[simp] theorem State.setOrchPhase_emo (p : OrchPhase) : (s.setOrchPhase p).emo = s.emo := rfl
@[simp] theorem State.setOrchPhase_orch (p : OrchPhase) : (s.setOrchPhase p).orch = ⟨p, s.orch.dacBuf, s.orch.dacLen, s.orch.fs⟩ := rfl
@[simp] theorem State.setOrchPhase_bram (p : OrchPhase) : (s.setOrchPhase p).bram = s.bram := rfl
@[simp] theorem State.setOrchPhase_hostQueue (p : OrchPhase) : (s.setOrchPhase p).hostQueue = s.hostQueue := rfl
@[simp] theorem State.setOrchPhase_hostRead (p : OrchPhase) : (s.setOrchPhase p).hostRead = s.hostRead := rfl

@[simp] theorem State.setBram_cfg (m : Memory) : (s.setBram m).cfg = s.cfg := rfl
@[simp] theorem State.setBram_irqEn (m : Memory) : (s.setBram m).irqEn = s.irqEn := rfl
@[simp] theorem State.setBram_status (m : Memory) : (s.setBram m).status = s.status := rfl
@[simp] theorem State.setBram_evqOvf (m : Memory) : (s.setBram m).evqOvf = s.evqOvf := rfl
@[simp] theorem State.setBram_arg0 (m : Memory) : (s.setBram m).arg0 = s.arg0 := rfl
@[simp] theorem State.setBram_arg1 (m : Memory) : (s.setBram m).arg1 = s.arg1 := rfl
@[simp] theorem State.setBram_arg2 (m : Memory) : (s.setBram m).arg2 = s.arg2 := rfl
@[simp] theorem State.setBram_arg3 (m : Memory) : (s.setBram m).arg3 = s.arg3 := rfl
@[simp] theorem State.setBram_res0 (m : Memory) : (s.setBram m).res0 = s.res0 := rfl
@[simp] theorem State.setBram_res1 (m : Memory) : (s.setBram m).res1 = s.res1 := rfl
@[simp] theorem State.setBram_evq (m : Memory) : (s.setBram m).evq = s.evq := rfl
@[simp] theorem State.setBram_sreq (m : Memory) : (s.setBram m).sreq = s.sreq := rfl
@[simp] theorem State.setBram_dtmf (m : Memory) : (s.setBram m).dtmf = s.dtmf := rfl
@[simp] theorem State.setBram_pkt (m : Memory) : (s.setBram m).pkt = s.pkt := rfl
@[simp] theorem State.setBram_pi (m : Memory) : (s.setBram m).pi = s.pi := rfl
@[simp] theorem State.setBram_emo (m : Memory) : (s.setBram m).emo = s.emo := rfl
@[simp] theorem State.setBram_orch (m : Memory) : (s.setBram m).orch = s.orch := rfl
@[simp] theorem State.setBram_bram (m : Memory) : (s.setBram m).bram = m := rfl
@[simp] theorem State.setBram_hostQueue (m : Memory) : (s.setBram m).hostQueue = s.hostQueue := rfl
@[simp] theorem State.setBram_hostRead (m : Memory) : (s.setBram m).hostRead = s.hostRead := rfl

@[simp] theorem State.setHostRead_cfg (v : Word) : (s.setHostRead v).cfg = s.cfg := rfl
@[simp] theorem State.setHostRead_irqEn (v : Word) : (s.setHostRead v).irqEn = s.irqEn := rfl
@[simp] theorem State.setHostRead_status (v : Word) : (s.setHostRead v).status = s.status := rfl
@[simp] theorem State.setHostRead_evqOvf (v : Word) : (s.setHostRead v).evqOvf = s.evqOvf := rfl
@[simp] theorem State.setHostRead_arg0 (v : Word) : (s.setHostRead v).arg0 = s.arg0 := rfl
@[simp] theorem State.setHostRead_arg1 (v : Word) : (s.setHostRead v).arg1 = s.arg1 := rfl
@[simp] theorem State.setHostRead_arg2 (v : Word) : (s.setHostRead v).arg2 = s.arg2 := rfl
@[simp] theorem State.setHostRead_arg3 (v : Word) : (s.setHostRead v).arg3 = s.arg3 := rfl
@[simp] theorem State.setHostRead_res0 (v : Word) : (s.setHostRead v).res0 = s.res0 := rfl
@[simp] theorem State.setHostRead_res1 (v : Word) : (s.setHostRead v).res1 = s.res1 := rfl
@[simp] theorem State.setHostRead_evq (v : Word) : (s.setHostRead v).evq = s.evq := rfl
@[simp] theorem State.setHostRead_sreq (v : Word) : (s.setHostRead v).sreq = s.sreq := rfl
@[simp] theorem State.setHostRead_dtmf (v : Word) : (s.setHostRead v).dtmf = s.dtmf := rfl
@[simp] theorem State.setHostRead_pkt (v : Word) : (s.setHostRead v).pkt = s.pkt := rfl
@[simp] theorem State.setHostRead_pi (v : Word) : (s.setHostRead v).pi = s.pi := rfl
@[simp] theorem State.setHostRead_emo (v : Word) : (s.setHostRead v).emo = s.emo := rfl
@[simp] theorem State.setHostRead_orch (v : Word) : (s.setHostRead v).orch = s.orch := rfl
@[simp] theorem State.setHostRead_bram (v : Word) : (s.setHostRead v).bram = s.bram := rfl
@[simp] theorem State.setHostRead_hostQueue (v : Word) : (s.setHostRead v).hostQueue = s.hostQueue := rfl
@[simp] theorem State.setHostRead_hostRead (v : Word) : (s.setHostRead v).hostRead = v := rfl

@[simp] theorem State.setHostQueue_cfg (q : List HostInput) : (s.setHostQueue q).cfg = s.cfg := rfl
@[simp] theorem State.setHostQueue_irqEn (q : List HostInput) : (s.setHostQueue q).irqEn = s.irqEn := rfl
@[simp] theorem State.setHostQueue_status (q : List HostInput) : (s.setHostQueue q).status = s.status := rfl
@[simp] theorem State.setHostQueue_evqOvf (q : List HostInput) : (s.setHostQueue q).evqOvf = s.evqOvf := rfl
@[simp] theorem State.setHostQueue_arg0 (q : List HostInput) : (s.setHostQueue q).arg0 = s.arg0 := rfl
@[simp] theorem State.setHostQueue_arg1 (q : List HostInput) : (s.setHostQueue q).arg1 = s.arg1 := rfl
@[simp] theorem State.setHostQueue_arg2 (q : List HostInput) : (s.setHostQueue q).arg2 = s.arg2 := rfl
@[simp] theorem State.setHostQueue_arg3 (q : List HostInput) : (s.setHostQueue q).arg3 = s.arg3 := rfl
@[simp] theorem State.setHostQueue_res0 (q : List HostInput) : (s.setHostQueue q).res0 = s.res0 := rfl
@[simp] theorem State.setHostQueue_res1 (q : List HostInput) : (s.setHostQueue q).res1 = s.res1 := rfl
@[simp] theorem State.setHostQueue_evq (q : List HostInput) : (s.setHostQueue q).evq = s.evq := rfl
@[simp] theorem State.setHostQueue_sreq (q : List HostInput) : (s.setHostQueue q).sreq = s.sreq := rfl
@[simp] theorem State.setHostQueue_dtmf (q : List HostInput) : (s.setHostQueue q).dtmf = s.dtmf := rfl
@[simp] theorem State.setHostQueue_pkt (q : List HostInput) : (s.setHostQueue q).pkt = s.pkt := rfl
@[simp] theorem State.setHostQueue_pi (q : List HostInput) : (s.setHostQueue q).pi = s.pi := rfl
@[simp] theorem State.setHostQueue_emo (q : List HostInput) : (s.setHostQueue q).emo = s.emo := rfl
@[simp] theorem State.setHostQueue_orch (q : List HostInput) : (s.setHostQueue q).orch = s.orch := rfl
@[simp] theorem State.setHostQueue_bram (q : List HostInput) : (s.setHostQueue q).bram = s.bram := rfl
@[simp] theorem State.setHostQueue_hostQueue (q : List HostInput) : (s.setHostQueue q).hostQueue = q := rfl
@[simp] theorem State.setHostQueue_hostRead (q : List HostInput) : (s.setHostQueue q).hostRead = s.hostRead := rfl

end Sys2Proof.Machine
end

