-- ==== Sys2Proof/Laws/Frames.lean ====
section
/-! SUPPORT. What each shared operation can change: one lemma each, and the frame lemmas that follow from it. -/

namespace Sys2Proof.Machine

variable (s : State)

/-- A BRAM store changes BRAM only. -/
theorem State.writeBram_changes (a : Nat) (b : Byte) : ∃ m, s.writeBram a b = s.setBram m := by
  unfold State.writeBram; split
  · exact ⟨_, rfl⟩
  · exact ⟨s.bram, rfl⟩

@[simp] theorem State.writeBram_cfg (a : Nat) (b : Byte) : (s.writeBram a b).cfg = s.cfg := by
  obtain ⟨_, h⟩ := s.writeBram_changes a b; rw [h]; rfl
@[simp] theorem State.writeBram_irqEn (a : Nat) (b : Byte) : (s.writeBram a b).irqEn = s.irqEn := by
  obtain ⟨_, h⟩ := s.writeBram_changes a b; rw [h]; rfl
@[simp] theorem State.writeBram_status (a : Nat) (b : Byte) : (s.writeBram a b).status = s.status := by
  obtain ⟨_, h⟩ := s.writeBram_changes a b; rw [h]; rfl
@[simp] theorem State.writeBram_evqOvf (a : Nat) (b : Byte) : (s.writeBram a b).evqOvf = s.evqOvf := by
  obtain ⟨_, h⟩ := s.writeBram_changes a b; rw [h]; rfl
@[simp] theorem State.writeBram_arg0 (a : Nat) (b : Byte) : (s.writeBram a b).arg0 = s.arg0 := by
  obtain ⟨_, h⟩ := s.writeBram_changes a b; rw [h]; rfl
@[simp] theorem State.writeBram_arg1 (a : Nat) (b : Byte) : (s.writeBram a b).arg1 = s.arg1 := by
  obtain ⟨_, h⟩ := s.writeBram_changes a b; rw [h]; rfl
@[simp] theorem State.writeBram_arg2 (a : Nat) (b : Byte) : (s.writeBram a b).arg2 = s.arg2 := by
  obtain ⟨_, h⟩ := s.writeBram_changes a b; rw [h]; rfl
@[simp] theorem State.writeBram_arg3 (a : Nat) (b : Byte) : (s.writeBram a b).arg3 = s.arg3 := by
  obtain ⟨_, h⟩ := s.writeBram_changes a b; rw [h]; rfl
@[simp] theorem State.writeBram_res0 (a : Nat) (b : Byte) : (s.writeBram a b).res0 = s.res0 := by
  obtain ⟨_, h⟩ := s.writeBram_changes a b; rw [h]; rfl
@[simp] theorem State.writeBram_res1 (a : Nat) (b : Byte) : (s.writeBram a b).res1 = s.res1 := by
  obtain ⟨_, h⟩ := s.writeBram_changes a b; rw [h]; rfl
@[simp] theorem State.writeBram_evq (a : Nat) (b : Byte) : (s.writeBram a b).evq = s.evq := by
  obtain ⟨_, h⟩ := s.writeBram_changes a b; rw [h]; rfl
@[simp] theorem State.writeBram_sreq (a : Nat) (b : Byte) : (s.writeBram a b).sreq = s.sreq := by
  obtain ⟨_, h⟩ := s.writeBram_changes a b; rw [h]; rfl
@[simp] theorem State.writeBram_dtmf (a : Nat) (b : Byte) : (s.writeBram a b).dtmf = s.dtmf := by
  obtain ⟨_, h⟩ := s.writeBram_changes a b; rw [h]; rfl
@[simp] theorem State.writeBram_pkt (a : Nat) (b : Byte) : (s.writeBram a b).pkt = s.pkt := by
  obtain ⟨_, h⟩ := s.writeBram_changes a b; rw [h]; rfl
@[simp] theorem State.writeBram_pi (a : Nat) (b : Byte) : (s.writeBram a b).pi = s.pi := by
  obtain ⟨_, h⟩ := s.writeBram_changes a b; rw [h]; rfl
@[simp] theorem State.writeBram_emo (a : Nat) (b : Byte) : (s.writeBram a b).emo = s.emo := by
  obtain ⟨_, h⟩ := s.writeBram_changes a b; rw [h]; rfl
@[simp] theorem State.writeBram_orch (a : Nat) (b : Byte) : (s.writeBram a b).orch = s.orch := by
  obtain ⟨_, h⟩ := s.writeBram_changes a b; rw [h]; rfl
@[simp] theorem State.writeBram_hostQueue (a : Nat) (b : Byte) : (s.writeBram a b).hostQueue = s.hostQueue := by
  obtain ⟨_, h⟩ := s.writeBram_changes a b; rw [h]; rfl
@[simp] theorem State.writeBram_hostRead (a : Nat) (b : Byte) : (s.writeBram a b).hostRead = s.hostRead := by
  obtain ⟨_, h⟩ := s.writeBram_changes a b; rw [h]; rfl

/-- A run of BRAM stores changes BRAM only. -/
theorem State.memWrite_changes (a : Nat) (bs : List Byte) : ∃ m, s.memWrite a bs = s.setBram m := by
  induction bs generalizing s a with
  | nil => exact ⟨s.bram, rfl⟩
  | cons b bs ih =>
    obtain ⟨m, h⟩ := s.writeBram_changes a b
    obtain ⟨m', h'⟩ := ih (s.setBram m) (a + 1)
    exact ⟨m', by rw [State.memWrite, h, h']; rfl⟩

@[simp] theorem State.memWrite_cfg (a : Nat) (bs : List Byte) : (s.memWrite a bs).cfg = s.cfg := by
  obtain ⟨_, h⟩ := s.memWrite_changes a bs; rw [h]; rfl
@[simp] theorem State.memWrite_irqEn (a : Nat) (bs : List Byte) : (s.memWrite a bs).irqEn = s.irqEn := by
  obtain ⟨_, h⟩ := s.memWrite_changes a bs; rw [h]; rfl
@[simp] theorem State.memWrite_status (a : Nat) (bs : List Byte) : (s.memWrite a bs).status = s.status := by
  obtain ⟨_, h⟩ := s.memWrite_changes a bs; rw [h]; rfl
@[simp] theorem State.memWrite_evqOvf (a : Nat) (bs : List Byte) : (s.memWrite a bs).evqOvf = s.evqOvf := by
  obtain ⟨_, h⟩ := s.memWrite_changes a bs; rw [h]; rfl
@[simp] theorem State.memWrite_arg0 (a : Nat) (bs : List Byte) : (s.memWrite a bs).arg0 = s.arg0 := by
  obtain ⟨_, h⟩ := s.memWrite_changes a bs; rw [h]; rfl
@[simp] theorem State.memWrite_arg1 (a : Nat) (bs : List Byte) : (s.memWrite a bs).arg1 = s.arg1 := by
  obtain ⟨_, h⟩ := s.memWrite_changes a bs; rw [h]; rfl
@[simp] theorem State.memWrite_arg2 (a : Nat) (bs : List Byte) : (s.memWrite a bs).arg2 = s.arg2 := by
  obtain ⟨_, h⟩ := s.memWrite_changes a bs; rw [h]; rfl
@[simp] theorem State.memWrite_arg3 (a : Nat) (bs : List Byte) : (s.memWrite a bs).arg3 = s.arg3 := by
  obtain ⟨_, h⟩ := s.memWrite_changes a bs; rw [h]; rfl
@[simp] theorem State.memWrite_res0 (a : Nat) (bs : List Byte) : (s.memWrite a bs).res0 = s.res0 := by
  obtain ⟨_, h⟩ := s.memWrite_changes a bs; rw [h]; rfl
@[simp] theorem State.memWrite_res1 (a : Nat) (bs : List Byte) : (s.memWrite a bs).res1 = s.res1 := by
  obtain ⟨_, h⟩ := s.memWrite_changes a bs; rw [h]; rfl
@[simp] theorem State.memWrite_evq (a : Nat) (bs : List Byte) : (s.memWrite a bs).evq = s.evq := by
  obtain ⟨_, h⟩ := s.memWrite_changes a bs; rw [h]; rfl
@[simp] theorem State.memWrite_sreq (a : Nat) (bs : List Byte) : (s.memWrite a bs).sreq = s.sreq := by
  obtain ⟨_, h⟩ := s.memWrite_changes a bs; rw [h]; rfl
@[simp] theorem State.memWrite_dtmf (a : Nat) (bs : List Byte) : (s.memWrite a bs).dtmf = s.dtmf := by
  obtain ⟨_, h⟩ := s.memWrite_changes a bs; rw [h]; rfl
@[simp] theorem State.memWrite_pkt (a : Nat) (bs : List Byte) : (s.memWrite a bs).pkt = s.pkt := by
  obtain ⟨_, h⟩ := s.memWrite_changes a bs; rw [h]; rfl
@[simp] theorem State.memWrite_pi (a : Nat) (bs : List Byte) : (s.memWrite a bs).pi = s.pi := by
  obtain ⟨_, h⟩ := s.memWrite_changes a bs; rw [h]; rfl
@[simp] theorem State.memWrite_emo (a : Nat) (bs : List Byte) : (s.memWrite a bs).emo = s.emo := by
  obtain ⟨_, h⟩ := s.memWrite_changes a bs; rw [h]; rfl
@[simp] theorem State.memWrite_orch (a : Nat) (bs : List Byte) : (s.memWrite a bs).orch = s.orch := by
  obtain ⟨_, h⟩ := s.memWrite_changes a bs; rw [h]; rfl
@[simp] theorem State.memWrite_hostQueue (a : Nat) (bs : List Byte) : (s.memWrite a bs).hostQueue = s.hostQueue := by
  obtain ⟨_, h⟩ := s.memWrite_changes a bs; rw [h]; rfl
@[simp] theorem State.memWrite_hostRead (a : Nat) (bs : List Byte) : (s.memWrite a bs).hostRead = s.hostRead := by
  obtain ⟨_, h⟩ := s.memWrite_changes a bs; rw [h]; rfl

/-- Emit changes the queue and EVQ_OVF only (45_control.md R231). -/
theorem State.emit_changes (e : Event) : ∃ q f, s.emit e = (s.setEvq q).setEvqOvf f := by
  unfold State.emit; split
  · exact ⟨s.evq ++ [e], s.evqOvf, rfl⟩
  · exact ⟨s.evq, true, rfl⟩

@[simp] theorem State.emit_cfg (e : Event) : (s.emit e).cfg = s.cfg := by
  obtain ⟨_, _, h⟩ := s.emit_changes e; rw [h]; rfl
@[simp] theorem State.emit_irqEn (e : Event) : (s.emit e).irqEn = s.irqEn := by
  obtain ⟨_, _, h⟩ := s.emit_changes e; rw [h]; rfl
@[simp] theorem State.emit_status (e : Event) : (s.emit e).status = s.status := by
  obtain ⟨_, _, h⟩ := s.emit_changes e; rw [h]; rfl
@[simp] theorem State.emit_arg0 (e : Event) : (s.emit e).arg0 = s.arg0 := by
  obtain ⟨_, _, h⟩ := s.emit_changes e; rw [h]; rfl
@[simp] theorem State.emit_arg1 (e : Event) : (s.emit e).arg1 = s.arg1 := by
  obtain ⟨_, _, h⟩ := s.emit_changes e; rw [h]; rfl
@[simp] theorem State.emit_arg2 (e : Event) : (s.emit e).arg2 = s.arg2 := by
  obtain ⟨_, _, h⟩ := s.emit_changes e; rw [h]; rfl
@[simp] theorem State.emit_arg3 (e : Event) : (s.emit e).arg3 = s.arg3 := by
  obtain ⟨_, _, h⟩ := s.emit_changes e; rw [h]; rfl
@[simp] theorem State.emit_res0 (e : Event) : (s.emit e).res0 = s.res0 := by
  obtain ⟨_, _, h⟩ := s.emit_changes e; rw [h]; rfl
@[simp] theorem State.emit_res1 (e : Event) : (s.emit e).res1 = s.res1 := by
  obtain ⟨_, _, h⟩ := s.emit_changes e; rw [h]; rfl
@[simp] theorem State.emit_sreq (e : Event) : (s.emit e).sreq = s.sreq := by
  obtain ⟨_, _, h⟩ := s.emit_changes e; rw [h]; rfl
@[simp] theorem State.emit_dtmf (e : Event) : (s.emit e).dtmf = s.dtmf := by
  obtain ⟨_, _, h⟩ := s.emit_changes e; rw [h]; rfl
@[simp] theorem State.emit_pkt (e : Event) : (s.emit e).pkt = s.pkt := by
  obtain ⟨_, _, h⟩ := s.emit_changes e; rw [h]; rfl
@[simp] theorem State.emit_pi (e : Event) : (s.emit e).pi = s.pi := by
  obtain ⟨_, _, h⟩ := s.emit_changes e; rw [h]; rfl
@[simp] theorem State.emit_emo (e : Event) : (s.emit e).emo = s.emo := by
  obtain ⟨_, _, h⟩ := s.emit_changes e; rw [h]; rfl
@[simp] theorem State.emit_orch (e : Event) : (s.emit e).orch = s.orch := by
  obtain ⟨_, _, h⟩ := s.emit_changes e; rw [h]; rfl
@[simp] theorem State.emit_bram (e : Event) : (s.emit e).bram = s.bram := by
  obtain ⟨_, _, h⟩ := s.emit_changes e; rw [h]; rfl
@[simp] theorem State.emit_hostQueue (e : Event) : (s.emit e).hostQueue = s.hostQueue := by
  obtain ⟨_, _, h⟩ := s.emit_changes e; rw [h]; rfl
@[simp] theorem State.emit_hostRead (e : Event) : (s.emit e).hostRead = s.hostRead := by
  obtain ⟨_, _, h⟩ := s.emit_changes e; rw [h]; rfl

/-- Emitting several records changes the queue and EVQ_OVF only. -/
theorem State.emitAll_changes (es : List Event) : ∃ q f, s.emitAll es = (s.setEvq q).setEvqOvf f := by
  induction es generalizing s with
  | nil => exact ⟨s.evq, s.evqOvf, rfl⟩
  | cons e es ih =>
    obtain ⟨q, f, h⟩ := s.emit_changes e
    obtain ⟨q', f', h'⟩ := ih ((s.setEvq q).setEvqOvf f)
    exact ⟨q', f', by rw [State.emitAll, h, h']; rfl⟩

@[simp] theorem State.emitAll_cfg (es : List Event) : (s.emitAll es).cfg = s.cfg := by
  obtain ⟨_, _, h⟩ := s.emitAll_changes es; rw [h]; rfl
@[simp] theorem State.emitAll_irqEn (es : List Event) : (s.emitAll es).irqEn = s.irqEn := by
  obtain ⟨_, _, h⟩ := s.emitAll_changes es; rw [h]; rfl
@[simp] theorem State.emitAll_status (es : List Event) : (s.emitAll es).status = s.status := by
  obtain ⟨_, _, h⟩ := s.emitAll_changes es; rw [h]; rfl
@[simp] theorem State.emitAll_arg0 (es : List Event) : (s.emitAll es).arg0 = s.arg0 := by
  obtain ⟨_, _, h⟩ := s.emitAll_changes es; rw [h]; rfl
@[simp] theorem State.emitAll_arg1 (es : List Event) : (s.emitAll es).arg1 = s.arg1 := by
  obtain ⟨_, _, h⟩ := s.emitAll_changes es; rw [h]; rfl
@[simp] theorem State.emitAll_arg2 (es : List Event) : (s.emitAll es).arg2 = s.arg2 := by
  obtain ⟨_, _, h⟩ := s.emitAll_changes es; rw [h]; rfl
@[simp] theorem State.emitAll_arg3 (es : List Event) : (s.emitAll es).arg3 = s.arg3 := by
  obtain ⟨_, _, h⟩ := s.emitAll_changes es; rw [h]; rfl
@[simp] theorem State.emitAll_res0 (es : List Event) : (s.emitAll es).res0 = s.res0 := by
  obtain ⟨_, _, h⟩ := s.emitAll_changes es; rw [h]; rfl
@[simp] theorem State.emitAll_res1 (es : List Event) : (s.emitAll es).res1 = s.res1 := by
  obtain ⟨_, _, h⟩ := s.emitAll_changes es; rw [h]; rfl
@[simp] theorem State.emitAll_sreq (es : List Event) : (s.emitAll es).sreq = s.sreq := by
  obtain ⟨_, _, h⟩ := s.emitAll_changes es; rw [h]; rfl
@[simp] theorem State.emitAll_dtmf (es : List Event) : (s.emitAll es).dtmf = s.dtmf := by
  obtain ⟨_, _, h⟩ := s.emitAll_changes es; rw [h]; rfl
@[simp] theorem State.emitAll_pkt (es : List Event) : (s.emitAll es).pkt = s.pkt := by
  obtain ⟨_, _, h⟩ := s.emitAll_changes es; rw [h]; rfl
@[simp] theorem State.emitAll_pi (es : List Event) : (s.emitAll es).pi = s.pi := by
  obtain ⟨_, _, h⟩ := s.emitAll_changes es; rw [h]; rfl
@[simp] theorem State.emitAll_emo (es : List Event) : (s.emitAll es).emo = s.emo := by
  obtain ⟨_, _, h⟩ := s.emitAll_changes es; rw [h]; rfl
@[simp] theorem State.emitAll_orch (es : List Event) : (s.emitAll es).orch = s.orch := by
  obtain ⟨_, _, h⟩ := s.emitAll_changes es; rw [h]; rfl
@[simp] theorem State.emitAll_bram (es : List Event) : (s.emitAll es).bram = s.bram := by
  obtain ⟨_, _, h⟩ := s.emitAll_changes es; rw [h]; rfl
@[simp] theorem State.emitAll_hostQueue (es : List Event) : (s.emitAll es).hostQueue = s.hostQueue := by
  obtain ⟨_, _, h⟩ := s.emitAll_changes es; rw [h]; rfl
@[simp] theorem State.emitAll_hostRead (es : List Event) : (s.emitAll es).hostRead = s.hostRead := by
  obtain ⟨_, _, h⟩ := s.emitAll_changes es; rw [h]; rfl

/-- ORCH_on_down changes the queue, EVQ_OVF and ORCH_STATE only (44_orchestrator.md R218). -/
theorem State.orchOnDown_changes :
    ∃ q f p, s.orchOnDown = ((s.setEvq q).setEvqOvf f).setOrchPhase p := by
  unfold State.orchOnDown; split
  · obtain ⟨q, f, h⟩ := s.emit_changes evDacStop
    exact ⟨q, f, _, by rw [h]⟩
  · exact ⟨s.evq, s.evqOvf, s.orch.phase, rfl⟩

@[simp] theorem State.orchOnDown_cfg : s.orchOnDown.cfg = s.cfg := by
  obtain ⟨_, _, _, h⟩ := s.orchOnDown_changes; rw [h]; rfl
@[simp] theorem State.orchOnDown_irqEn : s.orchOnDown.irqEn = s.irqEn := by
  obtain ⟨_, _, _, h⟩ := s.orchOnDown_changes; rw [h]; rfl
@[simp] theorem State.orchOnDown_status : s.orchOnDown.status = s.status := by
  obtain ⟨_, _, _, h⟩ := s.orchOnDown_changes; rw [h]; rfl
@[simp] theorem State.orchOnDown_arg0 : s.orchOnDown.arg0 = s.arg0 := by
  obtain ⟨_, _, _, h⟩ := s.orchOnDown_changes; rw [h]; rfl
@[simp] theorem State.orchOnDown_arg1 : s.orchOnDown.arg1 = s.arg1 := by
  obtain ⟨_, _, _, h⟩ := s.orchOnDown_changes; rw [h]; rfl
@[simp] theorem State.orchOnDown_arg2 : s.orchOnDown.arg2 = s.arg2 := by
  obtain ⟨_, _, _, h⟩ := s.orchOnDown_changes; rw [h]; rfl
@[simp] theorem State.orchOnDown_arg3 : s.orchOnDown.arg3 = s.arg3 := by
  obtain ⟨_, _, _, h⟩ := s.orchOnDown_changes; rw [h]; rfl
@[simp] theorem State.orchOnDown_res0 : s.orchOnDown.res0 = s.res0 := by
  obtain ⟨_, _, _, h⟩ := s.orchOnDown_changes; rw [h]; rfl
@[simp] theorem State.orchOnDown_res1 : s.orchOnDown.res1 = s.res1 := by
  obtain ⟨_, _, _, h⟩ := s.orchOnDown_changes; rw [h]; rfl
@[simp] theorem State.orchOnDown_sreq : s.orchOnDown.sreq = s.sreq := by
  obtain ⟨_, _, _, h⟩ := s.orchOnDown_changes; rw [h]; rfl
@[simp] theorem State.orchOnDown_dtmf : s.orchOnDown.dtmf = s.dtmf := by
  obtain ⟨_, _, _, h⟩ := s.orchOnDown_changes; rw [h]; rfl
@[simp] theorem State.orchOnDown_pkt : s.orchOnDown.pkt = s.pkt := by
  obtain ⟨_, _, _, h⟩ := s.orchOnDown_changes; rw [h]; rfl
@[simp] theorem State.orchOnDown_pi : s.orchOnDown.pi = s.pi := by
  obtain ⟨_, _, _, h⟩ := s.orchOnDown_changes; rw [h]; rfl
@[simp] theorem State.orchOnDown_emo : s.orchOnDown.emo = s.emo := by
  obtain ⟨_, _, _, h⟩ := s.orchOnDown_changes; rw [h]; rfl
@[simp] theorem State.orchOnDown_bram : s.orchOnDown.bram = s.bram := by
  obtain ⟨_, _, _, h⟩ := s.orchOnDown_changes; rw [h]; rfl
@[simp] theorem State.orchOnDown_hostQueue : s.orchOnDown.hostQueue = s.hostQueue := by
  obtain ⟨_, _, _, h⟩ := s.orchOnDown_changes; rw [h]; rfl
@[simp] theorem State.orchOnDown_hostRead : s.orchOnDown.hostRead = s.hostRead := by
  obtain ⟨_, _, _, h⟩ := s.orchOnDown_changes; rw [h]; rfl

/-- ORCH_on_up changes the queue, EVQ_OVF, PI_CURSOR and ORCH_STATE only (44_orchestrator.md R219). -/
theorem State.orchOnUp_changes (c : Fin 16) :
    ∃ q f k p, s.orchOnUp c = (((s.setEvq q).setEvqOvf f).setPi k).setOrchPhase p := by
  unfold State.orchOnUp; split
  · obtain ⟨q, f, h⟩ := s.emit_changes evAdcStop
    exact ⟨q, f, _, _, by rw [h]⟩
  · exact ⟨s.evq, s.evqOvf, s.pi, s.orch.phase, rfl⟩

@[simp] theorem State.orchOnUp_cfg (c : Fin 16) : (s.orchOnUp c).cfg = s.cfg := by
  obtain ⟨_, _, _, _, h⟩ := s.orchOnUp_changes c; rw [h]; rfl
@[simp] theorem State.orchOnUp_irqEn (c : Fin 16) : (s.orchOnUp c).irqEn = s.irqEn := by
  obtain ⟨_, _, _, _, h⟩ := s.orchOnUp_changes c; rw [h]; rfl
@[simp] theorem State.orchOnUp_status (c : Fin 16) : (s.orchOnUp c).status = s.status := by
  obtain ⟨_, _, _, _, h⟩ := s.orchOnUp_changes c; rw [h]; rfl
@[simp] theorem State.orchOnUp_arg0 (c : Fin 16) : (s.orchOnUp c).arg0 = s.arg0 := by
  obtain ⟨_, _, _, _, h⟩ := s.orchOnUp_changes c; rw [h]; rfl
@[simp] theorem State.orchOnUp_arg1 (c : Fin 16) : (s.orchOnUp c).arg1 = s.arg1 := by
  obtain ⟨_, _, _, _, h⟩ := s.orchOnUp_changes c; rw [h]; rfl
@[simp] theorem State.orchOnUp_arg2 (c : Fin 16) : (s.orchOnUp c).arg2 = s.arg2 := by
  obtain ⟨_, _, _, _, h⟩ := s.orchOnUp_changes c; rw [h]; rfl
@[simp] theorem State.orchOnUp_arg3 (c : Fin 16) : (s.orchOnUp c).arg3 = s.arg3 := by
  obtain ⟨_, _, _, _, h⟩ := s.orchOnUp_changes c; rw [h]; rfl
@[simp] theorem State.orchOnUp_res0 (c : Fin 16) : (s.orchOnUp c).res0 = s.res0 := by
  obtain ⟨_, _, _, _, h⟩ := s.orchOnUp_changes c; rw [h]; rfl
@[simp] theorem State.orchOnUp_res1 (c : Fin 16) : (s.orchOnUp c).res1 = s.res1 := by
  obtain ⟨_, _, _, _, h⟩ := s.orchOnUp_changes c; rw [h]; rfl
@[simp] theorem State.orchOnUp_sreq (c : Fin 16) : (s.orchOnUp c).sreq = s.sreq := by
  obtain ⟨_, _, _, _, h⟩ := s.orchOnUp_changes c; rw [h]; rfl
@[simp] theorem State.orchOnUp_dtmf (c : Fin 16) : (s.orchOnUp c).dtmf = s.dtmf := by
  obtain ⟨_, _, _, _, h⟩ := s.orchOnUp_changes c; rw [h]; rfl
@[simp] theorem State.orchOnUp_pkt (c : Fin 16) : (s.orchOnUp c).pkt = s.pkt := by
  obtain ⟨_, _, _, _, h⟩ := s.orchOnUp_changes c; rw [h]; rfl
@[simp] theorem State.orchOnUp_emo (c : Fin 16) : (s.orchOnUp c).emo = s.emo := by
  obtain ⟨_, _, _, _, h⟩ := s.orchOnUp_changes c; rw [h]; rfl
@[simp] theorem State.orchOnUp_bram (c : Fin 16) : (s.orchOnUp c).bram = s.bram := by
  obtain ⟨_, _, _, _, h⟩ := s.orchOnUp_changes c; rw [h]; rfl
@[simp] theorem State.orchOnUp_hostQueue (c : Fin 16) : (s.orchOnUp c).hostQueue = s.hostQueue := by
  obtain ⟨_, _, _, _, h⟩ := s.orchOnUp_changes c; rw [h]; rfl
@[simp] theorem State.orchOnUp_hostRead (c : Fin 16) : (s.orchOnUp c).hostRead = s.hostRead := by
  obtain ⟨_, _, _, _, h⟩ := s.orchOnUp_changes c; rw [h]; rfl

/-- Releasing the held symbol changes what its event and ORCH_on_up change (41_dtmf.md R148, R149). -/
theorem State.releaseHeld_changes :
    ∃ q f k p, s.releaseHeld = (((s.setEvq q).setEvqOvf f).setPi k).setOrchPhase p := by
  unfold State.releaseHeld; split
  · exact ⟨s.evq, s.evqOvf, s.pi, s.orch.phase, rfl⟩
  · rename_i c _
    obtain ⟨q, f, h⟩ := s.emit_changes (evDtmfUp c s.dtmf.dwell)
    obtain ⟨q', f', k, p, h'⟩ := ((s.setEvq q).setEvqOvf f).orchOnUp_changes c
    exact ⟨q', f', k, p, by rw [h, h']; rfl⟩

@[simp] theorem State.releaseHeld_cfg : s.releaseHeld.cfg = s.cfg := by
  obtain ⟨_, _, _, _, h⟩ := s.releaseHeld_changes; rw [h]; rfl
@[simp] theorem State.releaseHeld_irqEn : s.releaseHeld.irqEn = s.irqEn := by
  obtain ⟨_, _, _, _, h⟩ := s.releaseHeld_changes; rw [h]; rfl
@[simp] theorem State.releaseHeld_status : s.releaseHeld.status = s.status := by
  obtain ⟨_, _, _, _, h⟩ := s.releaseHeld_changes; rw [h]; rfl
@[simp] theorem State.releaseHeld_arg0 : s.releaseHeld.arg0 = s.arg0 := by
  obtain ⟨_, _, _, _, h⟩ := s.releaseHeld_changes; rw [h]; rfl
@[simp] theorem State.releaseHeld_arg1 : s.releaseHeld.arg1 = s.arg1 := by
  obtain ⟨_, _, _, _, h⟩ := s.releaseHeld_changes; rw [h]; rfl
@[simp] theorem State.releaseHeld_arg2 : s.releaseHeld.arg2 = s.arg2 := by
  obtain ⟨_, _, _, _, h⟩ := s.releaseHeld_changes; rw [h]; rfl
@[simp] theorem State.releaseHeld_arg3 : s.releaseHeld.arg3 = s.arg3 := by
  obtain ⟨_, _, _, _, h⟩ := s.releaseHeld_changes; rw [h]; rfl
@[simp] theorem State.releaseHeld_res0 : s.releaseHeld.res0 = s.res0 := by
  obtain ⟨_, _, _, _, h⟩ := s.releaseHeld_changes; rw [h]; rfl
@[simp] theorem State.releaseHeld_res1 : s.releaseHeld.res1 = s.res1 := by
  obtain ⟨_, _, _, _, h⟩ := s.releaseHeld_changes; rw [h]; rfl
@[simp] theorem State.releaseHeld_sreq : s.releaseHeld.sreq = s.sreq := by
  obtain ⟨_, _, _, _, h⟩ := s.releaseHeld_changes; rw [h]; rfl
@[simp] theorem State.releaseHeld_dtmf : s.releaseHeld.dtmf = s.dtmf := by
  obtain ⟨_, _, _, _, h⟩ := s.releaseHeld_changes; rw [h]; rfl
@[simp] theorem State.releaseHeld_pkt : s.releaseHeld.pkt = s.pkt := by
  obtain ⟨_, _, _, _, h⟩ := s.releaseHeld_changes; rw [h]; rfl
@[simp] theorem State.releaseHeld_emo : s.releaseHeld.emo = s.emo := by
  obtain ⟨_, _, _, _, h⟩ := s.releaseHeld_changes; rw [h]; rfl
@[simp] theorem State.releaseHeld_bram : s.releaseHeld.bram = s.bram := by
  obtain ⟨_, _, _, _, h⟩ := s.releaseHeld_changes; rw [h]; rfl
@[simp] theorem State.releaseHeld_hostQueue : s.releaseHeld.hostQueue = s.hostQueue := by
  obtain ⟨_, _, _, _, h⟩ := s.releaseHeld_changes; rw [h]; rfl
@[simp] theorem State.releaseHeld_hostRead : s.releaseHeld.hostRead = s.hostRead := by
  obtain ⟨_, _, _, _, h⟩ := s.releaseHeld_changes; rw [h]; rfl

/-- Decide changes HELD and DTMF_DWELL, and what its events and the orchestrator change (41_dtmf.md R148). -/
theorem State.decideSymbol_changes (new : Option (Fin 16)) (n : Nat) :
    ∃ q f k p d w, s.decideSymbol new n =
      ((((s.setEvq q).setEvqOvf f).setPi k).setOrchPhase p).setHeld d w := by
  unfold State.decideSymbol; split
  · exact ⟨s.evq, s.evqOvf, s.pi, s.orch.phase, _, _, rfl⟩
  · obtain ⟨q, f, k, p, h⟩ := s.releaseHeld_changes
    cases new with
    | none => exact ⟨q, f, k, p, none, _, by rw [h]⟩
    | some c =>
      obtain ⟨q', f', h'⟩ := (s.releaseHeld.setHeld (some c) (BitVec.ofNat 32 n)).emit_changes (evDtmfDown c)
      obtain ⟨q'', f'', p', h''⟩ :=
        ((s.releaseHeld.setHeld (some c) (BitVec.ofNat 32 n)).emit (evDtmfDown c)).orchOnDown_changes
      exact ⟨q'', f'', k, p', some c, BitVec.ofNat 32 n, by
        simp only [h'']; rw [h', h]
        simp only [State.setHeld, State.setEvq, State.setEvqOvf, State.setPi, State.setOrchPhase, State.setDtmf]⟩

@[simp] theorem State.decideSymbol_cfg (new : Option (Fin 16)) (n : Nat) : (s.decideSymbol new n).cfg = s.cfg := by
  obtain ⟨_, _, _, _, _, _, h⟩ := s.decideSymbol_changes new n; rw [h]; rfl
@[simp] theorem State.decideSymbol_irqEn (new : Option (Fin 16)) (n : Nat) : (s.decideSymbol new n).irqEn = s.irqEn := by
  obtain ⟨_, _, _, _, _, _, h⟩ := s.decideSymbol_changes new n; rw [h]; rfl
@[simp] theorem State.decideSymbol_status (new : Option (Fin 16)) (n : Nat) : (s.decideSymbol new n).status = s.status := by
  obtain ⟨_, _, _, _, _, _, h⟩ := s.decideSymbol_changes new n; rw [h]; rfl
@[simp] theorem State.decideSymbol_arg0 (new : Option (Fin 16)) (n : Nat) : (s.decideSymbol new n).arg0 = s.arg0 := by
  obtain ⟨_, _, _, _, _, _, h⟩ := s.decideSymbol_changes new n; rw [h]; rfl
@[simp] theorem State.decideSymbol_arg1 (new : Option (Fin 16)) (n : Nat) : (s.decideSymbol new n).arg1 = s.arg1 := by
  obtain ⟨_, _, _, _, _, _, h⟩ := s.decideSymbol_changes new n; rw [h]; rfl
@[simp] theorem State.decideSymbol_arg2 (new : Option (Fin 16)) (n : Nat) : (s.decideSymbol new n).arg2 = s.arg2 := by
  obtain ⟨_, _, _, _, _, _, h⟩ := s.decideSymbol_changes new n; rw [h]; rfl
@[simp] theorem State.decideSymbol_arg3 (new : Option (Fin 16)) (n : Nat) : (s.decideSymbol new n).arg3 = s.arg3 := by
  obtain ⟨_, _, _, _, _, _, h⟩ := s.decideSymbol_changes new n; rw [h]; rfl
@[simp] theorem State.decideSymbol_res0 (new : Option (Fin 16)) (n : Nat) : (s.decideSymbol new n).res0 = s.res0 := by
  obtain ⟨_, _, _, _, _, _, h⟩ := s.decideSymbol_changes new n; rw [h]; rfl
@[simp] theorem State.decideSymbol_res1 (new : Option (Fin 16)) (n : Nat) : (s.decideSymbol new n).res1 = s.res1 := by
  obtain ⟨_, _, _, _, _, _, h⟩ := s.decideSymbol_changes new n; rw [h]; rfl
@[simp] theorem State.decideSymbol_sreq (new : Option (Fin 16)) (n : Nat) : (s.decideSymbol new n).sreq = s.sreq := by
  obtain ⟨_, _, _, _, _, _, h⟩ := s.decideSymbol_changes new n; rw [h]; rfl
@[simp] theorem State.decideSymbol_pkt (new : Option (Fin 16)) (n : Nat) : (s.decideSymbol new n).pkt = s.pkt := by
  obtain ⟨_, _, _, _, _, _, h⟩ := s.decideSymbol_changes new n; rw [h]; rfl
@[simp] theorem State.decideSymbol_emo (new : Option (Fin 16)) (n : Nat) : (s.decideSymbol new n).emo = s.emo := by
  obtain ⟨_, _, _, _, _, _, h⟩ := s.decideSymbol_changes new n; rw [h]; rfl
@[simp] theorem State.decideSymbol_bram (new : Option (Fin 16)) (n : Nat) : (s.decideSymbol new n).bram = s.bram := by
  obtain ⟨_, _, _, _, _, _, h⟩ := s.decideSymbol_changes new n; rw [h]; rfl
@[simp] theorem State.decideSymbol_hostQueue (new : Option (Fin 16)) (n : Nat) : (s.decideSymbol new n).hostQueue = s.hostQueue := by
  obtain ⟨_, _, _, _, _, _, h⟩ := s.decideSymbol_changes new n; rw [h]; rfl
@[simp] theorem State.decideSymbol_hostRead (new : Option (Fin 16)) (n : Nat) : (s.decideSymbol new n).hostRead = s.hostRead := by
  obtain ⟨_, _, _, _, _, _, h⟩ := s.decideSymbol_changes new n; rw [h]; rfl

/-- Flush changes what Decide changes (41_dtmf.md R149). -/
theorem State.flush_changes :
    ∃ q f k p d w, s.flush = ((((s.setEvq q).setEvqOvf f).setPi k).setOrchPhase p).setHeld d w := by
  unfold State.flush; split
  · refine ⟨s.evq, s.evqOvf, s.pi, s.orch.phase, s.dtmf.held, s.dtmf.dwell, ?_⟩
    simp only [State.setHeld, State.setEvq, State.setEvqOvf, State.setPi, State.setOrchPhase, State.setDtmf]
  · obtain ⟨q, f, k, p, h⟩ := s.releaseHeld_changes
    refine ⟨q, f, k, p, none, 0#32, ?_⟩
    rw [h]

@[simp] theorem State.flush_cfg : s.flush.cfg = s.cfg := by
  obtain ⟨_, _, _, _, _, _, h⟩ := s.flush_changes; rw [h]; rfl
@[simp] theorem State.flush_irqEn : s.flush.irqEn = s.irqEn := by
  obtain ⟨_, _, _, _, _, _, h⟩ := s.flush_changes; rw [h]; rfl
@[simp] theorem State.flush_status : s.flush.status = s.status := by
  obtain ⟨_, _, _, _, _, _, h⟩ := s.flush_changes; rw [h]; rfl
@[simp] theorem State.flush_arg0 : s.flush.arg0 = s.arg0 := by
  obtain ⟨_, _, _, _, _, _, h⟩ := s.flush_changes; rw [h]; rfl
@[simp] theorem State.flush_arg1 : s.flush.arg1 = s.arg1 := by
  obtain ⟨_, _, _, _, _, _, h⟩ := s.flush_changes; rw [h]; rfl
@[simp] theorem State.flush_arg2 : s.flush.arg2 = s.arg2 := by
  obtain ⟨_, _, _, _, _, _, h⟩ := s.flush_changes; rw [h]; rfl
@[simp] theorem State.flush_arg3 : s.flush.arg3 = s.arg3 := by
  obtain ⟨_, _, _, _, _, _, h⟩ := s.flush_changes; rw [h]; rfl
@[simp] theorem State.flush_res0 : s.flush.res0 = s.res0 := by
  obtain ⟨_, _, _, _, _, _, h⟩ := s.flush_changes; rw [h]; rfl
@[simp] theorem State.flush_res1 : s.flush.res1 = s.res1 := by
  obtain ⟨_, _, _, _, _, _, h⟩ := s.flush_changes; rw [h]; rfl
@[simp] theorem State.flush_sreq : s.flush.sreq = s.sreq := by
  obtain ⟨_, _, _, _, _, _, h⟩ := s.flush_changes; rw [h]; rfl
@[simp] theorem State.flush_pkt : s.flush.pkt = s.pkt := by
  obtain ⟨_, _, _, _, _, _, h⟩ := s.flush_changes; rw [h]; rfl
@[simp] theorem State.flush_emo : s.flush.emo = s.emo := by
  obtain ⟨_, _, _, _, _, _, h⟩ := s.flush_changes; rw [h]; rfl
@[simp] theorem State.flush_bram : s.flush.bram = s.bram := by
  obtain ⟨_, _, _, _, _, _, h⟩ := s.flush_changes; rw [h]; rfl
@[simp] theorem State.flush_hostQueue : s.flush.hostQueue = s.hostQueue := by
  obtain ⟨_, _, _, _, _, _, h⟩ := s.flush_changes; rw [h]; rfl
@[simp] theorem State.flush_hostRead : s.flush.hostRead = s.hostRead := by
  obtain ⟨_, _, _, _, _, _, h⟩ := s.flush_changes; rw [h]; rfl

/-- A received byte changes BRAM, the queue, EVQ_OVF and the parser only (42_packet.md R168). -/
theorem State.rxByte_changes (b : Byte) :
    ∃ m q f, s.rxByte b = (((s.setBram m).setEvq q).setEvqOvf f).setPkt (rxStep s.pkt b).pkt := by
  cases hs : (rxStep s.pkt b).store with
  | none =>
    cases he : (rxStep s.pkt b).event with
    | none => exact ⟨s.bram, s.evq, s.evqOvf, by simp only [State.rxByte, hs, he]; rfl⟩
    | some e =>
      obtain ⟨q, f, h⟩ := s.emit_changes e
      exact ⟨s.bram, q, f, by simp only [State.rxByte, hs, he, h]; rfl⟩
  | some w =>
    obtain ⟨m, h⟩ := s.writeBram_changes w.1 w.2
    cases he : (rxStep s.pkt b).event with
    | none => exact ⟨m, s.evq, s.evqOvf, by simp only [State.rxByte, hs, he, h]; rfl⟩
    | some e =>
      obtain ⟨q, f, h'⟩ := (s.setBram m).emit_changes e
      exact ⟨m, q, f, by simp only [State.rxByte, hs, he, h, h']⟩

/-- The parser's state after a byte is the pure step's. -/
@[simp] theorem State.rxByte_pkt (b : Byte) : (s.rxByte b).pkt = (rxStep s.pkt b).pkt := rfl

@[simp] theorem State.rxByte_cfg (b : Byte) : (s.rxByte b).cfg = s.cfg := by
  obtain ⟨_, _, _, h⟩ := s.rxByte_changes b; rw [h]; rfl
@[simp] theorem State.rxByte_irqEn (b : Byte) : (s.rxByte b).irqEn = s.irqEn := by
  obtain ⟨_, _, _, h⟩ := s.rxByte_changes b; rw [h]; rfl
@[simp] theorem State.rxByte_status (b : Byte) : (s.rxByte b).status = s.status := by
  obtain ⟨_, _, _, h⟩ := s.rxByte_changes b; rw [h]; rfl
@[simp] theorem State.rxByte_arg0 (b : Byte) : (s.rxByte b).arg0 = s.arg0 := by
  obtain ⟨_, _, _, h⟩ := s.rxByte_changes b; rw [h]; rfl
@[simp] theorem State.rxByte_arg1 (b : Byte) : (s.rxByte b).arg1 = s.arg1 := by
  obtain ⟨_, _, _, h⟩ := s.rxByte_changes b; rw [h]; rfl
@[simp] theorem State.rxByte_arg2 (b : Byte) : (s.rxByte b).arg2 = s.arg2 := by
  obtain ⟨_, _, _, h⟩ := s.rxByte_changes b; rw [h]; rfl
@[simp] theorem State.rxByte_arg3 (b : Byte) : (s.rxByte b).arg3 = s.arg3 := by
  obtain ⟨_, _, _, h⟩ := s.rxByte_changes b; rw [h]; rfl
@[simp] theorem State.rxByte_res0 (b : Byte) : (s.rxByte b).res0 = s.res0 := by
  obtain ⟨_, _, _, h⟩ := s.rxByte_changes b; rw [h]; rfl
@[simp] theorem State.rxByte_res1 (b : Byte) : (s.rxByte b).res1 = s.res1 := by
  obtain ⟨_, _, _, h⟩ := s.rxByte_changes b; rw [h]; rfl
@[simp] theorem State.rxByte_sreq (b : Byte) : (s.rxByte b).sreq = s.sreq := by
  obtain ⟨_, _, _, h⟩ := s.rxByte_changes b; rw [h]; rfl
@[simp] theorem State.rxByte_dtmf (b : Byte) : (s.rxByte b).dtmf = s.dtmf := by
  obtain ⟨_, _, _, h⟩ := s.rxByte_changes b; rw [h]; rfl
@[simp] theorem State.rxByte_pi (b : Byte) : (s.rxByte b).pi = s.pi := by
  obtain ⟨_, _, _, h⟩ := s.rxByte_changes b; rw [h]; rfl
@[simp] theorem State.rxByte_emo (b : Byte) : (s.rxByte b).emo = s.emo := by
  obtain ⟨_, _, _, h⟩ := s.rxByte_changes b; rw [h]; rfl
@[simp] theorem State.rxByte_orch (b : Byte) : (s.rxByte b).orch = s.orch := by
  obtain ⟨_, _, _, h⟩ := s.rxByte_changes b; rw [h]; rfl
@[simp] theorem State.rxByte_hostQueue (b : Byte) : (s.rxByte b).hostQueue = s.hostQueue := by
  obtain ⟨_, _, _, h⟩ := s.rxByte_changes b; rw [h]; rfl
@[simp] theorem State.rxByte_hostRead (b : Byte) : (s.rxByte b).hostRead = s.hostRead := by
  obtain ⟨_, _, _, h⟩ := s.rxByte_changes b; rw [h]; rfl

/-- A run of received bytes changes BRAM, the queue, EVQ_OVF and the parser only (42_packet.md R178). -/
theorem State.rxStream_changes (bs : List Byte) :
    ∃ m q f p, (s.rxStream bs).1 = (((s.setBram m).setEvq q).setEvqOvf f).setPkt p := by
  induction bs generalizing s with
  | nil => exact ⟨s.bram, s.evq, s.evqOvf, s.pkt, rfl⟩
  | cons b bs ih =>
    obtain ⟨m, q, f, h⟩ := s.rxByte_changes b
    simp only [State.rxStream, h]
    split
    · exact ⟨m, q, f, _, rfl⟩
    · obtain ⟨m', q', f', p', h'⟩ := ih ((((s.setBram m).setEvq q).setEvqOvf f).setPkt (rxStep s.pkt b).pkt)
      exact ⟨m', q', f', p', by rw [h']; rfl⟩

@[simp] theorem State.rxStream_cfg (bs : List Byte) : (s.rxStream bs).1.cfg = s.cfg := by
  obtain ⟨_, _, _, _, h⟩ := s.rxStream_changes bs; rw [h]; rfl
@[simp] theorem State.rxStream_irqEn (bs : List Byte) : (s.rxStream bs).1.irqEn = s.irqEn := by
  obtain ⟨_, _, _, _, h⟩ := s.rxStream_changes bs; rw [h]; rfl
@[simp] theorem State.rxStream_status (bs : List Byte) : (s.rxStream bs).1.status = s.status := by
  obtain ⟨_, _, _, _, h⟩ := s.rxStream_changes bs; rw [h]; rfl
@[simp] theorem State.rxStream_arg0 (bs : List Byte) : (s.rxStream bs).1.arg0 = s.arg0 := by
  obtain ⟨_, _, _, _, h⟩ := s.rxStream_changes bs; rw [h]; rfl
@[simp] theorem State.rxStream_arg1 (bs : List Byte) : (s.rxStream bs).1.arg1 = s.arg1 := by
  obtain ⟨_, _, _, _, h⟩ := s.rxStream_changes bs; rw [h]; rfl
@[simp] theorem State.rxStream_arg2 (bs : List Byte) : (s.rxStream bs).1.arg2 = s.arg2 := by
  obtain ⟨_, _, _, _, h⟩ := s.rxStream_changes bs; rw [h]; rfl
@[simp] theorem State.rxStream_arg3 (bs : List Byte) : (s.rxStream bs).1.arg3 = s.arg3 := by
  obtain ⟨_, _, _, _, h⟩ := s.rxStream_changes bs; rw [h]; rfl
@[simp] theorem State.rxStream_res0 (bs : List Byte) : (s.rxStream bs).1.res0 = s.res0 := by
  obtain ⟨_, _, _, _, h⟩ := s.rxStream_changes bs; rw [h]; rfl
@[simp] theorem State.rxStream_res1 (bs : List Byte) : (s.rxStream bs).1.res1 = s.res1 := by
  obtain ⟨_, _, _, _, h⟩ := s.rxStream_changes bs; rw [h]; rfl
@[simp] theorem State.rxStream_sreq (bs : List Byte) : (s.rxStream bs).1.sreq = s.sreq := by
  obtain ⟨_, _, _, _, h⟩ := s.rxStream_changes bs; rw [h]; rfl
@[simp] theorem State.rxStream_dtmf (bs : List Byte) : (s.rxStream bs).1.dtmf = s.dtmf := by
  obtain ⟨_, _, _, _, h⟩ := s.rxStream_changes bs; rw [h]; rfl
@[simp] theorem State.rxStream_pi (bs : List Byte) : (s.rxStream bs).1.pi = s.pi := by
  obtain ⟨_, _, _, _, h⟩ := s.rxStream_changes bs; rw [h]; rfl
@[simp] theorem State.rxStream_emo (bs : List Byte) : (s.rxStream bs).1.emo = s.emo := by
  obtain ⟨_, _, _, _, h⟩ := s.rxStream_changes bs; rw [h]; rfl
@[simp] theorem State.rxStream_orch (bs : List Byte) : (s.rxStream bs).1.orch = s.orch := by
  obtain ⟨_, _, _, _, h⟩ := s.rxStream_changes bs; rw [h]; rfl
@[simp] theorem State.rxStream_hostQueue (bs : List Byte) : (s.rxStream bs).1.hostQueue = s.hostQueue := by
  obtain ⟨_, _, _, _, h⟩ := s.rxStream_changes bs; rw [h]; rfl
@[simp] theorem State.rxStream_hostRead (bs : List Byte) : (s.rxStream bs).1.hostRead = s.hostRead := by
  obtain ⟨_, _, _, _, h⟩ := s.rxStream_changes bs; rw [h]; rfl

end Sys2Proof.Machine
end

