-- ==== Sys2Proof/Laws/Memory.lean ====
section
/-! SUPPORT. The laws of BRAM: a read after a write, the canonical form kept, and what a run of stores leaves. -/

namespace Sys2Proof.Machine

/-- Reading below every entry finds the fill byte. -/
theorem Memory.read_below {m : Memory} {a : Nat} (h : ∀ c ∈ m, a < c.1) : Memory.read m a = Memory.fill := by
  induction m with
  | nil => rfl
  | cons c m ih =>
    have hc := h c (by simp)
    simp only [Memory.read, if_neg (by omega : ¬ a = c.1)]
    exact ih (fun d hd => h d (by simp [hd]))

/-- The entries of a memory after a store are the old ones and the stored one. -/
theorem Memory.mem_write {m : Memory} {a : Nat} {b : Byte} {c : Host.Cell} (h : c ∈ Memory.write m a b) :
    c ∈ m ∨ (c = (a, b) ∧ b ≠ Memory.fill) := by
  induction m with
  | nil =>
    unfold Memory.write at h; split at h
    · simp at h
    · right; exact ⟨by simpa using h, ‹_›⟩
  | cons d m ih =>
    unfold Memory.write at h
    split at h
    · split at h
      · exact .inl h
      · rcases List.mem_cons.1 h with h | h
        · exact .inr ⟨h, ‹_›⟩
        · exact .inl h
    · split at h
      · split at h
        · exact .inl (by simp [h])
        · rcases List.mem_cons.1 h with h | h
          · exact .inr ⟨h, ‹_›⟩
          · exact .inl (by simp [h])
      · rcases List.mem_cons.1 h with h | h
        · exact .inl (by simp [h])
        · rcases ih h with h | h
          · exact .inl (by simp [h])
          · exact .inr h

/-- A store keeps the canonical form. -/
theorem Memory.wf_write {m : Memory} (h : m.wf) (a : Nat) (b : Byte) : (Memory.write m a b).wf := by
  obtain ⟨hs, hf⟩ := h
  refine ⟨?_, fun c hc => ?_⟩
  · induction m with
    | nil => unfold Memory.write; split <;> simp
    | cons d m ih =>
      obtain ⟨hd, hs'⟩ := List.pairwise_cons.1 hs
      unfold Memory.write
      split
      · split
        · exact hs
        · refine List.pairwise_cons.2 ⟨fun c hc => ?_, hs⟩
          rcases List.mem_cons.1 hc with rfl | hc
          · assumption
          · have := hd c hc; show a < c.1; omega
      · split
        · split
          · exact hs'
          · refine List.pairwise_cons.2 ⟨fun c hc => ?_, hs'⟩
            have := hd c hc; show a < c.1; omega
        · refine List.pairwise_cons.2 ⟨fun c hc => ?_, ih hs' (fun c hc => hf c (by simp [hc]))⟩
          rcases Memory.mem_write hc with hc | ⟨rfl, -⟩
          · exact hd c hc
          · show d.1 < a; omega
  · rcases Memory.mem_write hc with hc | ⟨rfl, hb⟩
    · exact hf c hc
    · exact hb

/-- A read after a store to the same address gives the stored byte. -/
theorem Memory.read_write_same {m : Memory} (h : m.wf) (a : Nat) (b : Byte) :
    Memory.read (Memory.write m a b) a = b := by
  obtain ⟨hs, -⟩ := h
  induction m with
  | nil => unfold Memory.write; split <;> simp_all [Memory.read]
  | cons d m ih =>
    obtain ⟨hd, hs'⟩ := List.pairwise_cons.1 hs
    unfold Memory.write
    split
    · split
      · subst b
        exact Memory.read_below (fun c hc => by
          rcases List.mem_cons.1 hc with rfl | hc
          · assumption
          · have := hd c hc; omega)
      · simp [Memory.read]
    · split
      · split
        · subst b
          exact Memory.read_below (fun c hc => by have := hd c hc; omega)
        · simp [Memory.read]
      · simp only [Memory.read, if_neg ‹¬ a = d.1›]; exact ih hs'

/-- A store leaves every other address alone. -/
theorem Memory.read_write_ne (m : Memory) {a x : Nat} (b : Byte) (hx : x ≠ a) :
    Memory.read (Memory.write m a b) x = Memory.read m x := by
  induction m with
  | nil => unfold Memory.write; split <;> simp [Memory.read, hx]
  | cons d m ih =>
    unfold Memory.write
    split
    · split
      · rfl
      · simp [Memory.read, hx]
    · split
      · rename_i h
        have hd : x ≠ d.1 := h ▸ hx
        split <;> simp [Memory.read, hx, hd]
      · simp only [Memory.read, ih]

/-- The memory a power-on brings is canonical. -/
theorem Memory.wf_ofCells (size : Nat) (cells : List Host.Cell) : (Memory.ofCells size cells).wf := by
  suffices h : ∀ m : Memory, m.wf →
      (cells.foldl (fun m c => if c.1 < size then Memory.write m c.1 c.2 else m) m).wf from
    h [] ⟨List.Pairwise.nil, by simp⟩
  induction cells with
  | nil => exact fun m h => h
  | cons c cells ih =>
    intro m h
    refine ih _ ?_
    show Memory.wf (if c.1 < size then Memory.write m c.1 c.2 else m)
    split
    · exact Memory.wf_write h _ _
    · exact h

/-- The reset memory is canonical. -/
theorem State.reset_bram_wf : State.reset.bram.wf := ⟨List.Pairwise.nil, by simp [State.reset, State.powerOn]⟩

variable (s : State)

/-- A BRAM store keeps the canonical form. -/
theorem State.writeBram_wf (h : s.bram.wf) (a : Nat) (b : Byte) : (s.writeBram a b).bram.wf := by
  unfold State.writeBram; split
  · exact Memory.wf_write h a b
  · exact h

/-- A run of BRAM stores keeps the canonical form. -/
theorem State.memWrite_wf (h : s.bram.wf) (a : Nat) (bs : List Byte) : (s.memWrite a bs).bram.wf := by
  induction bs generalizing s a with
  | nil => exact h
  | cons b bs ih => exact ih _ (s.writeBram_wf h a b) _

/-- One byte after a BRAM store. -/
theorem State.readBram_writeBram (h : s.bram.wf) (a x : Nat) (b : Byte) :
    (s.writeBram a b).readBram x = if x = a ∧ a < s.cfg.bramSize then b else s.readBram x := by
  unfold State.readBram
  rw [s.writeBram_cfg]
  by_cases hx : x = a
  · subst hx
    by_cases ha : x < s.cfg.bramSize
    · simp [State.writeBram, ha, Memory.read_write_same h]
    · simp [ha]
  · have hr : (s.writeBram a b).bram.read x = s.bram.read x := by
      unfold State.writeBram; split
      · exact Memory.read_write_ne _ b hx
      · rfl
    simp [hx, hr]

/-- A run of BRAM stores leaves every byte outside it, whatever form the memory has. -/
theorem State.readBram_memWrite_outside (a x : Nat) (bs : List Byte) (hx : ¬ (a ≤ x ∧ x < a + bs.length)) :
    (s.memWrite a bs).readBram x = s.readBram x := by
  induction bs generalizing s a with
  | nil => rfl
  | cons b bs ih =>
    simp only [List.length_cons] at hx
    show ((s.writeBram a b).memWrite (a + 1) bs).readBram x = _
    rw [ih _ _ (by omega)]
    unfold State.writeBram State.readBram; split
    · simp only [State.setBram, Memory.read_write_ne s.bram b (show x ≠ a by omega)]
    · rfl

/-- One byte after a run of BRAM stores: the stored byte inside the run, the old byte outside it. -/
theorem State.readBram_memWrite (h : s.bram.wf) (a x : Nat) (bs : List Byte) :
    (s.memWrite a bs).readBram x =
      if a ≤ x ∧ x < a + bs.length ∧ x < s.cfg.bramSize then bs.getD (x - a) 0#8 else s.readBram x := by
  induction bs generalizing s a with
  | nil => simp [State.memWrite]; intros; omega
  | cons b bs ih =>
    show ((s.writeBram a b).memWrite (a + 1) bs).readBram x = _
    rw [ih _ (s.writeBram_wf h a b), s.readBram_writeBram h, s.writeBram_cfg]
    by_cases hx : x = a
    · subst hx
      by_cases hb : x < s.cfg.bramSize <;> simp [hb]
    · by_cases h1 : a + 1 ≤ x ∧ x < a + 1 + bs.length ∧ x < s.cfg.bramSize
      · have h2 : a ≤ x ∧ x < a + (b :: bs).length ∧ x < s.cfg.bramSize := by simp; omega
        rw [if_pos h1, if_pos h2, show x - a = (x - (a + 1)) + 1 by omega]
        simp
      · have h2 : ¬ (a ≤ x ∧ x < a + (b :: bs).length ∧ x < s.cfg.bramSize) := by simp; omega
        rw [if_neg h1, if_neg h2, if_neg (by simp [hx])]

end Sys2Proof.Machine
end

