-- ==== Sys2Proof/Laws/Events.lean ====
section
/-! SUPPORT. The event queue: every record made is well-formed, and what emitting does to the queue in one step and in several. -/

namespace Sys2Proof.Machine

/-- A concatenation as a number. -/
theorem append_toNat {m n : Nat} (a : BitVec m) (b : BitVec n) :
    (a ++ b).toNat = a.toNat * 2 ^ n + b.toNat := by
  rw [BitVec.toNat_append, ← Nat.shiftLeft_add_eq_or_of_lt b.isLt, Nat.shiftLeft_eq]

/-- A bit as a number. -/
theorem ofBool_toNat (b : Bool) : (BitVec.ofBool b).toNat = b.toNat := by cases b <;> rfl

/-- Every record the model makes is well-formed. -/
theorem mkEvent_ok (k : EventKind) (lo hi : Byte) (b : Bool) (w1 w2 : Word) : (mkEvent k lo hi b w1 w2).Ok := by
  have h1 := lo.isLt
  have h2 := hi.isLt
  have h3 : 1 ≤ k.code.toNat ∧ k.code.toNat ≤ 10 := by cases k <;> decide
  have h4 : b.toNat ≤ 1 := by cases b <;> decide
  simp only [Event.Ok, mkEvent, append_toNat, ofBool_toNat]
  simp
  omega

theorem evDtmfDown_ok (c : Fin 16) : (evDtmfDown c).Ok := mkEvent_ok ..
theorem evDtmfUp_ok (c : Fin 16) (d : Word) : (evDtmfUp c d).Ok := mkEvent_ok ..
theorem evDacInstall_ok (b l : Word) : (evDacInstall b l).Ok := mkEvent_ok ..
theorem evDacStart_ok : evDacStart.Ok := mkEvent_ok ..
theorem evDacStop_ok : evDacStop.Ok := mkEvent_ok ..
theorem evAdcStart_ok : evAdcStart.Ok := mkEvent_ok ..
theorem evAdcStop_ok : evAdcStop.Ok := mkEvent_ok ..
theorem evPartial_ok (k : EventKind) (p : PktState) : (evPartial k p).Ok := mkEvent_ok ..
theorem evComplete_ok (p : PktState) : (evComplete p).Ok := mkEvent_ok ..

/-- `t`'s queue and overflow flag are those of `s` after emitting `es`. -/
def Emitted (s t : State) (es : List Event) : Prop := t.evq = evqAfter s es ∧ t.evqOvf = ovfAfter s es

/-- A state with the same queue and flag emitted nothing. -/
theorem Emitted.nil {s t : State} (h1 : t.evq = s.evq) (h2 : t.evqOvf = s.evqOvf) : Emitted s t [] := by
  simp [Emitted, evqAfter, ovfAfter, h1, h2]

/-- One Emit. -/
theorem emit_emitted (s : State) (e : Event) : Emitted s (s.emit e) [e] := by
  unfold State.emit
  split
  · rename_i h
    obtain ⟨d, hd⟩ : ∃ d, s.cfg.evqDepth - s.evq.length = d + 1 := ⟨s.cfg.evqDepth - s.evq.length - 1, by omega⟩
    simp [Emitted, evqAfter, ovfAfter, hd]
  · have hd : s.cfg.evqDepth - s.evq.length = 0 := by omega
    simp [Emitted, evqAfter, ovfAfter, hd]

/-- Emitting in two goes. -/
theorem Emitted.append {s t u : State} {es es' : List Event} (h : Emitted s t es) (hc : t.cfg = s.cfg)
    (h' : Emitted t u es') : Emitted s u (es ++ es') := by
  obtain ⟨h1, h2⟩ := h
  obtain ⟨h3, h4⟩ := h'
  have hl : t.evq.length = s.evq.length + min (s.cfg.evqDepth - s.evq.length) es.length := by
    rw [h1]; simp [evqAfter]
  have e : s.cfg.evqDepth - t.evq.length = s.cfg.evqDepth - s.evq.length - es.length := by omega
  refine ⟨?_, ?_⟩
  · rw [h3, evqAfter, hc, e, h1, evqAfter, evqAfter, List.append_assoc, List.take_append]
  · rw [h4, ovfAfter, hc, e, h2, ovfAfter, ovfAfter, Bool.or_assoc, List.length_append, ← Bool.decide_or]
    congr 1
    exact decide_eq_decide.2 ⟨by omega, by omega⟩

/-- A change elsewhere after emitting. -/
theorem Emitted.of_eq {s t u : State} {es : List Event} (h : Emitted s t es) (h1 : u.evq = t.evq)
    (h2 : u.evqOvf = t.evqOvf) : Emitted s u es := ⟨h1.trans h.1, h2.trans h.2⟩

/-- A change elsewhere before emitting. -/
theorem Emitted.of_eq_left {s t u : State} {es : List Event} (h : Emitted s t es) (h1 : s.evq = u.evq)
    (h2 : s.evqOvf = u.evqOvf) (h3 : s.cfg = u.cfg) : Emitted u t es := by
  obtain ⟨ha, hb⟩ := h
  exact ⟨by rw [ha, evqAfter, evqAfter, h1, h3], by rw [hb, ovfAfter, ovfAfter, h1, h2, h3]⟩

/-- Several Emits. -/
theorem emitAll_emitted (s : State) (es : List Event) : Emitted s (s.emitAll es) es := by
  induction es generalizing s with
  | nil => exact .nil rfl rfl
  | cons e es ih => exact (emit_emitted s e).append (s.emit_cfg e) (ih _)

/-- What the release of the held symbol emits, and how it moves the orchestrator. -/
theorem releaseHeld_emitted (s : State) : ∃ es, Emitted s s.releaseHeld es ∧ (∀ e ∈ es, e.Ok) ∧
    ((s.dtmf.held = none ∧ es = [] ∧ s.releaseHeld = s) ∨
      (s.orch.phase ≠ .waitingStop ∧ es.length = 1 ∧ s.releaseHeld.orch = s.orch ∧ s.releaseHeld.pi = s.pi) ∨
      (s.orch.phase = .waitingStop ∧ es.length = 2 ∧
        (s.releaseHeld.orch.phase = .done ∨ s.releaseHeld.orch.phase = .restart) ∧
        ∃ d, s.releaseHeld.pi = (piRx s.cfg d s.pi).1)) := by
  unfold State.releaseHeld
  split
  · exact ⟨[], .nil rfl rfl, by simp, .inl ⟨‹_›, rfl, rfl⟩⟩
  · rename_i c _
    unfold State.orchOnUp
    rw [State.emit_orch]
    split
    · rename_i hp
      refine ⟨[evDtmfUp c s.dtmf.dwell, evAdcStop], ?_, ?_, .inr (.inr ⟨hp, rfl, ?_, symChar c, by simp⟩)⟩
      · exact ((emit_emitted s _).append (s.emit_cfg _) (emit_emitted _ evAdcStop)).of_eq rfl rfl
      · simp only [List.mem_cons, List.not_mem_nil, or_false]
        rintro e (rfl | rfl)
        · exact evDtmfUp_ok ..
        · exact evAdcStop_ok
      · show (if _ then OrchPhase.done else OrchPhase.restart) = _ ∨ _
        simp; tauto
    · refine ⟨[evDtmfUp c s.dtmf.dwell], emit_emitted s _, ?_, .inr (.inl ⟨‹_›, rfl, by simp, by simp⟩)⟩
      simp only [List.mem_cons, List.not_mem_nil, or_false]
      rintro e rfl
      exact evDtmfUp_ok ..

/-- What a block's decision emits: at most three records. -/
theorem decideSymbol_emitted (s : State) (new : Option (Fin 16)) (n : Nat) :
    ∃ es, Emitted s (s.decideSymbol new n) es ∧ (∀ e ∈ es, e.Ok) ∧ es.length ≤ 3 := by
  unfold State.decideSymbol
  split
  · exact ⟨[], .nil rfl rfl, by simp, by simp⟩
  · obtain ⟨es, h1, h2, h3⟩ := releaseHeld_emitted s
    dsimp only
    have h1' : Emitted s (s.releaseHeld.setHeld new (BitVec.ofNat 32 n)) es := h1.of_eq rfl rfl
    cases new with
    | none => exact ⟨es, h1', h2, by rcases h3 with ⟨_, rfl, _⟩ | ⟨_, h, _⟩ | ⟨_, h, _⟩ <;> simp_all⟩
    | some c =>
      dsimp only
      have hcfg : (s.releaseHeld.setHeld (some c) (BitVec.ofNat 32 n)).cfg = s.cfg := s.releaseHeld_cfg
      have h4 := h1'.append hcfg (emit_emitted _ (evDtmfDown c))
      have hok : ∀ e ∈ es ++ [evDtmfDown c], e.Ok := by
        intro e he
        rcases List.mem_append.1 he with he | he
        · exact h2 e he
        · rw [List.mem_singleton.1 he]; exact evDtmfDown_ok c
      unfold State.orchOnDown
      split
      · rename_i hp
        rw [State.emit_orch] at hp
        have hp : s.releaseHeld.orch.phase = .sending := hp
        have h5 := h4.append (u := (((s.releaseHeld.setHeld (some c) (BitVec.ofNat 32 n)).emit (evDtmfDown c)).emit
          evDacStop).setOrchPhase .waitingStop) (by rw [State.emit_cfg, hcfg])
          ((emit_emitted _ evDacStop).of_eq rfl rfl)
        refine ⟨_, h5, ?_, ?_⟩
        · intro e he
          rcases List.mem_append.1 he with he | he
          · exact hok e he
          · rw [List.mem_singleton.1 he]; exact evDacStop_ok
        · rcases h3 with ⟨_, rfl, _⟩ | ⟨_, h, _⟩ | ⟨_, _, h, _⟩
          · simp
          · simp [h]
          · rw [hp] at h; simp at h
      · refine ⟨_, h4, hok, ?_⟩
        rcases h3 with ⟨_, rfl, _⟩ | ⟨_, h, _⟩ | ⟨_, h, _⟩ <;> simp_all

/-- What the flush emits: at most two records. -/
theorem flush_emitted (s : State) : ∃ es, Emitted s s.flush es ∧ (∀ e ∈ es, e.Ok) ∧ es.length ≤ 2 := by
  unfold State.flush
  split
  · exact ⟨[], .nil rfl rfl, by simp, by simp⟩
  · obtain ⟨es, h1, h2, h3⟩ := releaseHeld_emitted s
    exact ⟨es, h1.of_eq rfl rfl, h2, by rcases h3 with ⟨_, rfl, _⟩ | ⟨_, h, _⟩ | ⟨_, h, _⟩ <;> simp_all⟩

/-- Every event of the parser is well-formed. -/
theorem rxStep_event_ok (p : PktState) (b : Byte) : ∀ e ∈ (rxStep p b).event, e.Ok := by
  unfold rxStep
  split
  · split <;> simp [startFrame, RxStep.quiet]
  · split
    · unfold rxFlag; split
      · simp [RxStep.quiet]
      · intro e he; cases he; exact evPartial_ok _ _
    · split
      · unfold rxEscape; split <;> simp [RxStep.quiet]
      · unfold rxLiteral
        split
        all_goals try (simp [RxStep.quiet, storeByte]; done)
        · unfold rxLength
          dsimp only
          split
          · intro e he; cases he; exact evPartial_ok _ _
          · split <;> simp [storeByte]
        · intro e he; cases he; exact evComplete_ok _

/-- A received byte emits what its parser step says. -/
theorem rxByte_emitted (s : State) (b : Byte) : Emitted s (s.rxByte b) (rxStep s.pkt b).event.toList := by
  unfold State.rxByte
  dsimp only
  have hb : ∀ st : Option (Nat × Byte), (match st with | none => s | some w => s.writeBram w.1 w.2).evq = s.evq ∧
      (match st with | none => s | some w => s.writeBram w.1 w.2).evqOvf = s.evqOvf ∧
      (match st with | none => s | some w => s.writeBram w.1 w.2).cfg = s.cfg := by
    intro st; cases st <;> simp
  obtain ⟨h1, h2, h3⟩ := hb (rxStep s.pkt b).store
  cases (rxStep s.pkt b).event with
  | none => exact .nil h1 h2
  | some e => exact ((emit_emitted _ e).of_eq_left h1 h2 h3).of_eq rfl rfl

/-- A stream emits at most one record. -/
theorem rxStream_emitted (s : State) (bs : List Byte) :
    ∃ es, Emitted s (s.rxStream bs).1 es ∧ (∀ e ∈ es, e.Ok) ∧ es.length ≤ 1 := by
  induction bs generalizing s with
  | nil => exact ⟨[], .nil rfl rfl, by simp, by simp⟩
  | cons b bs ih =>
    unfold State.rxStream
    dsimp only
    have h := rxByte_emitted s b
    have hok := rxStep_event_ok s.pkt b
    cases hev : (rxStep s.pkt b).event with
    | some e =>
      rw [hev] at h hok
      exact ⟨[e], h, by simpa using hok, by simp⟩
    | none =>
      rw [hev] at h
      obtain ⟨es, h1, h2, h3⟩ := ih (s.rxByte b)
      exact ⟨es, by simpa using h.append (s.rxByte_cfg b) h1, h2, h3⟩

end Sys2Proof.Machine
end

