-- ==== Sys2Proof/Laws/Exec.lean ====
section
/-! SUPPORT. Everything a command can do, said once: it fails and writes STATUS.CODE only, or it does what `Done` says. Statements about all commands start from `exec_inv`. -/

namespace Sys2Proof.Machine

/-- The state a command that passed its checks leaves, by command. -/
def Done (s t : State) : Instr → Prop
  | .nop => t = s.setStatus .okay
  | .sinePopulate k => ∃ r st, s.slot? k = some r ∧ (st = .okay ∨ st = .invalid) ∧
      t = (s.setSreq k (populated s)).setStatus st
  | .sineGen k => ∃ r, s.slot? k = some r ∧ sineFault s.cfg r = none ∧
      generateInto s k r (genLen r) (phaseErrGen r (genLen r)) = .next t
  | .sineFill k => ∃ r, s.slot? k = some r ∧ sineFault s.cfg r = none ∧
      generateInto s k r r.bufLen.toNat (phaseErrFill r) = .next t
  | .sineSample => ∃ v, t = (s.setRes0 v).setStatus .okay
  | .sineMix => ∃ a bs, t = (s.memWrite a bs).setStatus .okay
  | .dtmfInit => s.arg0 ≠ 0#32 ∧ t = (s.setDtmf (dtmfInit (gnumOf s.cfg) s.arg0 s.arg1)).setStatus .okay
  | .dtmfBlock => s.dtmf.init = true ∧
      ((s.arg1 = 0#32 ∧ t = (s.flush.setRes0 16#32).setStatus .okay) ∨
        ∃ new n v, s.arg1 ≠ 0#32 ∧ t = ((s.decideSymbol new n).setRes0 v).setStatus .okay)
  | .pktFcs => ∃ v, t = (s.setRes0 v).setStatus .okay
  | .pktFrame => ∃ a bs v, t = ((s.memWrite a bs).setRes0 v).setStatus .okay
  | .pktRxinit => s.arg0 ≠ 0#32 ∧ Config.hdr ≤ s.arg1.toNat ∧ inRange s.cfg s.arg0.toNat s.arg1.toNat ∧
      t = (s.setPkt (rxInit s.arg0 s.arg1)).setStatus .okay
  | .pktRxbyte => s.pkt.init = true ∧ t = (s.rxByte (field8 s.arg0)).setStatus .okay
  | .pktRxstream => s.pkt.init = true ∧
      ∃ bs v, t = ((s.rxStream bs).1.setRes0 v).setStatus .okay
  | .piNext => t = (s.setRes0 ((piNext s.cfg s.pi).setWidth 32)).setStatus .okay
  | .piRx => ∃ v, t = ((s.setPi (piRx s.cfg (field8 s.arg0) s.pi).1).setRes0 v).setStatus
      (piRx s.cfg (field8 s.arg0) s.pi).2
  | .piReset => t = (s.setPi (.pos 0)).setStatus .okay
  | .emoInit => t = (s.setEmo ⟨.lonely, s.arg0⟩).setStatus .okay
  | .emoUpdate => ∃ e v, t = ((s.setEmo e).setRes0 v).setStatus .okay
  | .orchTick =>
      (s.orch.phase ≠ .idle ∧ s.emo.emotion ≠ .bored ∧ t = (s.stopAll.setOrchPhase .idle).setStatus .okay) ∨
      ((s.orch.phase = .idle ∨ s.emo.emotion = .bored) ∧
        ((s.orch.phase = .idle ∧ s.emo.emotion ≠ .bored ∧ t = s.setStatus .okay) ∨
          ((s.orch.phase = .sending ∨ s.orch.phase = .waitingStop) ∧ t = s.setStatus .okay) ∨
          ((s.orch.phase = .idle ∨ s.orch.phase = .done) ∧ s.emo.emotion = .bored ∧
            t = (s.setOrchPhase .waitingSend).setStatus .okay) ∨
          (s.orch.phase = .restart ∧
            t = ((s.stopAll.setPi (.pos 0)).setOrchPhase .waitingSend).setStatus .okay) ∨
          (s.orch.phase = .waitingSend ∧ ∃ bs x y z, bs.length = s.orch.dacLen.toNat ∧ x.Ok ∧ y.Ok ∧ z.Ok ∧
            t = (((s.memWrite s.orch.dacBuf.toNat bs).emitAll [x, y, z]).setOrchPhase .sending).setStatus .okay)))
  | .evtPop => ∃ e q, s.evq = e :: q ∧ t = (s.setEvq q).setStatus .okay
  | .evtClear => t = ((s.setEvq []).setEvqOvf false).setStatus .okay

/-- The failures a command may report, NOT_FOUND only when PI_NEXT's character has no symbol code. -/
def Failed (s t : State) (i : Instr) : Prop :=
  ∃ st : Status, st ∈ mayEnd i ∧ st.isFailure = true ∧ t = s.setStatus st ∧
    (st = .notFound → symIndex (piNext s.cfg s.pi) = none)

theorem raise_inv {s t : State} {st : Status} (h : raise s st = .next t) : t = s.setStatus st := by
  simp only [raise, Host.Outcome.next.injEq] at h; exact h.symm

theorem finish_inv {s t : State} {st : Status} (h : finish s st = .next t) : t = s.setStatus st := by
  simp only [finish, Host.Outcome.next.injEq] at h; exact h.symm

theorem Failed.of_raise {s t : State} {i : Instr} {st : Status} (h : raise s st = .next t)
    (h1 : st ∈ mayEnd i) (h2 : st.isFailure = true) (h3 : st ≠ .notFound) : Failed s t i :=
  ⟨st, h1, h2, raise_inv h, fun h => absurd h h3⟩

/-- What the check of a buffer can report. -/
theorem bufferFault_inv {c : Config} {a n : Nat} {st : Status} (h : bufferFault c a n = some st) :
    st = .invalid ∨ st = .erange := by
  unfold bufferFault at h
  split at h
  · simp_all
  · split at h <;> simp_all

/-- What the check of a sine request can report. -/
theorem sineFault_inv {c : Config} {r : SineReq} {st : Status} (h : sineFault c r = some st) :
    st = .invalid ∨ st = .undersampled ∨ st = .erange := by
  unfold sineFault at h
  repeat' split at h
  all_goals simp_all

/-- Every command: a failure, or the effect its rule gives it. -/
theorem exec_inv {i : Instr} {s t : State} (h : exec i s = .next t) : Failed s t i ∨ Done s t i := by
  cases i with
  | nop => exact .inr (finish_inv h)
  | sinePopulate k =>
    change execSinePopulate k s = _ at h
    unfold execSinePopulate at h
    split at h
    · exact .inl (.of_raise h (by simp [mayEnd]) rfl (by simp))
    · dsimp only at h
      split at h
      · exact .inr ⟨_, _, ‹_›, .inr rfl, raise_inv h⟩
      · exact .inr ⟨_, _, ‹_›, .inl rfl, finish_inv h⟩
  | sineGen k =>
    change execSineGen k s = _ at h
    unfold execSineGen at h
    split at h
    · exact .inl (.of_raise h (by simp [mayEnd]) rfl (by simp))
    · split at h
      · rename_i hf
        rcases sineFault_inv hf with rfl | rfl | rfl <;>
          exact .inl (.of_raise h (by simp [mayEnd]) rfl (by simp))
      · exact .inr ⟨_, ‹_›, ‹_›, h⟩
  | sineFill k =>
    change execSineFill k s = _ at h
    unfold execSineFill at h
    split at h
    · exact .inl (.of_raise h (by simp [mayEnd]) rfl (by simp))
    · split at h
      · rename_i hf
        rcases sineFault_inv hf with rfl | rfl | rfl <;>
          exact .inl (.of_raise h (by simp [mayEnd]) rfl (by simp))
      · exact .inr ⟨_, ‹_›, ‹_›, h⟩
  | sineSample =>
    change execSineSample s = _ at h
    unfold execSineSample at h
    split at h
    · exact .inl (.of_raise h (by simp [mayEnd]) rfl (by simp))
    · exact .inr ⟨_, finish_inv h⟩
  | sineMix =>
    change execSineMix s = _ at h
    unfold execSineMix at h
    dsimp only at h
    split at h
    · exact .inr ⟨0, [], finish_inv h⟩
    · split at h
      · exact .inl (.of_raise h (by simp [mayEnd]) rfl (by simp))
      · split at h
        · exact .inl (.of_raise h (by simp [mayEnd]) rfl (by simp))
        · exact .inr ⟨_, _, finish_inv h⟩
  | dtmfInit =>
    change execDtmfInit s = _ at h
    unfold execDtmfInit at h
    split at h
    · exact .inl (.of_raise h (by simp [mayEnd]) rfl (by simp))
    · exact .inr ⟨‹_›, finish_inv h⟩
  | dtmfBlock =>
    change execDtmfBlock s = _ at h
    unfold execDtmfBlock at h
    dsimp only at h
    split at h
    · exact .inl (.of_raise h (by simp [mayEnd]) rfl (by simp))
    · rename_i hi
      split at h
      · rename_i hn
        exact .inr ⟨by simpa using hi, .inl ⟨BitVec.eq_of_toNat_eq (by simpa using hn), finish_inv h⟩⟩
      · rename_i hn
        split at h
        · rename_i hf
          rcases bufferFault_inv hf with rfl | rfl <;>
            exact .inl (.of_raise h (by simp [mayEnd]) rfl (by simp))
        · exact .inr ⟨by simpa using hi, .inr ⟨_, _, _, fun h0 => hn (by rw [h0]; rfl), finish_inv h⟩⟩
  | pktFcs =>
    change execPktFcs s = _ at h
    unfold execPktFcs at h
    dsimp only at h
    split at h
    · exact .inr ⟨_, finish_inv h⟩
    · split at h
      · rename_i hf
        rcases bufferFault_inv hf with rfl | rfl <;>
          exact .inl (.of_raise h (by simp [mayEnd]) rfl (by simp))
      · exact .inr ⟨_, finish_inv h⟩
  | pktFrame =>
    change execPktFrame s = _ at h
    unfold execPktFrame at h
    dsimp only at h
    split at h
    · exact .inl (.of_raise h (by simp [mayEnd]) rfl (by simp))
    · split at h
      · rename_i hf
        unfold frameSourceFault at hf
        split at hf
        · simp at hf
        · rcases bufferFault_inv hf with rfl | rfl <;>
            exact .inl (.of_raise h (by simp [mayEnd]) rfl (by simp))
      · split at h
        · exact .inl (.of_raise h (by simp [mayEnd]) rfl (by simp))
        · split at h
          · exact .inl (.of_raise h (by simp [mayEnd]) rfl (by simp))
          · exact .inr ⟨_, _, _, finish_inv h⟩
  | pktRxinit =>
    change execPktRxinit s = _ at h
    unfold execPktRxinit at h
    split at h
    · exact .inl (.of_raise h (by simp [mayEnd]) rfl (by simp))
    · split at h
      · exact .inl (.of_raise h (by simp [mayEnd]) rfl (by simp))
      · rename_i h1 h2
        push Not at h1 h2
        exact .inr ⟨h1.1, h1.2, h2, finish_inv h⟩
  | pktRxbyte =>
    change execPktRxbyte s = _ at h
    unfold execPktRxbyte at h
    split at h
    · exact .inl (.of_raise h (by simp [mayEnd]) rfl (by simp))
    · rename_i hi
      exact .inr ⟨by simpa using hi, finish_inv h⟩
  | pktRxstream =>
    change execPktRxstream s = _ at h
    unfold execPktRxstream at h
    dsimp only at h
    split at h
    · exact .inl (.of_raise h (by simp [mayEnd]) rfl (by simp))
    · rename_i hi
      split at h
      · exact .inr ⟨by simpa using hi, [], _, finish_inv h⟩
      · split at h
        · rename_i hf
          rcases bufferFault_inv hf with rfl | rfl <;>
            exact .inl (.of_raise h (by simp [mayEnd]) rfl (by simp))
        · exact .inr ⟨by simpa using hi, _, _, finish_inv h⟩
  | piNext => exact .inr (finish_inv h)
  | piRx => exact .inr ⟨_, finish_inv h⟩
  | piReset => exact .inr (finish_inv h)
  | emoInit => exact .inr (finish_inv h)
  | emoUpdate => exact .inr ⟨_, _, finish_inv h⟩
  | orchTick =>
    change execOrchTick s = _ at h
    unfold execOrchTick at h
    split at h
    · rename_i hc
      exact .inr (.inl ⟨hc.1, hc.2, finish_inv h⟩)
    · rename_i hc
      have hc : s.orch.phase = .idle ∨ s.emo.emotion = .bored := by tauto
      split at h
      · rename_i hp
        split at h
        · exact .inr (.inr ⟨hc, .inr (.inr (.inl ⟨.inl hp, ‹_›, finish_inv h⟩))⟩)
        · exact .inr (.inr ⟨hc, .inl ⟨hp, ‹_›, finish_inv h⟩⟩)
      · rename_i hp
        unfold sendDigit at h
        dsimp only at h
        split at h
        · exact .inl (.of_raise h (by simp [mayEnd]) rfl (by simp))
        · split at h
          · rename_i hn
            exact .inl ⟨_, by simp [mayEnd], rfl, raise_inv h, fun _ => hn⟩
          · split at h
            · exact .inl (.of_raise h (by simp [mayEnd]) rfl (by simp))
            · split at h
              · exact .inl (.of_raise h (by simp [mayEnd]) rfl (by simp))
              · exact .inr (.inr ⟨hc, .inr (.inr (.inr (.inr ⟨hp, _, _, _, _, by simp [synth], evDacInstall_ok .., evDacStart_ok, evAdcStart_ok, finish_inv h⟩)))⟩)
      · exact .inr (.inr ⟨hc, .inr (.inl ⟨.inl ‹_›, finish_inv h⟩)⟩)
      · exact .inr (.inr ⟨hc, .inr (.inl ⟨.inr ‹_›, finish_inv h⟩)⟩)
      · rename_i hp
        have hb : s.emo.emotion = .bored := by rcases hc with hc | hc <;> simp_all
        exact .inr (.inr ⟨hc, .inr (.inr (.inl ⟨.inr hp, hb, finish_inv h⟩))⟩)
      · exact .inr (.inr ⟨hc, .inr (.inr (.inr (.inl ⟨‹_›, finish_inv h⟩)))⟩)
  | evtPop =>
    change execEvtPop s = _ at h
    unfold execEvtPop at h
    split at h
    · exact .inl (.of_raise h (by simp [mayEnd]) rfl (by simp))
    · exact .inr ⟨_, _, ‹_›, finish_inv h⟩
  | evtClear => exact .inr (finish_inv h)

end Sys2Proof.Machine
end

