-- ==== Sys2Proof/Laws/Gnum.lean ====
section
/-! SUPPORT. Binary32 is a lawful GNUM, and so is every machine's (00_scope.md R18; log 8). -/

namespace Sys2Proof.Machine

/-! ### Patterns and what they stand for -/

/-- The magnitude of the pattern p without its sign, in units of 2^-149. -/
def f32Mag (p : Nat) : Nat := if p / 2 ^ 23 = 0 then p % 2 ^ 23 else (2 ^ 23 + p % 2 ^ 23) * 2 ^ (p / 2 ^ 23 - 1)

/-- A word is a sign over a magnitude pattern. -/
theorem F32.ofBits_eq (w : Word) : F32.ofBits w =
    let p := w.toNat % 2 ^ 31
    if p / 2 ^ 23 = 255 then (if p % 2 ^ 23 = 0 then .inf (w.getLsbD 31) else .nan) else .fin (w.getLsbD 31) (f32Mag p) := by
  have h1 : (w.extractLsb' 23 8).toNat = w.toNat % 2 ^ 31 / 2 ^ 23 := by
    simp [BitVec.extractLsb'_toNat, Nat.shiftRight_eq_div_pow]; omega
  have h2 : (w.extractLsb' 0 23).toNat = w.toNat % 2 ^ 31 % 2 ^ 23 := by
    simp [BitVec.extractLsb'_toNat]
  unfold F32.ofBits f32Mag
  simp only [h1, h2]
  split
  · rfl
  · split <;> rfl

/-- What a finite or infinite pattern with a chosen sign stands for. -/
theorem F32.ofBits_signed (neg : Bool) {p : Nat} (h : p ≤ 0x7F800000) :
    F32.ofBits (signed neg p) = if p = 0x7F800000 then .inf neg else .fin neg (f32Mag p) := by
  have hp : (signed neg p).toNat % 2 ^ 31 = p := by cases neg <;> simp [signed] <;> omega
  have hs : (signed neg p).getLsbD 31 = neg := by
    rw [← BitVec.testBit_toNat, Nat.testBit_eq_decide_div_mod_eq]
    cases neg <;> simp [signed] <;> omega
  rw [F32.ofBits_eq, hp, hs]
  by_cases hq : p = 0x7F800000
  · subst hq; rfl
  · rw [if_neg hq, if_neg (by omega)]

theorem roundMag_le (n d : Nat) : roundMag n d ≤ 0x7F800000 := by unfold roundMag; dsimp only; omega

/-- Rounding depends on the ratio only. -/
theorem roundMag_scale (n d c : Nat) (hc : 0 < c) : roundMag (n * c) (d * c) = roundMag n d := by
  unfold roundMag; dsimp only
  have h1 : n * c * 2 ^ 149 = c * (n * 2 ^ 149) := by ring
  have h2 : d * c = c * d := by ring
  rw [h1, h2, Nat.mul_div_mul_left _ _ hc]
  congr 2
  rw [Nat.mul_assoc]
  generalize n * 2 ^ 149 = a
  generalize d * 2 ^ ((a / d).log2 - 23) = b
  unfold roundHalfEven
  rw [Nat.mul_mod_mul_left, Nat.mul_div_mul_left _ _ hc]
  have e1 : 2 * (c * (a % b)) > c * b ↔ 2 * (a % b) > b := by
    rw [show 2 * (c * (a % b)) = c * (2 * (a % b)) by ring]; exact Nat.mul_lt_mul_left hc
  have e2 : 2 * (c * (a % b)) = c * b ↔ 2 * (a % b) = b := by
    rw [show 2 * (c * (a % b)) = c * (2 * (a % b)) by ring]; exact Nat.mul_right_inj (by omega)
  simp only [e1, e2]

/-- A ratio of at most 2^k rounds to a pattern whose exponent is bounded. -/
theorem roundMag_le_of {n d : Nat} (k : Nat) (h : n ≤ 2 ^ k * d) : roundMag n d ≤ (k + 128) * 2 ^ 23 := by
  unfold roundMag; dsimp only
  rcases Nat.eq_zero_or_pos d with rfl | hd
  · have : n = 0 := by omega
    subst this
    have : min (((0 * 2 ^ 149 / 0 : Nat).log2 - 23) * 2 ^ 23 + roundHalfEven (0 * 2 ^ 149) (0 * 2 ^ ((0 * 2 ^ 149 / 0 : Nat).log2 - 23))) 0x7F800000 = 0 := by decide
    rw [this]; exact Nat.zero_le _
  have h0 : n * 2 ^ 149 / d ≤ 2 ^ (k + 149) := by
    rw [Nat.div_le_iff_le_mul_add_pred hd, pow_add]; nlinarith [Nat.mul_le_mul_right (2 ^ 149) h]
  obtain ⟨a, ha⟩ : ∃ a, a = n * 2 ^ 149 := ⟨_, rfl⟩
  rw [← ha] at h0 ⊢
  obtain ⟨e, hl⟩ : ∃ e, e = (a / d).log2 - 23 := ⟨_, rfl⟩
  rw [← hl]
  have hlog : (a / d).log2 ≤ k + 149 := by
    rcases Nat.eq_zero_or_pos (a / d) with h | h
    · rw [h]; simp
    · exact (Nat.log2_lt (by omega)).2 (lt_of_le_of_lt h0 (Nat.pow_lt_pow_right (by omega) (Nat.lt_succ_self _))) |> Nat.le_of_lt_succ
  have hq : a / (d * 2 ^ e) < 2 ^ 24 := by
    rw [← Nat.div_div_eq_div_mul, Nat.div_lt_iff_lt_mul (by positivity), ← pow_add]
    refine lt_of_lt_of_le Nat.lt_log2_self (Nat.pow_le_pow_right (by omega) (by omega))
  have : roundHalfEven a (d * 2 ^ e) ≤ 2 ^ 24 := by unfold roundHalfEven; split <;> omega
  have he : e * 2 ^ 23 ≤ (k + 126) * 2 ^ 23 := Nat.mul_le_mul_right _ (by omega)
  refine (Nat.min_le_left _ _).trans ((Nat.add_le_add he this).trans (Nat.le_of_eq ?_))
  rw [show k + 128 = k + 126 + 2 by omega, Nat.add_mul (k + 126)]; rfl

/-- A magnitude of the format rounds to its own pattern. -/
theorem roundMag_f32Mag {p : Nat} (h : p < 0x7F800000) : roundMag (f32Mag p) (2 ^ 149) = p := by
  unfold roundMag; dsimp only
  rw [Nat.mul_div_cancel _ (show 0 < 2 ^ 149 by positivity)]
  obtain ⟨D, hD, hD0⟩ : ∃ D : Nat, D = 2 ^ 149 ∧ 0 < D := ⟨_, rfl, by positivity⟩
  rw [← hD]
  have key : ∀ e, (f32Mag p).log2 - 23 = e → f32Mag p % 2 ^ e = 0 → e * 2 ^ 23 + f32Mag p / 2 ^ e = p →
      min (((f32Mag p).log2 - 23) * 2 ^ 23 + roundHalfEven (f32Mag p * D) (D * 2 ^ ((f32Mag p).log2 - 23))) 0x7F800000 = p := by
    intro e he hm hp
    rw [he]
    have h1 : f32Mag p * D % (D * 2 ^ e) = 0 := by
      rw [Nat.mul_comm (f32Mag p), Nat.mul_mod_mul_left, hm, Nat.mul_zero]
    have h2 : f32Mag p * D / (D * 2 ^ e) = f32Mag p / 2 ^ e := by
      rw [Nat.mul_comm (f32Mag p), Nat.mul_div_mul_left _ _ hD0]
    unfold roundHalfEven
    rw [h1, h2, if_neg (by have : 0 < D * 2 ^ e := by positivity
                           omega), hp]
    omega
  by_cases h0 : p / 2 ^ 23 = 0
  · have hm : f32Mag p = p := by unfold f32Mag; rw [if_pos h0]; omega
    refine key 0 ?_ (by simp [Nat.mod_one]) (by rw [hm]; simp)
    rw [hm]
    rcases Nat.eq_zero_or_pos p with rfl | hp
    · decide
    · have := (Nat.log2_lt (n := p) (k := 23) (by omega)).2 (by omega); omega
  · obtain ⟨k, hk⟩ : ∃ k, p / 2 ^ 23 = k + 1 := ⟨_, (Nat.succ_pred h0).symm⟩
    have hm : f32Mag p = (2 ^ 23 + p % 2 ^ 23) * 2 ^ k := by unfold f32Mag; rw [if_neg h0, hk]; rfl
    refine key k ?_ (by rw [hm]; exact Nat.mul_mod_left _ _) ?_
    · have : (f32Mag p).log2 = k + 23 := by
        rw [Nat.log2_eq_iff (by rw [hm]; positivity), hm]
        constructor
        · rw [show k + 23 = 23 + k by omega, pow_add]; exact Nat.mul_le_mul_right _ (by omega)
        · rw [show k + 23 + 1 = 24 + k by omega, pow_add]
          exact Nat.mul_lt_mul_of_pos_right (by omega) (by positivity)
      omega
    · rw [hm, Nat.mul_div_cancel _ (by positivity)]; omega

/-- A finite datum is that of a pattern below the infinities. -/
theorem F32.ofBits_fin {w : Word} {a : Bool} {m : Nat} (h : F32.ofBits w = .fin a m) :
    ∃ p, p < 0x7F800000 ∧ m = f32Mag p := by
  rw [F32.ofBits_eq] at h; dsimp only at h
  refine ⟨w.toNat % 2 ^ 31, ?_⟩
  split at h
  · split at h <;> cases h
  · cases h; exact ⟨by omega, rfl⟩

/-! ### The operations of binary32 on real numbers -/

/-- The number of a finite datum. -/
def f32Value (neg : Bool) (m : Nat) : Rat := mkRat (signedInt neg m) (2 ^ 149)

theorem binary32_datum (w : Word) : binary32.datum w = (F32.ofBits w).toDatum := rfl

/-- A pattern stands for a number exactly when its datum is finite. -/
theorem datum_fin {w : Word} {q : Rat} (h : binary32.datum w = .fin q) :
    ∃ a m, F32.ofBits w = .fin a m ∧ q = f32Value a m := by
  rw [binary32_datum] at h
  cases hw : F32.ofBits w with
  | nan => rw [hw] at h; cases h
  | inf => rw [hw] at h; cases h
  | fin a m => rw [hw] at h; cases h; exact ⟨a, m, rfl, rfl⟩

theorem datum_of_fin {w : Word} {a : Bool} {m : Nat} (h : F32.ofBits w = .fin a m) :
    binary32.datum w = .fin (f32Value a m) := by rw [binary32_datum, h]; rfl

theorem datum_signed (neg : Bool) {p : Nat} (h : p ≤ 0x7F800000) :
    binary32.datum (signed neg p) = if p = 0x7F800000 then .inf neg else .fin (f32Value neg (f32Mag p)) := by
  rw [binary32_datum, F32.ofBits_signed neg h]; split <;> rfl

theorem datum_signed_zero (neg : Bool) : binary32.datum (signed neg 0) = .fin 0 := by
  rw [datum_signed neg (by omega), if_neg (by omega)]
  cases neg <;> simp [f32Value, f32Mag, signedInt]

/-- RN_G depends on the number only, not on the fraction that names it. -/
theorem f32OfRat_mkRat (k : Int) {d : Nat} (hd : 0 < d) : f32OfRat k d = f32OfRat (mkRat k d).num (mkRat k d).den := by
  obtain ⟨c, hc, h1, h2⟩ := Rat.mkRat_num_den (d := d) (n := k) (z' := (mkRat k d).den_nz) (c := (mkRat k d).reduced) (by omega) rfl
  generalize (mkRat k d).num = n at *
  generalize (mkRat k d).den = e at *
  subst h1 h2
  have hc' : (0 : Int) < c := by omega
  unfold f32OfRat
  by_cases hn : n = 0
  · rw [hn]; simp
  · rw [if_neg hn, if_neg (by simp [hn, hc]), Int.natAbs_mul, Int.natAbs_natCast, roundMag_scale _ _ _ (by omega)]
    congr 1
    rw [decide_eq_decide]
    exact ⟨fun h => by nlinarith, fun h => Int.mul_neg_of_neg_of_pos h hc'⟩

/-- A nonzero fraction converted is its rounded magnitude under its sign. -/
theorem f32OfRat_of_ne {k : Int} (h : k ≠ 0) (d : Nat) : f32OfRat k d = signed (decide (k < 0)) (roundMag k.natAbs d) := by
  unfold f32OfRat; rw [if_neg h]

theorem rounded_of {w : Word} {k : Int} {d : Nat} {neg : Bool} (hd : 0 < d)
    (hw : w = if k = 0 then signed neg 0 else f32OfRat k d) : binary32.Rounded w (mkRat k d) := by
  have h0 : mkRat k d = 0 ↔ k = 0 := Rat.mkRat_eq_zero (by omega)
  constructor
  · intro h
    rw [hw, if_neg (fun hk => h (h0.2 hk))]
    exact f32OfRat_mkRat k hd
  · intro h
    rw [hw, if_pos (h0.1 h)]
    exact datum_signed_zero neg

/-- The value of a product, over the square of the common denominator. -/
theorem f32Value_mul (s t : Bool) (m n : Nat) :
    f32Value s m * f32Value t n = mkRat (signedInt s m * signedInt t n) (2 ^ 298) := by
  have e : (2 ^ 298 : Nat) = 2 ^ 149 * 2 ^ 149 := (pow_add 2 149 149)
  rw [e]
  generalize hD : (2 ^ 149 : Nat) = D
  simp only [f32Value, hD, Rat.mkRat_eq_div]
  push_cast; rw [div_mul_div_comm]

theorem signedInt_not (b : Bool) (n : Nat) : signedInt (!b) n = -signedInt b n := by cases b <;> simp [signedInt]

theorem roundUnits_eq (k : Int) (z : Bool) : roundUnits k z = if k = 0 then signed z 0 else f32OfRat k (2 ^ 149) := by
  unfold roundUnits; split
  · rfl
  · rw [f32OfRat_of_ne ‹_›]

/-- Every finite result is one of `signed neg p`. -/
theorem datum_ofRat {k : Int} (h : k ≠ 0) (d : Nat) : binary32.datum (binary32.ofRat k d) =
    if roundMag k.natAbs d = 0x7F800000 then .inf (decide (k < 0)) else .fin (f32Value (decide (k < 0)) (f32Mag (roundMag k.natAbs d))) := by
  show binary32.datum (f32OfRat k d) = _
  rw [f32OfRat_of_ne h, datum_signed _ (roundMag_le _ _)]

theorem f32Value_pos (m : Nat) : 0 ≤ f32Value false m := by
  unfold f32Value; rw [Rat.mkRat_eq_div]; exact div_nonneg (by simp [signedInt]) (by positivity)

theorem f32Value_neg (m : Nat) : f32Value true m ≤ 0 := by
  have : f32Value true m = - f32Value false m := by
    simp [f32Value, Rat.mkRat_eq_div, signedInt, neg_div]
  rw [this]; linarith [f32Value_pos m]

theorem f32Value_eq_zero (a : Bool) (m : Nat) : f32Value a m = 0 ↔ m = 0 := by
  unfold f32Value
  rw [Rat.mkRat_eq_zero (by positivity)]
  cases a <;> simp [signedInt]

/-! ### The coefficients have values -/

theorem sinSeries_le (x : Nat) : ∀ fuel k t, sinSeries x fuel k t ≤ t
  | 0, _, _ => Nat.le_refl _
  | _ + 1, _, _ => Nat.sub_le _ _

theorem sinQuarterFixed_le {a d : Nat} (h : a ≤ d) : sinQuarterFixed a d ≤ 4 * trigScale := by
  unfold sinQuarterFixed; dsimp only
  refine (sinSeries_le _ _ _ _).trans ?_
  rcases Nat.eq_zero_or_pos d with rfl | hd
  · simp
  · rw [Nat.div_le_iff_le_mul_add_pred (by omega)]
    have : piFixed ≤ 4 * trigScale := by decide
    nlinarith [Nat.mul_le_mul h this]

/-- A coefficient is a sign over a pattern that is at most that of 8. -/
theorem coefficient_form {a d : Nat} (h : a ≤ d) (neg : Bool) : ∃ s p, p ≤ 130 * 2 ^ 23 ∧
    signedNoZero neg (sinQuarter a d) = signed s p := by
  refine ⟨_, sinQuarter a d, ?_, rfl⟩
  unfold sinQuarter; split
  · omega
  · exact roundMag_le_of 2 (sinQuarterFixed_le h)

theorem cosTurn_form (f : Nat) {fs : Nat} (h : 0 < fs) : ∃ s p, p ≤ 130 * 2 ^ 23 ∧ binary32.cosTurn f fs = signed s p := by
  have hr := Nat.le_of_lt (Nat.mod_lt (4 * (f % fs)) h)
  have hs := Nat.sub_le fs (4 * (f % fs) % fs)
  show ∃ s p, p ≤ 130 * 2 ^ 23 ∧ f32CosTurn f fs = signed s p
  unfold f32CosTurn; dsimp only
  repeat' split
  all_goals exact coefficient_form ‹_› _

theorem sinTurn_form (f : Nat) {fs : Nat} (h : 0 < fs) : ∃ s p, p ≤ 130 * 2 ^ 23 ∧ binary32.sinTurn f fs = signed s p := by
  have hr := Nat.le_of_lt (Nat.mod_lt (4 * (f % fs)) h)
  have hs := Nat.sub_le fs (4 * (f % fs) % fs)
  show ∃ s p, p ≤ 130 * 2 ^ 23 ∧ f32SinTurn f fs = signed s p
  unfold f32SinTurn; dsimp only
  repeat' split
  all_goals exact coefficient_form ‹_› _

theorem finite_signed (s : Bool) {p : Nat} (h : p < 0x7F800000) : binary32.Finite (signed s p) := by
  rw [Gnum.Finite, datum_signed s (by omega), if_neg (by omega)]; exact ⟨_, rfl⟩

theorem f32Mag_le {p : Nat} (k : Nat) (h : p / 2 ^ 23 ≤ k + 1) : f32Mag p ≤ 2 ^ (24 + k) := by
  unfold f32Mag
  split
  · exact (show p % 2 ^ 23 ≤ 2 ^ 24 by omega).trans (Nat.pow_le_pow_right (by omega) (by omega))
  · rw [pow_add]; exact Nat.mul_le_mul (by omega) (Nat.pow_le_pow_right (by omega) (by omega))

/-- Twice a coefficient has a value. -/
theorem two_mul_finite (s : Bool) {p : Nat} (h : p ≤ 130 * 2 ^ 23) :
    binary32.Finite (binary32.mul (binary32.ofRat 2 1) (signed s p)) := by
  have h2 : F32.ofBits (binary32.ofRat 2 1) = .fin false (2 ^ 150) := by decide +kernel
  have hp : F32.ofBits (signed s p) = .fin s (f32Mag p) := by
    rw [F32.ofBits_signed s (by omega), if_neg (by omega)]
  show binary32.Finite (F32.mul (F32.ofBits _) (F32.ofBits _))
  rw [h2, hp]
  unfold F32.mul; dsimp only
  split
  · exact finite_signed _ (by omega)
  · refine finite_signed _ (lt_of_le_of_lt (roundMag_le_of 5 ?_) (by omega))
    rw [← pow_add]
    refine (Nat.mul_le_mul_left _ (f32Mag_le 129 (by omega))).trans ?_
    rw [← pow_add]

theorem binary32_lawful : binary32.Lawful where
  zero := datum_signed_zero false
  ofRat k d hd := rounded_of (neg := false) hd (by show f32OfRat k d = _; split <;> simp_all [f32OfRat, signed])
  keeps w q h := by
    obtain ⟨a, m, hw, rfl⟩ := datum_fin h
    show binary32.datum (f32OfRat _ _) = _
    rw [show f32Value a m = mkRat (signedInt a m) (2 ^ 149) from rfl, ← f32OfRat_mkRat _ (by positivity)]
    by_cases hm : m = 0
    · subst hm
      rw [show signedInt a 0 = 0 by cases a <;> rfl]
      simpa [f32OfRat, signed] using datum_signed_zero false
    · have hk : signedInt a m ≠ 0 := by cases a <;> simp [signedInt, hm]
      have ha : decide (signedInt a m < 0) = a := by cases a <;> simp [signedInt] <;> omega
      have hab : (signedInt a m).natAbs = m := by cases a <;> simp [signedInt]
      obtain ⟨p, hp, rfl⟩ := F32.ofBits_fin hw
      rw [f32OfRat_of_ne hk, ha, hab, roundMag_f32Mag hp, datum_signed a (by omega), if_neg (by omega)]
      rfl
  pos k d hk hd := by
    rw [datum_ofRat (by omega), show decide (k < 0) = false by simp; omega]
    split
    · exact .inl rfl
    · exact .inr ⟨_, f32Value_pos _, rfl⟩
  neg k d hk hd := by
    rw [datum_ofRat (by omega), show decide (k < 0) = true by simpa using hk]
    split
    · exact .inl rfl
    · exact .inr ⟨_, f32Value_neg _, rfl⟩
  add a b x y ha hb := by
    obtain ⟨s, m, hs, rfl⟩ := datum_fin ha
    obtain ⟨t, n, ht, rfl⟩ := datum_fin hb
    have : f32Value s m + f32Value t n = mkRat (signedInt s m + signedInt t n) (2 ^ 149) := by
      simp only [f32Value, Rat.mkRat_eq_div]; push_cast; ring
    rw [this]
    refine rounded_of (neg := s && t) (by positivity) ?_
    show F32.add (F32.ofBits a) (F32.ofBits b) = _
    rw [hs, ht, ← roundUnits_eq]; rfl
  sub a b x y ha hb := by
    obtain ⟨s, m, hs, rfl⟩ := datum_fin ha
    obtain ⟨t, n, ht, rfl⟩ := datum_fin hb
    have : f32Value s m - f32Value t n = mkRat (signedInt s m + signedInt (!t) n) (2 ^ 149) := by
      rw [signedInt_not]; simp only [f32Value, Rat.mkRat_eq_div]; push_cast; ring
    rw [this]
    refine rounded_of (neg := s && !t) (by positivity) ?_
    show F32.add (F32.ofBits a) (F32.neg (F32.ofBits b)) = _
    rw [hs, ht, ← roundUnits_eq]; rfl
  mul a b x y ha hb := by
    obtain ⟨s, m, hs, rfl⟩ := datum_fin ha
    obtain ⟨t, n, ht, rfl⟩ := datum_fin hb
    rw [f32Value_mul]
    refine rounded_of (neg := s ^^ t) (Nat.pow_pos (by omega)) ?_
    show F32.mul (F32.ofBits a) (F32.ofBits b) = _
    rw [hs, ht]
    unfold F32.mul; dsimp only
    rcases Nat.eq_zero_or_pos m with rfl | hm
    · cases s <;> simp [signedInt]
    rcases Nat.eq_zero_or_pos n with rfl | hn
    · cases t <;> simp [signedInt]
    have hk : signedInt s m * signedInt t n ≠ 0 := by cases s <;> cases t <;> simp [signedInt] <;> omega
    rw [if_neg hk, if_neg (Nat.mul_pos hm hn).ne', f32OfRat_of_ne hk]
    have h0 : (0 : Int) < (m : Int) * n := by positivity
    have h1 : decide (signedInt s m * signedInt t n < 0) = (s ^^ t) := by
      cases s <;> cases t <;> simp [signedInt] <;> omega
    have h2 : (signedInt s m * signedInt t n).natAbs = m * n := by
      cases s <;> cases t <;> simp [signedInt, Int.natAbs_mul]
    rw [h1, h2]
  div a b x y ha hb hy := by
    obtain ⟨s, m, hs, rfl⟩ := datum_fin ha
    obtain ⟨t, n, ht, rfl⟩ := datum_fin hb
    have hn : n ≠ 0 := fun h => hy ((f32Value_eq_zero t n).2 h)
    have : f32Value s m / f32Value t n = mkRat (signedInt (s ^^ t) m) n := by
      simp only [f32Value, Rat.mkRat_eq_div]; cases s <;> cases t <;> simp [signedInt] <;> field_simp
    rw [this]
    refine rounded_of (neg := s ^^ t) (by omega) ?_
    show F32.div (F32.ofBits a) (F32.ofBits b) = _
    rw [hs, ht]
    unfold F32.div; dsimp only
    rw [if_neg hn]
    rcases Nat.eq_zero_or_pos m with rfl | hm
    · cases s <;> cases t <;> rfl
    have hk : signedInt (s ^^ t) m ≠ 0 := by generalize (s ^^ t) = u; cases u <;> simp [signedInt] <;> omega
    rw [if_neg hk, if_neg hm.ne', f32OfRat_of_ne hk]
    have h1 : decide (signedInt (s ^^ t) m < 0) = (s ^^ t) := by
      generalize (s ^^ t) = u; cases u <;> simp [signedInt] <;> omega
    have h2 : (signedInt (s ^^ t) m).natAbs = m := by
      generalize (s ^^ t) = u; cases u <;> simp [signedInt]
    rw [h1, h2]
  divInf a b x s ha hb := by
    obtain ⟨t, m, ht, rfl⟩ := datum_fin ha
    rw [binary32_datum] at hb
    cases hv : F32.ofBits b with
    | nan => rw [hv] at hb; cases hb
    | fin _ _ => rw [hv] at hb; cases hb
    | inf u =>
      show binary32.datum (F32.div (F32.ofBits a) (F32.ofBits b)) = _
      rw [ht, hv]; exact datum_signed_zero _
  square a h := by
    have hm : binary32.mul a a = F32.mul (F32.ofBits a) (F32.ofBits a) := rfl
    cases hv : F32.ofBits a with
    | nan => left; rw [hm, hv]; rfl
    | inf u => right; rw [hm, hv]; cases u <;> rfl
    | fin u m => exact absurd ⟨_, datum_of_fin hv⟩ h
  lt a b x y ha hb := by
    obtain ⟨s, m, hs, rfl⟩ := datum_fin ha
    obtain ⟨t, n, ht, rfl⟩ := datum_fin hb
    show F32.lt (F32.ofBits a) (F32.ofBits b) = true ↔ _
    rw [hs, ht]
    simp only [F32.lt, decide_eq_true_eq, f32Value, Rat.mkRat_eq_div]
    rw [div_lt_div_iff_of_pos_right (by positivity)]
    exact_mod_cast Iff.rfl
  ltInf a b x ha hb := by
    obtain ⟨s, m, hs, rfl⟩ := datum_fin ha
    rw [binary32_datum] at hb
    show F32.lt (F32.ofBits a) (F32.ofBits b) = true
    cases hv : F32.ofBits b with
    | nan => rw [hv] at hb; cases hb
    | fin _ _ => rw [hv] at hb; cases hb
    | inf u => rw [hv] at hb; cases hb; rw [hs]; rfl
  cosFinite f fs h := by
    obtain ⟨s, p, hp, e⟩ := cosTurn_form f h
    rw [e]; exact finite_signed s (by omega)
  sinFinite f fs h := by
    obtain ⟨s, p, hp, e⟩ := sinTurn_form f h
    rw [e]; exact finite_signed s (by omega)
  twoCosFinite f fs h := by
    obtain ⟨s, p, hp, e⟩ := cosTurn_form f h
    rw [e]; exact two_mul_finite s hp
  half n hn := by
    rw [datum_ofRat (by omega)]
    split
    · exact .inl ⟨_, rfl⟩
    · refine .inr ⟨_, ?_, rfl⟩
      rw [Ne, f32Value_eq_zero, Int.natAbs_natCast]
      have : 2 ^ 23 ≤ roundMag n 2 := by
        unfold roundMag; dsimp only
        have h1 : 2 ^ 148 ≤ n * 2 ^ 149 / 2 := by
          rw [Nat.le_div_iff_mul_le (by omega)]
          calc 2 ^ 148 * 2 = 1 * 2 ^ 149 := by rw [← pow_succ, one_mul]
            _ ≤ n * 2 ^ 149 := Nat.mul_le_mul_right _ hn
        have h2 : 148 ≤ (n * 2 ^ 149 / 2).log2 := (Nat.le_log2 (by omega)).2 h1
        have : 1 * 2 ^ 23 ≤ ((n * 2 ^ 149 / 2).log2 - 23) * 2 ^ 23 := Nat.mul_le_mul_right _ (by omega)
        omega
      unfold f32Mag
      rw [if_neg (by omega)]
      positivity

/-- The GNUM of every machine is lawful (00_scope.md R18; log 8). -/
theorem gnumOf_lawful (c : Config) : (gnumOf c).Lawful := by
  unfold gnumOf
  split
  · exact binary32_lawful
  · split
    · exact Subtype.property _
    · exact binary32_lawful

end Sys2Proof.Machine
end

