-- ==== Sys2Proof/Laws/Host.lean ====
section
/-! SUPPORT. The HOST port: where a register access goes, and how a step takes an input (10_state.md R27, R37; 20_memory.md R76). -/

namespace Sys2Proof.Machine

theorem SineField.ofOffset_offset (f : SineField) : SineField.ofOffset f.offset = some f := by cases f <;> rfl

theorem SineField.offset_lt (f : SineField) : f.offset < 0x20 := by cases f <;> decide

/-- A register's offset leads back to the register, and is an aligned offset of the register block. -/
theorem regAt_offset {c : Config} {r : Reg} {off : Nat} (hn : c.nsreq ≤ 16)
    (hs : ∀ slot f, r = .sreq slot f → slot < c.nsreq) (h : r.offset = some off) :
    regAt c off = r ∧ off < 0x400 ∧ off % 4 = 0 := by
  cases r <;> simp only [Reg.offset, Option.some.injEq, reduceCtorEq] at h <;>
    try (subst h; exact ⟨rfl, by decide, by decide⟩)
  rename_i slot f
  have hs := hs slot f rfl
  have hf := SineField.offset_lt f
  have hf4 : f.offset % 4 = 0 := by cases f <;> rfl
  subst h
  refine ⟨?_, by omega, by omega⟩
  have h1 : 0x040 ≤ 0x040 + 0x20 * slot + f.offset ∧ 0x040 + 0x20 * slot + f.offset < 0x240 := by omega
  unfold regAt
  rw [if_pos h1]
  unfold sreqAt
  have e1 : (0x040 + 0x20 * slot + f.offset - 0x40) / 0x20 = slot := by omega
  have e2 : (0x040 + 0x20 * slot + f.offset - 0x40) % 0x20 = f.offset := by omega
  rw [e1, e2, if_pos hs, SineField.ofOffset_offset]

/-- An aligned word access in the register block. -/
theorem placeOf_reg (c : Config) (off : Nat) (h : off < 0x400) (h4 : off % 4 = 0) :
    placeOf c .word (c.coreBase + off) = .reg off := by
  have : ¬ (c.coreBase + off < c.coreBase) := by omega
  simp only [placeOf, placeAt, windowSize, regBlockSize, if_neg this, Nat.add_sub_cancel_left]
  rw [if_neg (by omega), if_pos h]
  simp [h4]

/-- The only offset of CMD. -/
theorem regAt_cmd {c : Config} {off : Nat} (h : regAt c off = .cmd) : off = 0x00C := by
  unfold regAt at h
  split at h
  · unfold sreqAt at h
    split at h
    · split at h <;> cases h
    · cases h
  · split at h <;> first | rfl | cases h

/-- The only offset of CTRL. -/
theorem regAt_ctrl {c : Config} {off : Nat} (h : regAt c off = .ctrl) : off = 0x004 := by
  unfold regAt at h
  split at h
  · unfold sreqAt at h
    split at h
    · split at h <;> cases h
    · cases h
  · split at h <;> first | rfl | cases h

/-- A step performs the oldest waiting input. -/
theorem step_cons {s : State} {i : HostInput} {rest : List HostInput} (h : s.hostQueue = i :: rest) :
    step s = (s.setHostQueue rest).perform i := by
  unfold step
  rw [h]

theorem slot?_of_lt {s : State} {k : Nat} (h : k < s.cfg.nsreq) : s.slot? k = s.sreq[k]? := by
  simp [State.slot?, h]

theorem slot?_setSreq {s : State} {slot k : Nat} {q : SineReq} (hlt : slot < s.sreq.length) :
    (s.setSreq slot q).slot? k = if k = slot ∧ slot < s.cfg.nsreq then some q else s.slot? k := by
  show (if k < s.cfg.nsreq then (s.sreq.set slot q)[k]? else none) = _
  unfold State.slot?
  by_cases hk : k = slot
  · subst hk
    rw [List.getElem?_set_self hlt]
    split <;> simp_all
  · rw [List.getElem?_set_ne (fun h => hk h.symm)]
    simp [hk]

end Sys2Proof.Machine
end

