-- ==== Sys2Proof/Laws/Parser.lean ====
section
/-! SUPPORT. The packet parser: what a low length byte does, and that every received byte keeps the parser's invariant and stores inside the receive buffer. -/

namespace Sys2Proof.Machine

/-- The three outcomes of the low length byte (42_packet.md R174). -/
theorem rxLength_cases (r : RxStep) :
    (rxLimit r.pkt < r.pkt.declared.toNat ∧
      rxLength r = ⟨{ r.pkt with rx := .idle }, r.store, some (evPartial .pktTooLong r.pkt)⟩) ∨
    (r.pkt.declared.toNat ≤ rxLimit r.pkt ∧ r.pkt.declared = 0#16 ∧
      rxLength r = ⟨{ r.pkt with rx := .waitFcsHi }, r.store, r.event⟩) ∨
    (r.pkt.declared.toNat ≤ rxLimit r.pkt ∧ r.pkt.declared ≠ 0#16 ∧
      rxLength r = ⟨{ r.pkt with remaining := r.pkt.declared, rx := .inBody }, r.store, r.event⟩) := by
  unfold rxLength
  dsimp only
  split
  · exact .inl ⟨‹_›, rfl⟩
  · split
    · exact .inr (.inl ⟨by omega, ‹_›, rfl⟩)
    · exact .inr (.inr ⟨by omega, ‹_›, rfl⟩)

/-- A received byte keeps an initialised parser's invariant and its buffer, and stores inside that buffer only (R179). -/
theorem rxStep_inv {c : Config} {p : PktState} (h : p.Inv c) (hi : p.init = true) (b : Byte) :
    (rxStep p b).pkt.Inv c ∧ (rxStep p b).pkt.init = true ∧ (rxStep p b).pkt.rxbuf = p.rxbuf ∧ (rxStep p b).pkt.rxcap = p.rxcap ∧
      ∀ w ∈ (rxStep p b).store, p.rxbuf.toNat ≤ w.1 ∧ w.1 < p.rxbuf.toNat + p.rxcap.toNat := by
  obtain ⟨rx, esc, init, rxbuf, rxcap, cursor, addr, ctrl, declared, remaining, running, received⟩ := p
  simp only at hi; subst hi
  obtain ⟨-, h2, h3, h4, h5, h6, h7, h8, h9, h10, h11, h12⟩ := h
  simp only [forall_true_left] at h2 h3 h4 h5 h6 h7 h8 h9 h10 h11 h12
  obtain ⟨hb0, hcap, hsz⟩ := h2
  simp only [Config.hdr, Config.maxPayload] at *
  have hone : (1#32).toNat = 1 := rfl
  have hcur : ∀ x : Word, x.toNat < rxcap.toNat → (x + 1#32).toNat = x.toNat + 1 := by
    intro x hx; rw [BitVec.toNat_add]; simp; omega
  have hc1 : cursor.toNat < rxcap.toNat → (cursor + 1#32).toNat = cursor.toNat + 1 := hcur cursor
  unfold rxStep
  simp only
  split
  · split
    · subst_vars
      simp only [startFrame, PktState.Inv, Config.hdr, Config.maxPayload, Config.fcsInitial]; simp [hb0]; omega
    · subst_vars
      refine ⟨?_, rfl, rfl, rfl, by simp [RxStep.quiet]⟩
      simp_all [RxStep.quiet, PktState.Inv, Config.hdr, Config.maxPayload]
  · split
    · unfold rxFlag; simp only; split
      · subst_vars
        refine ⟨?_, rfl, rfl, rfl, by simp [RxStep.quiet]⟩
        simp_all [RxStep.quiet, PktState.Inv, Config.hdr, Config.maxPayload]
      · simp only [startFrame, PktState.Inv, Config.hdr, Config.maxPayload, Config.fcsInitial]; simp [hb0]; omega
    · split
      · unfold rxEscape
        cases rx <;> simp_all [RxStep.quiet, PktState.Inv, PktState.fold, PktState.countDown, Config.hdr, Config.maxPayload]
        have : (remaining - 1#16).toNat = remaining.toNat - 1 := by bv_omega
        have h0 : remaining - 1#16 = 0#16 ↔ remaining.toNat = 1 := by
          constructor
          · intro h; bv_omega
          · intro h; apply BitVec.eq_of_toNat_eq; rw [this, h]; rfl
        by_cases hr : remaining.toNat = 1 <;> simp [h0, hr] <;> omega
      · unfold rxLiteral
        cases rx
        case idle => contradiction
        case waitAddr =>
          simp only [forall_true_left] at h6; subst h6
          simp [storeByte, PktState.Inv, PktState.fold, Config.hdr, Config.maxPayload, hb0]; omega
        case waitControl =>
          simp only [forall_true_left] at h8; subst h8
          simp [storeByte, PktState.Inv, PktState.fold, Config.hdr, Config.maxPayload, hb0]; omega
        case waitLenHi =>
          simp only [forall_true_left] at h9; subst h9
          simp [storeByte, PktState.Inv, PktState.fold, Config.hdr, Config.maxPayload, hb0]; omega
        case waitLenLo =>
          simp only [forall_true_left] at h10; subst h10
          rcases rxLength_cases (storeByte ⟨.waitLenLo, false, true, rxbuf, rxcap, 4#32, addr, ctrl, declared, remaining, running, received⟩ b
            ⟨.waitLenLo, false, true, rxbuf, rxcap, 4#32, addr, ctrl, declared ||| b.setWidth 16, remaining, fcsStep running b, received⟩) with ⟨h, e⟩ | ⟨h, h0, e⟩ | ⟨h, h0, e⟩ <;>
          simp only [PktState.fold] <;> rw [e] <;> simp only [storeByte] at h ⊢
          · simp [PktState.Inv, Config.hdr, Config.maxPayload, hb0]; omega
          · simp [PktState.Inv, Config.hdr, Config.maxPayload, hb0]; omega
          · have h0 : (declared ||| b.setWidth 16).toNat ≠ 0 := fun h => h0 (BitVec.eq_of_toNat_eq h)
            simp only [rxLimit, Config.maxPayload, Config.hdr] at h
            generalize declared ||| b.setWidth 16 = d at *
            simp [PktState.Inv, Config.hdr, Config.maxPayload, hb0]; omega
        case inBody =>
          simp only [forall_true_left] at h11
          have h1 := hc1 (by omega)
          have : (remaining - 1#16).toNat = remaining.toNat - 1 := by bv_omega
          have h0 : remaining - 1#16 = 0#16 ↔ remaining.toNat = 1 := by
            constructor
            · intro h; bv_omega
            · intro h; apply BitVec.eq_of_toNat_eq; rw [this, h]; rfl
          generalize cursor + 1#32 = d at *
          by_cases hr : remaining.toNat = 1 <;>
            simp [storeByte, PktState.Inv, PktState.fold, PktState.countDown, Config.hdr, Config.maxPayload, h0, hr, hb0] <;> omega
        case waitFcsHi => 
          simp only [true_or, forall_true_left] at h12
          simp [RxStep.quiet, PktState.Inv, Config.hdr, Config.maxPayload, hb0]; omega
        case waitFcsLo => 
          simp only [or_true, forall_true_left] at h12
          simp [PktState.Inv, Config.hdr, Config.maxPayload, hb0]; omega

end Sys2Proof.Machine
end

