-- ==== Sys2Proof/Laws/Invariant.lean ====
section
/-! SUPPORT. The parts of the machine's invariant: the operations that keep BRAM in order, what is enough to keep the whole, and that received bytes and the power-on state meet it. -/

namespace Sys2Proof.Machine

/-- A byte store keeps BRAM canonical and inside BRAM_SIZE. -/
theorem bramOk_writeBram {s : State} (h : s.BramOk) (a b) : (s.writeBram a b).BramOk := by
  refine ⟨s.writeBram_wf h.1 a b, ?_⟩
  unfold State.writeBram
  split
  · intro c hc
    rcases Memory.mem_write hc with h' | ⟨rfl, _⟩
    · exact h.2 c h'
    · assumption
  · exact h.2

/-- A run of stores keeps it. -/
theorem bramOk_memWrite {s : State} (h : s.BramOk) (a bs) : (s.memWrite a bs).BramOk := by
  induction bs generalizing s a with
  | nil => exact h
  | cons b bs ih => exact ih (bramOk_writeBram h a b) (a + 1)

/-- It depends on BRAM and its size only. -/
theorem bramOk_eq {s t : State} (h : s.BramOk) (hb : t.bram = s.bram) (hc : t.cfg = s.cfg) : t.BramOk := by
  unfold State.BramOk; rw [hb, hc]; exact h

/-- Emitting keeps the queue inside its depth. -/
theorem evqAfter_len {s : State} {es} (h : s.evq.length ≤ s.cfg.evqDepth) : (evqAfter s es).length ≤ s.cfg.evqDepth := by
  unfold evqAfter; simp; omega

/-- Emitting well-formed records keeps every record well-formed. -/
theorem evqAfter_ok {s : State} {es} (h : ∀ e ∈ s.evq, e.Ok) (h' : ∀ e ∈ es, e.Ok) : ∀ e ∈ evqAfter s es, e.Ok := by
  intro e he; unfold evqAfter at he
  rcases List.mem_append.1 he with he | he
  · exact h e he
  · exact h' e (List.mem_of_mem_take he)

/-- What is enough to keep the invariant: the parameters and the number of slots as before, BRAM in order, well-formed records emitted, the demodulator and the parser in order. -/
theorem inv_mk {s t : State} (h : s.Inv) (hc : t.cfg = s.cfg) (hb : t.BramOk) (hr : t.sreq.length = s.sreq.length)
   (he : ∃ es, Emitted s t es ∧ ∀ e ∈ es, e.Ok) (hd : t.dtmf.Inv s.cfg) (hp : t.pkt.Inv t.cfg) : t.Inv := by
  obtain ⟨es, ⟨h1, h2⟩, h3⟩ := he
  obtain ⟨a, b, c, d, e, f, g⟩ := h
  refine ⟨by rw [hc]; exact a, hb, by rw [hr, hc]; exact c, ?_, ?_, by rw [hc]; exact hd, hp⟩
  · rw [h1, hc]; exact evqAfter_len d
  · rw [h1]; exact evqAfter_ok e h3

/-- Nothing the invariant speaks of changed. -/
theorem inv_same {s t : State} (h : s.Inv) (hc : t.cfg = s.cfg) (hb : t.bram = s.bram) (hr : t.sreq = s.sreq)
   (he : t.evq = s.evq) (ho : t.evqOvf = s.evqOvf) (hd : t.dtmf = s.dtmf) (hp : t.pkt = s.pkt) : t.Inv :=
  inv_mk h hc (by unfold State.BramOk; rw [hb, hc]; exact h.2.1) (by rw [hr]) ⟨[], .nil he ho, by simp⟩ (by rw [hd]; exact h.2.2.2.2.2.1) (by rw [hp, hc]; exact h.2.2.2.2.2.2)

/-- A received byte keeps the invariant. -/
theorem rxByte_inv {s : State} (h : s.Inv) (hi : s.pkt.init = true) (b : Byte) : (s.rxByte b).Inv ∧ (s.rxByte b).pkt.init = true := by
  obtain ⟨h1, h2, -, -, -⟩ := rxStep_inv (c := s.cfg) h.2.2.2.2.2.2 hi b
  refine ⟨inv_mk h (by simp) ?_ (by simp) ⟨_, rxByte_emitted s b, by simpa using rxStep_event_ok s.pkt b⟩ (by simpa using h.2.2.2.2.2.1) (by simpa using h1), h2⟩
  unfold State.rxByte; dsimp only
  show State.BramOk _
  have : ∀ (u : State) (e : Option Event), u.BramOk → (match e with | none => u | some e => u.emit e).BramOk := by
    intro u e hu; cases e
    · exact hu
    · show (u.emit _).BramOk; unfold State.BramOk; rw [State.emit_bram, State.emit_cfg]; exact hu
  refine this _ _ ?_
  cases (rxStep s.pkt b).store with
  | none => exact h.2.1
  | some w => exact bramOk_writeBram h.2.1 _ _

/-- A received stream keeps it. -/
theorem rxStream_inv {s : State} (h : s.Inv) (hi : s.pkt.init = true) (bs : List Byte) : (s.rxStream bs).1.Inv := by
  induction bs generalizing s with
  | nil => exact h
  | cons b bs ih =>
    unfold State.rxStream; dsimp only
    obtain ⟨h1, h2⟩ := rxByte_inv h hi b
    split
    · exact h1
    · exact ih h1 h2

/-- The BRAM a power-on brings lists addresses inside BRAM_SIZE only. -/
theorem ofCells_mem (size) (cells : List Host.Cell) : ∀ c ∈ Memory.ofCells size cells, c.1 < size := by
  unfold Memory.ofCells
  suffices ∀ m : Memory, (∀ c ∈ m, c.1 < size) → ∀ c ∈ cells.foldl (fun m c => if c.1 < size then Memory.write m c.1 c.2 else m) m, c.1 < size from this [] (by simp)
  induction cells with
  | nil => exact fun m h => h
  | cons d cells ih =>
    intro m h
    refine ih _ ?_
    dsimp only
    split
    · intro c hc
      rcases Memory.mem_write hc with h' | ⟨rfl, _⟩
      · exact h c h'
      · assumption
    · exact h

/-- The power-on state of a legal machine whose BRAM is in order. -/
theorem powerOn_inv (c : Config) (m : Memory) (hl : c.Legal) (h1 : m.wf) (h2 : ∀ x ∈ m, x.1 < c.bramSize) : (State.powerOn c m).Inv := by
  refine ⟨hl, ⟨h1, h2⟩, by simp [State.powerOn], by simp [State.powerOn], by simp [State.powerOn], ?_, ?_⟩
  · exact ⟨rfl, rfl, by intro h; simp [State.powerOn, DtmfState.reset] at h⟩
  · simp [State.powerOn, PktState.reset, PktState.Inv]

/-- The default parameters are legal. -/
theorem default_legal : Config.default.Legal := by
  refine ⟨by decide, by decide, by decide, by decide, by decide, by decide +kernel, by decide +kernel, by decide +kernel, by decide +kernel, by decide +kernel, by decide +kernel⟩

end Sys2Proof.Machine
end

