-- ==== Sys2Proof/Laws/PerInstr.lean ====
section
/-! SUPPORT. One law per command: its word holds its opcode, its slot and zeros in RSV (30_encoding.md R101, R104, R110). -/

namespace Sys2Proof.Laws.EncodeFields

/-- The three fields of the word of a well-formed command. -/
def Statement (i : Instr) : Prop :=
  i.WellFormed → opcOf (encode i) = opcodeOf i ∧ slotOf (encode i) = i.slot ∧ rsvOf (encode i) = 0#20

/-- The fields of any well-formed command's word. -/
theorem encode_fields (i : Instr) : Statement i := by
  intro h
  have h2 : (opcodeOf i).toNat < 2 ^ 8 := (opcodeOf i).isLt
  have he := encode_toNat i h
  refine ⟨BitVec.eq_of_toNat_eq ?_, ?_, BitVec.eq_of_toNat_eq ?_⟩
  · rw [opc_toNat]; omega
  · rw [slot_toNat]; omega
  · rw [rsv_toNat]; show _ = 0; omega

theorem nop : Statement .nop := encode_fields _
theorem sinePopulate (slot : Nat) : Statement (.sinePopulate slot) := encode_fields _
theorem sineGen (slot : Nat) : Statement (.sineGen slot) := encode_fields _
theorem sineFill (slot : Nat) : Statement (.sineFill slot) := encode_fields _
theorem sineSample : Statement .sineSample := encode_fields _
theorem sineMix : Statement .sineMix := encode_fields _
theorem dtmfInit : Statement .dtmfInit := encode_fields _
theorem dtmfBlock : Statement .dtmfBlock := encode_fields _
theorem pktFcs : Statement .pktFcs := encode_fields _
theorem pktFrame : Statement .pktFrame := encode_fields _
theorem pktRxinit : Statement .pktRxinit := encode_fields _
theorem pktRxbyte : Statement .pktRxbyte := encode_fields _
theorem pktRxstream : Statement .pktRxstream := encode_fields _
theorem piNext : Statement .piNext := encode_fields _
theorem piRx : Statement .piRx := encode_fields _
theorem piReset : Statement .piReset := encode_fields _
theorem emoInit : Statement .emoInit := encode_fields _
theorem emoUpdate : Statement .emoUpdate := encode_fields _
theorem orchTick : Statement .orchTick := encode_fields _
theorem evtPop : Statement .evtPop := encode_fields _
theorem evtClear : Statement .evtClear := encode_fields _

end Sys2Proof.Laws.EncodeFields
end

