-- ==== Sys2Proof/Tests/Slice0.lean ====
section
/-! SUPPORT. The model's own tests. Expected results are the spec's: the encodings of 30_encoding.md, the vectors of 95_test_vectors.md (named in each test) and the worked examples of the rules. `witness_…` theorems show data that meets the hypotheses of a statement of Certificates/Slice0/Obligations.lean, clause by clause at boundary values. -/

namespace Sys2Proof.Machine.Tests

set_option Elab.async false

/-! ### Well-formedness and decoding -/

/-- SLOT is a 4-bit number (R103): slot 16 does not exist. -/
theorem test_wellFormed_refuses_slot_16 :
    ¬ (Instr.sinePopulate 16).WellFormed ∧ ¬ (Instr.sineGen 16).WellFormed ∧ ¬ (Instr.sineFill 16).WellFormed ∧
      (Instr.sineGen 15).WellFormed := by decide

/-- R101, R110: RSV in bits 31:12, SLOT in 11:8, OPC in 7:0. -/
theorem test_decode_sine : decode 0b00000000000000000000_0001_00010000#32 = some (.sinePopulate 1) ∧
    decode 0b00000000000000000000_1111_00010001#32 = some (.sineGen 15) ∧
    decode 0b00000000000000000000_0010_00010010#32 = some (.sineFill 2) ∧
    decode 0b00000000000000000000_0000_00010011#32 = some .sineSample ∧
    decode 0b00000000000000000000_0000_00010100#32 = some .sineMix := by decide

theorem test_decode_dtmf : decode 0b00000000000000000000_0000_00100000#32 = some .dtmfInit ∧
    decode 0b00000000000000000000_0000_00100001#32 = some .dtmfBlock := by decide

theorem test_decode_pkt : decode 0b00000000000000000000_0000_00110000#32 = some .pktFcs ∧
    decode 0b00000000000000000000_0000_00110001#32 = some .pktFrame ∧
    decode 0b00000000000000000000_0000_00110010#32 = some .pktRxinit ∧
    decode 0b00000000000000000000_0000_00110011#32 = some .pktRxbyte ∧
    decode 0b00000000000000000000_0000_00110100#32 = some .pktRxstream := by decide

theorem test_decode_pi : decode 0b00000000000000000000_0000_01000000#32 = some .piNext ∧
    decode 0b00000000000000000000_0000_01000001#32 = some .piRx ∧
    decode 0b00000000000000000000_0000_01000010#32 = some .piReset := by decide

theorem test_decode_emo_orch : decode 0b00000000000000000000_0000_01010000#32 = some .emoInit ∧
    decode 0b00000000000000000000_0000_01010001#32 = some .emoUpdate ∧
    decode 0b00000000000000000000_0000_01100000#32 = some .orchTick := by decide

theorem test_decode_control : decode 0x00000000#32 = some .nop ∧
    decode 0b00000000000000000000_0000_01110000#32 = some .evtPop ∧
    decode 0b00000000000000000000_0000_01110001#32 = some .evtClear := by decide

/-- L2-X2 to L2-X8. -/
theorem test_decode_illegal : decode 0x00000001#32 = none ∧ decode 0x00001000#32 = none ∧
    decode 0x80000011#32 = none ∧ decode 0x00000113#32 = none ∧ decode 0x000000FF#32 = none ∧
    decode 0x00000111#32 = some (.sineGen 1) ∧ decode 0x00000F11#32 = some (.sineGen 15) := by decide

/-- The host's entry points, on two rows of the table. -/
theorem test_decodeTableWord : decodeTableWord 32 0x00000F12 = some (.sineFill 15) ∧
    decodeTableWord 8 0x41 = some .piRx := by decide

/-! ### Small states -/

/-- What a command leaves, when it gives a next state. -/
def ran (i : Instr) (s : State) : Option State :=
  match exec i s with
  | .next t => some t
  | .fault _ => none
  | .refused _ => none

/-- What a step leaves. -/
def stepped (s : State) : Option State :=
  match step s with
  | .next t => some t
  | .fault _ => none
  | .refused _ => none

/-- The reset state with operands. -/
def args (a b c d : Word) : State := { State.reset with arg0 := a, arg1 := b, arg2 := c, arg3 := d }

/-- A state with bytes in BRAM. -/
def putting (s : State) (a : Nat) (bs : List Byte) : State := s.memWrite a bs

/-- SREQ[0] as SINE_POPULATE (0x100, bufLen, fTone, fSample) and writes of THETA0 and SCALE leave it. -/
def request (bufLen fTone fSample theta scale : Word) : SineReq :=
  ⟨0x100#32, bufLen, theta, fTone, fSample, scale, 0#32, 0#32⟩

/-- The reset state with a request in slot 0. -/
def sineState (r : SineReq) : State := { State.reset with sreq := [r, SineReq.reset] }

/-- Status, RESULT_LEN, PHASE_ERR and `n` bytes at 0x100. -/
def sineSeen (n : Nat) (t : State) : Status × List Nat × List Nat :=
  (t.status, (t.sreq.take 1).flatMap (fun r => [r.resultLen.toNat, r.phaseErr.toNat]),
    (t.memRead 0x100 n).map BitVec.toNat)

/-- An initialised demodulator whose coefficients are all 0 (the symbol of a silent block does not depend on them). -/
def dtmfState (thresh : Word) (held : Option (Fin 16)) (dwell : Word) (phase : OrchPhase) : State :=
  { args 0x2000 1 0 0 with
    dtmf := ⟨8000#32, thresh, held, dwell, true, List.replicate 8 0#32, List.replicate 8 0#32⟩
    orch := ⟨phase, 0#32, 0#32, 0#32⟩
    bram := [(0x2000, 127#8)] }

/-- An initialised parser at RXBUF = 0x1000, RXCAP = 64. -/
def parser : State := { State.reset with pkt := rxInit 0x1000#32 64#32 }

/-- "~asdf~foo}{}" (L1-D7). -/
def payload7 : List Byte :=
  [0x7E, 0x61, 0x73, 0x64, 0x66, 0x7E, 0x66, 0x6F, 0x6F, 0x7D, 0x7B, 0x7D]

/-- Its frame with address 'd' and control 0 (L1-D7). -/
def frame7 : List Byte :=
  [0x7E, 0x64, 0x00, 0x00, 0x10, 0x7D, 0x7E, 0x61, 0x73, 0x64, 0x66, 0x7D, 0x7E, 0x66, 0x6F, 0x6F] ++
    [0x7D, 0x7D, 0x7B, 0x7D, 0x7D, 0x54, 0xC6, 0x7E]

/-- The start of a frame that another one interrupts (L1-D8). -/
def part8 : List Byte := [0x7E, 0x64, 0x00, 0x00, 0x10, 0x7D, 0x7E, 0x61]

/-- The orchestrator configured for 16 samples at 8 kHz, in BORED (L2-O4). -/
def orchState (phase : OrchPhase) : State :=
  { State.reset with emo := ⟨.bored, 0#32⟩, orch := ⟨phase, 0x2000#32, 16#32, 8000#32⟩ }

/-! ### One step of each command -/

/-- L2-X1. -/
theorem test_nop : ran .nop { State.reset with status := .illegal } = some State.reset := by decide +kernel

/-- L1-S1: the request is recorded, and INVALID. -/
theorem test_sinePopulate_records_zero_rate :
    ran (.sinePopulate 0) (args 0x100 4 0 2000) =
      some { args 0x100 4 0 2000 with
        sreq := [⟨0x100#32, 4#32, 0#32, 0#32, 2000#32, 1#32, 0#32, 0#32⟩, SineReq.reset]
        status := .invalid } := by decide +kernel

/-- L1-S4. -/
theorem test_sineGen_too_short : (ran (.sineGen 0) (sineState (request 3 500 2000 0 1))).map (sineSeen 3) =
    some (.tooShort, [3, 0x40000000], [127, 254, 127]) := by decide +kernel

/-- L2-S31: a wave that is no whole number of samples. -/
theorem test_sineGen_floor : (ran (.sineGen 0) (sineState (request 20 697 8000 0 1))).map (sineSeen 11) =
    some (.okay, [11, 178778013], [127, 193, 240, 254, 230, 176, 109, 46, 7, 3, 36]) := by decide +kernel

/-- L2-S26. -/
theorem test_sineFill : (ran (.sineFill 0) (sineState (request 8 3 10 0 1))).map (sineSeen 8) =
    some (.okay, [8, 2576980377], [127, 248, 53, 53, 248, 127, 6, 201]) := by decide +kernel

/-- L2-S22: a phase and a scale. -/
theorem test_sineGen_phase_scale : (ran (.sineGen 0) (sineState (request 4 500 2000 0x40000000 2))).map (sineSeen 4) =
    some (.okay, [4, 0], [190, 127, 64, 127]) := by decide +kernel

/-- L2-S6 to L2-S8: truncation toward zero, and a half is not bumped. -/
theorem test_sineSample : (ran .sineSample (args 0xC0000000 2 0 0)).map State.res0 = some 64#32 ∧
    (ran .sineSample (args 0x00200000 1 0 0)).map State.res0 = some 127#32 ∧
    (ran .sineSample (args 0x00200001 1 0 0)).map State.res0 = some 128#32 := by decide +kernel

/-- L2-S9 to L2-S12: the table, and rounding before the reduction. -/
theorem test_sineSample_table : (ran .sineSample (args 0x20000000 1 0 0)).map State.res0 = some 217#32 ∧
    (ran .sineSample (args 0x08000000 1 0 0)).map State.res0 = some 152#32 ∧
    (ran .sineSample (args 0xFFE66667 1 0 0)).map State.res0 = some 127#32 ∧
    (ran .sineSample (args 0x40000000 127 0 0)).map State.res0 = some 128#32 := by decide +kernel

/-- L2-S40 and L2-S44: averages, and in place. -/
theorem test_sineMix : (ran .sineMix (putting (putting (args 0x300 0x100 0x200 4) 0x100 [127, 190, 127, 64]) 0x200
      [127, 127, 127, 127])).map (fun t => (t.status, t.memRead 0x300 4)) = some (.okay, [127, 158, 127, 95]) ∧
    (ran .sineMix (putting (putting (args 0x100 0x100 0x200 2) 0x100 [10, 20]) 0x200 [30, 40])).map
      (fun t => t.memRead 0x100 2) = some [20, 30] := by decide +kernel

/-- L2-C1: the sixteen coefficients at 8 kHz. -/
theorem test_dtmfInit : (ran .dtmfInit (args 8000 0x3E4CCCCD 0 0)).map (fun t => (t.dtmf.cosw, t.dtmf.sinw)) =
    some ([0x3F5A9727, 0x3F529892, 0x3F48CABC, 0x3F3D35CF, 0x3F15015C, 0x3EFF121E, 0x3ECC7241, 0x3E918B5C],
      [0x3F053EB6, 0x3F118D45, 0x3F1ECDBC, 0x3F2C709B, 0x3F502AB3, 0x3F5DF858, 0x3F6AB479, 0x3F757056]) := by
  decide +kernel

/-- Log 9: at 8 kHz every coefficient is decided, whatever the error inside the band is. -/
theorem test_coefficients_decided : Config.dtmfTones.all (fun f =>
    let r := 4 * (f % 8000) % 8000
    sinQuarterDecided r 8000 && sinQuarterDecided (8000 - r) 8000) = true := by decide +kernel

/-- R7, D22: DTMF_INIT computes in the machine's own GNUM. -/
theorem test_dtmfInit_other_gnum :
    ∃ t, exec .dtmfInit { args 8000 0 0 0 with cfg := { Config.default with gnum := .other 3 } } = .next t ∧
      t.dtmf.cosw.head? = some ((gnumOf { Config.default with gnum := .other 3 }).cosTurn 697 8000) := ⟨_, rfl, rfl⟩

/-- L2-C4: a silent block under a threshold is NONE and releases the held symbol with its dwell (L2-C6). -/
theorem test_dtmfBlock_releases : (ran .dtmfBlock (dtmfState 0x3E4CCCCD (some 2) 400 .idle)).map
      (fun t => (t.res0, t.dtmf.held, t.dtmf.dwell, t.evq)) =
    some (16#32, none, 1#32, [⟨0x00330202#32, 0x190#32, 0#32⟩]) := by decide +kernel

/-- L2-C5: threshold 0 and a NaN threshold give row 0 and column 4, '1'. -/
theorem test_dtmfBlock_ties : (ran .dtmfBlock (dtmfState 0 none 0 .idle)).map (fun t => (t.res0, t.evq)) =
      some (0#32, [⟨0x00310001#32, 0#32, 0#32⟩]) ∧
    (ran .dtmfBlock (dtmfState 0x7FC00000 none 0 .idle)).map (fun t => (t.res0, t.dtmf.held)) =
      some (0#32, some 0) := by decide +kernel

/-- L1-D2 and L2-D1: the FCS of "0", and chaining. -/
theorem test_pktFcs : (ran .pktFcs (putting (args 0x200 1 0xFFFF 0) 0x200 [0x30])).map State.res0 = some 15876#32 ∧
    (ran .pktFcs (putting (args 0x200 1 0x3E04 0) 0x200 [0x30])).map State.res0 = some 30617#32 := by decide +kernel

/-- L1-D7. -/
theorem test_pktFrame : (ran .pktFrame (putting (args 0x300 0x200 12 0x64) 0x200 payload7)).map
    (fun t => (t.res0, t.memRead 0x300 24)) = some (24#32, frame7) := by decide +kernel

/-- L2-D2: address and control escaped. -/
theorem test_pktFrame_escapes_header : (ran .pktFrame (putting (args 0x300 0x200 1 0x7D7E) 0x200 [0x41])).map
    (fun t => (t.res0, t.memRead 0x300 11)) =
    some (11#32, [0x7E, 0x7D, 0x7E, 0x7D, 0x7D, 0x00, 0x01, 0x41, 0x42, 0x37, 0x7E]) := by decide +kernel

/-- L2-D7: a capacity of 4 is too small; R166's example. -/
theorem test_pktRxinit : (ran .pktRxinit (args 0x1000 4 0 0)).map State.status = some .invalid ∧
    (ran .pktRxinit (args 0x1000 1024 0 0)).map (fun t => (t.status, t.pkt.word)) =
      some (.okay, 0x80000000#32) := by decide +kernel

/-- R167's example. -/
theorem test_pktRxbyte : (ran .pktRxbyte { parser with arg0 := 0x7E#32 }).map
    (fun t => (t.pkt.rx, t.pkt.cursor, t.pkt.running, t.readBram 0x1000)) =
    some (.waitAddr, 1#32, 0xFFFF#16, 0x7E#8) := by decide +kernel

/-- L2-D12, its first command: an interrupted frame. -/
theorem test_pktRxstream_interrupted :
    (ran .pktRxstream (putting { parser with arg0 := 0x200#32, arg1 := 32#32 } 0x200 (part8 ++ frame7))).map
      (fun t => (t.res0, t.evq, t.pkt.rx, t.pkt.cursor)) =
    some (9#32, [⟨0x00006405#32, 0x1000#32, 7#32⟩], .waitAddr, 1#32) := by decide +kernel

/-- L2-D12, its second command: the complete frame, its payload after the header. -/
theorem test_pktRxstream_complete :
    (ran .pktRxstream (putting { parser with arg0 := 0x200#32, arg1 := 24#32 } 0x200 frame7)).map
      (fun t => (t.res0, t.evq, t.pkt.rx, t.memRead 0x1005 12)) =
    some (23#32, [⟨0x01006403#32, 0x1005#32, 12#32⟩], .idle, payload7) := by decide +kernel

/-- L1-P1 and R190. -/
theorem test_piNext : (ran .piNext State.reset).map State.res0 = some 0x33#32 ∧
    (ran .piNext { State.reset with pi := .sentinelWrong }).map State.res0 = some 0x41#32 ∧
    (ran .piNext { State.reset with pi := .pos 128 }).map State.res0 = some 0x23#32 := by decide +kernel

/-- L2-P2 and L2-P3. -/
theorem test_piRx : (ran .piRx { args 0x36 0 0 0 with pi := .pos 127 }).map (fun t => (t.status, t.res0, t.pi)) =
      some (.exhausted, 5#32, .pos 128) ∧
    (ran .piRx (args 0x133 0 0 0)).map (fun t => (t.status, t.pi)) = some (.okay, .pos 1) ∧
    (ran .piRx (args 0x39 0 0 0)).map (fun t => (t.status, t.res0, t.pi)) = some (.wrong, 4#32, .sentinelWrong) := by
  decide +kernel

/-- R194. -/
theorem test_piReset : ran .piReset { State.reset with pi := .sentinelWrong } = some State.reset := by decide +kernel

/-- L1-E1. -/
theorem test_emoInit : (ran .emoInit { args 1000 0 0 0 with emo := ⟨.bored, 7#32⟩ }).map State.emo =
    some ⟨.lonely, 1000#32⟩ := by decide +kernel

/-- L2-E1, L2-E2: three seconds exactly is not bored. -/
theorem test_emoUpdate_bored :
    (ran .emoUpdate { args 4000 1 0 0 with emo := ⟨.happy, 1000#32⟩ }).map (fun t => (t.emo, t.res0)) =
      some (⟨.happy, 1000#32⟩, 0#32) ∧
    (ran .emoUpdate { args 4001 1 0 0 with emo := ⟨.happy, 1000#32⟩ }).map (fun t => (t.emo, t.res0)) =
      some (⟨.bored, 4001#32⟩, 1#32) := by decide +kernel

/-- L2-E6, L2-E7: UNKNOWN, and a difference that does not wrap. -/
theorem test_emoUpdate_unknown_and_time_travel :
    (ran .emoUpdate { args 1000 1 0 0 with emo := ⟨.unknown, 1000#32⟩ }).map (fun t => (t.emo, t.res0)) =
      some (⟨.lonely, 1000#32⟩, 1#32) ∧
    (ran .emoUpdate { args 0 1 0 0 with emo := ⟨.lonely, 0xFFFFFFFF#32⟩ }).map (fun t => (t.emo, t.res0)) =
      some (⟨.lonely, 0#32⟩, 0#32) := by decide +kernel

/-- L2-O4 with 16 samples: the first 16 bytes of L2-C3, and the three events. -/
theorem test_orchTick_sends : (ran .orchTick (orchState .waitingSend)).map
      (fun t => (t.orch.phase, (t.memRead 0x2000 16).map BitVec.toNat, t.evq)) =
    some (.sending, [127, 172, 178, 148, 121, 124, 142, 137, 101, 69, 78, 125, 167, 169, 142, 125],
      [⟨6#32, 0x2000#32, 16#32⟩, ⟨7#32, 0#32, 0#32⟩, ⟨9#32, 0#32, 0#32⟩]) := by decide +kernel

/-- L2-O5: leaving BORED, with the Pi cursor kept. -/
theorem test_orchTick_leaves_bored :
    (ran .orchTick { orchState .sending with emo := ⟨.happy, 0#32⟩, pi := .pos 5 }).map
      (fun t => (t.orch.phase, t.pi, t.evq)) =
    some (.idle, .pos 5, [⟨8#32, 0#32, 0#32⟩, ⟨0xA#32, 0#32, 0#32⟩]) := by decide +kernel

/-- L2-O6: the release of '9' where '3' was due. -/
theorem test_dtmfBlock_wrong_symbol : (ran .dtmfBlock (dtmfState 0x3E4CCCCD (some 10) 200 .waitingStop)).map
      (fun t => (t.orch.phase, t.pi, t.evq, t.status)) =
    some (.restart, .sentinelWrong, [evDtmfUp 10 200, evAdcStop], .okay) := by decide +kernel

/-- L2-X9, and the head of two records. -/
theorem test_evtPop : (ran .evtPop State.reset).map State.status = some .invalid ∧
    (ran .evtPop { State.reset with evq := [evDacStop, evAdcStop], evqOvf := true }).map
      (fun t => (t.evq, t.evqOvf, t.status)) = some ([evAdcStop], true, .okay) := by decide +kernel

/-- L2-Q1, its end. -/
theorem test_evtClear : ran .evtClear { State.reset with evq := [evDacStop], evqOvf := true } = some State.reset := by
  decide +kernel

/-! ### The HOST port -/

/-- R80: a word write is little-endian, byte by byte. -/
theorem test_host_word_write : (stepped { State.reset with hostQueue := [.write .word 0x4010 0x44332211#32] }).map
    (fun t => t.memRead 0x10 4) = some [0x11, 0x22, 0x33, 0x44] := by decide +kernel

/-- A machine whose BRAM of 2049 bytes ends one byte into a word. -/
def oddBram : State := { State.reset with cfg := { Config.default with bramSize := 2049 }, bram := [(2048, 9#8)] }

/-- R27: offsets without a register, the first slot block beyond NSREQ among them, read 0. -/
theorem test_host_reads_holes :
    [0x028, 0x080, 0x240, 0x33C, 0x3FC].map (fun off => (State.reset.perform (.read .word off))) =
      List.replicate 5 (.next State.reset) := rfl

/-- R80 and R81: an access past the end of BRAM, one that is not aligned, one outside the window. -/
theorem test_host_bram_end : oddBram.perform (.read .word 0x4800) = .next { oddBram with hostRead := 9#32 } ∧
    State.reset.perform (.read .half 0x4001) = .fault .accessNotAdmitted ∧
    State.reset.perform (.read .word 0x8000) = .refused .outsideWindow := ⟨rfl, rfl, rfl⟩

/-- L2-Q3: the soft reset. -/
theorem test_host_soft_reset :
    (stepped { parser with irqEn := true, evq := [evDacStop], bram := [(5, 9#8)], hostQueue := [.write .word 4 3#32] }) =
      some { State.reset with bram := [(5, 9#8)] } := by decide +kernel

/-- L2-X5: an ILLEGAL word changes STATUS.CODE only. -/
theorem test_host_illegal : stepped { parser with hostQueue := [.write .word 0x00C 0x113#32] } =
    some { parser with status := .illegal } := by decide +kernel

/-- The host's entry: the very next step runs the word. -/
theorem test_withFetchWord : stepped (State.reset.withFetchWord 32 0x40) =
    some { State.reset with res0 := 0x33#32 } := by decide +kernel

/-- R109 to R112: what `pkt.frame1 0x300, 0x200, 12, 0x64, 1` expands to. -/
theorem test_asm : Stmt.expand Config.default (.pktFrame1 0x300#32 0x200#32 12#32 0x64#8 1#8) =
    [.write .word 0x010 0x300#32, .write .word 0x014 0x200#32, .write .word 0x018 12#32,
      .write .word 0x01C 0x164#32, .write .word 0x00C 0x31#32] := by decide +kernel

/-! ### Witnesses for the hypotheses of the statements -/

/-- A command changes this part of the state. -/
def moved {α : Type} [DecidableEq α] (f : State → α) (i : Instr) (s : State) : Bool :=
  match exec i s with
  | .next t => decide (f t ≠ f s)
  | .fault _ => false
  | .refused _ => false

/-- A waiting CMD write of this word. -/
def waiting (w : Word) : State := { State.reset with hostQueue := [.write .word 0x00C w] }

/-- A queue that is full. -/
def fullQueue : State := { State.reset with evq := List.replicate 64 evDacStop }

/-- A slot whose buffer ends with BRAM. -/
def lastRequest : SineReq := ⟨16380#32, 4#32, 0#32, 500#32, 2000#32, 1#32, 0#32, 0#32⟩

/-- A parser in this state. -/
def parserIn (rx : RxState) (esc : Bool) : PktState := { rxInit 0x1000#32 64#32 with rx := rx, esc := esc }

theorem witness_DecodeInvertsEncode : (Instr.sineFill 15).WellFormed ∧ (Instr.sineFill 0).WellFormed := by decide

theorem witness_EncodeInvertsDecode : decode 0x00000F12#32 = some (.sineFill 15) ∧ decode 0x71#32 = some .evtClear := by
  decide

theorem witness_StepRunsDecodedCommand :
    decode 0x40#32 = some .piNext ∧
    (waiting 0x40).hostQueue = .write .word ((waiting 0x40).cfg.coreBase + 0x00C) 0x40#32 :: [] ∧
    decodeTableWord 32 0xF12 = some (.sineFill 15) ∧ State.reset.hostQueue = [] := by decide +kernel

theorem witness_IllegalCommandChangesStatusOnly :
    decode 0x113#32 = none ∧
    (waiting 0x113).hostQueue = .write .word ((waiting 0x113).cfg.coreBase + 0x00C) 0x113#32 :: [] := by decide +kernel

theorem witness_HostReadsHaveNoSideEffect :
    (∃ t, State.reset.perform (.read .word 0x7FFC) = .next t) ∧ ∃ t, State.reset.perform (.read .word 0) = .next t :=
  ⟨⟨_, rfl⟩, ⟨_, rfl⟩⟩

/-- The last register of the last slot, and CMD. -/
theorem witness_RegisterAccessReachesNamedRegister :
    State.reset.cfg.nsreq ≤ 16 ∧ 1 < State.reset.cfg.nsreq ∧ (Reg.sreq 1 .phaseErr).offset = some 0x07C ∧
    Reg.sreq 1 .phaseErr ≠ .cmd ∧ Reg.cmd.offset = some 0x00C := by decide +kernel

theorem witness_RegisterFieldsLieWhereMapped :
    fullQueue.evq.length < 2 ^ 16 ∧ fullQueue.evq = evDacStop :: List.replicate 63 evDacStop ∧ State.reset.evq = [] ∧
    State.reset.sreq[1]? = some SineReq.reset ∧ 1 < State.reset.cfg.nsreq ∧ State.reset.cfg.nsreq ≤ 2 ∧
    State.reset.pi = .pos (0 : Fin 129) ∧ ({ State.reset with pi := .pos 128 } : State).pi = .pos (128 : Fin 129) ∧
    ({ State.reset with pi := .sentinelWrong } : State).pi = .sentinelWrong := by decide +kernel

theorem witness_WrittenRegistersReadBack :
    State.reset.sreq.length = State.reset.cfg.nsreq ∧ (0xFFFFFFFD#32 : Word).getLsbD 1 = false ∧
    1 < State.reset.cfg.nsreq := by decide +kernel

/-- ID, a hole in the register block, its last offset, the first slot that does not exist, the first and the last reserved bytes. -/
theorem witness_OtherRegisterWritesIgnored :
    (0x000 < 0x400 ∧ 0x028 < 0x400 ∧ 0x028 % 4 = 0 ∧ 0x3FC < 0x400 ∧ 0x3FC % 4 = 0) ∧
    ¬ (0x040 ≤ 0x028 ∧ 0x028 < 0x040 + 0x20 * min State.reset.cfg.nsreq 16) ∧
    ¬ (0x040 ≤ 0x080 ∧ 0x080 < 0x040 + 0x20 * min State.reset.cfg.nsreq 16) ∧
    (0x400 ≤ 0x400 ∧ 0x400 + Width.word.bytes ≤ 0x4000) ∧ (0x3FFF + Width.byte.bytes ≤ 0x4000) ∧
    (0x4000 + oddBram.cfg.bramSize ≤ 0x4801 ∧ 0x7FFC + Width.word.bytes ≤ 0x8000) := by decide +kernel

/-- The last bytes of the register block and of BRAM, on both sides of each clause. -/
theorem witness_UnadmittedAccessIsStuck :
    State.reset.cfg.bramSize ≤ 0x4000 ∧
    State.reset.perform (.read .byte 0x3FF) = .fault .accessNotAdmitted ∧
    State.reset.perform (.read .word 0x3FE) = .fault .accessNotAdmitted ∧
    (∃ t, State.reset.perform (.read .word 0x3FC) = .next t) ∧
    State.reset.perform (.read .half 0x7FFF) = .fault .accessNotAdmitted ∧
    (∃ t, State.reset.perform (.read .byte 0x7FFF) = .next t) ∧
    ∃ t, State.reset.perform (.read .word 0x4000) = .next t :=
  ⟨by decide +kernel, rfl, rfl, ⟨_, rfl⟩, rfl, ⟨_, rfl⟩, ⟨_, rfl⟩⟩

/-- A word that starts in the last byte of BRAM, and a half word that is not aligned. -/
theorem witness_BramAccessIsLittleEndian :
    oddBram.bram.wf ∧ oddBram.cfg.bramSize ≤ 0x4000 ∧ 2048 < oddBram.cfg.bramSize ∧ 2048 % Width.word.bytes = 0 ∧
    2047 % Width.half.bytes ≠ 0 ∧ oddBram.cfg.bramSize ≤ 2049 ∧ oddBram.cfg.bramSize ≤ 2051 := by decide +kernel

theorem witness_ResetsGiveResetValues : (2#32 : Word).getLsbD 1 = true ∧ (0xFFFFFFFF#32 : Word).getLsbD 1 = true := by
  decide

theorem witness_EventRecordLayout : State.reset.evq = [] := rfl

/-- One place left, and none. -/
theorem witness_EmitAppendsOrDrops :
    ({ State.reset with evq := List.replicate 63 evDacStop } : State).evq.length < State.reset.cfg.evqDepth ∧
    fullQueue.cfg.evqDepth ≤ fullQueue.evq.length := by decide +kernel

theorem witness_ControlCommands : State.reset.evq = [] ∧ fullQueue.evq = evDacStop :: List.replicate 63 evDacStop := by
  decide +kernel

/-- A flush, and a block. -/
theorem witness_EventsOnlyAppend :
    (∃ t, exec .dtmfBlock { dtmfState 0 (some 2) 400 .waitingStop with arg1 := 0#32 } = .next t) ∧
    ∃ t, exec .pktRxbyte parser = .next t := ⟨⟨_, rfl⟩, ⟨_, rfl⟩⟩

theorem witness_StatusesPerCommand : (∃ t, exec .evtPop State.reset = .next t) ∧ State.reset.cfg.Legal :=
  ⟨⟨_, rfl⟩, default_legal⟩

/-- A plain failure, and SINE_POPULATE's on a slot and on the null request. -/
theorem witness_FailureChangesOnlyStatus :
    (ran .evtPop State.reset).map (fun t => t.status.isFailure) = some true ∧
    (ran (.sinePopulate 1) (args 1 1 0 1)).map (fun t => t.status.isFailure) = some true ∧
    (ran (.sinePopulate 15) (args 1 1 1 1)).map (fun t => t.status.isFailure) = some true := by decide +kernel

theorem witness_OperandsAndHostSideUntouched : ∃ t, exec .piRx State.reset = .next t := ⟨_, rfl⟩

/-- Each part of the state does change, by one of the commands the statement names. -/
theorem witness_UnitsOwnTheirState :
    moved State.sreq (.sinePopulate 1) (args 1 1 1 1) = true ∧
    moved State.dtmf .dtmfInit (args 8000 0 0 0) = true ∧
    moved State.pkt .pktRxinit (args 1 5 0 0) = true ∧
    moved State.pi .piRx State.reset = true ∧
    moved State.pi .orchTick { orchState .restart with pi := .sentinelWrong } = true ∧
    moved State.pi .dtmfBlock (dtmfState 0x3E4CCCCD (some 2) 200 .waitingStop) = true ∧
    moved State.emo .emoInit (args 1 0 0 0) = true ∧
    moved (fun s => s.orch.phase) .orchTick (orchState .idle) = true ∧
    moved (fun s => s.orch.phase) .dtmfBlock (dtmfState 0 none 0 .sending) = true ∧
    moved State.res0 .piNext State.reset = true := by decide +kernel

theorem witness_NonStoringCommandsKeepBram : (∃ t, exec (.sinePopulate 1) State.reset = .next t) ∧
    ∃ t, exec .piNext State.reset = .next t := ⟨⟨_, rfl⟩, ⟨_, rfl⟩⟩

theorem witness_PopulateFillsSlot : State.reset.sreq.length = State.reset.cfg.nsreq ∧
    State.reset.cfg.nsreq ≤ 2 ∧ 1 < State.reset.cfg.nsreq := by decide +kernel

/-- Each check fails in turn, the tone at exactly half the rate and the buffer one byte past the end among them. -/
theorem witness_SineCheckOrder :
    let bad := fun r : SineReq => (ran (.sineFill 0) (sineState r)).map State.status
    (ran (.sineFill 2) State.reset).map State.status = some .invalid ∧
    bad { lastRequest with fTone := 0 } = some .invalid ∧ bad { lastRequest with scale := 0 } = some .invalid ∧
    bad { lastRequest with fTone := 1000 } = some .undersampled ∧
    bad { lastRequest with fTone := 999, buf := 16381 } = some .erange ∧
    (sineState lastRequest).sreq.length = (sineState lastRequest).cfg.nsreq ∧
    (sineState lastRequest).sreq[0]? = some lastRequest := by decide +kernel

theorem witness_GenerateResult :
    let s := sineState lastRequest
    let r := lastRequest
    s.bram.wf ∧ 0 < s.cfg.nsreq ∧ s.sreq[0]? = some r ∧ r.buf ≠ 0#32 ∧ r.bufLen ≠ 0#32 ∧ r.fTone ≠ 0#32 ∧
    r.fSample ≠ 0#32 ∧ r.scale ≠ 0#32 ∧ 2 * r.fTone.toNat < r.fSample.toNat ∧
    r.buf.toNat + r.bufLen.toNat ≤ s.cfg.bramSize ∧ 4 = min (r.fSample.toNat / r.fTone.toNat) r.bufLen.toNat := by
  decide +kernel

theorem witness_FillResult :
    let s := sineState lastRequest
    let r := lastRequest
    s.bram.wf ∧ 0 < s.cfg.nsreq ∧ s.sreq[0]? = some r ∧ r.buf ≠ 0#32 ∧ r.bufLen ≠ 0#32 ∧ r.fTone ≠ 0#32 ∧
    r.fSample ≠ 0#32 ∧ r.scale ≠ 0#32 ∧ 2 * r.fTone.toNat < r.fSample.toNat ∧
    r.buf.toNat + r.bufLen.toNat ≤ s.cfg.bramSize ∧ 2000 = r.bufLen.toNat * r.fTone.toNat ∧
    1 = (2000 + r.fSample.toNat - 1) / r.fSample.toNat := by decide +kernel

theorem witness_FillMatchesGenerate : (sineState lastRequest).sreq[0]? = some lastRequest ∧
    lastRequest.bufLen.toNat * lastRequest.fTone.toNat ≤ lastRequest.fSample.toNat ∧ lastRequest.fSample ≠ 0#32 ∧
    lastRequest.bufLen.toNat * lastRequest.fTone.toNat % lastRequest.fSample.toNat = 0 := by decide +kernel

/-- The four quarter positions at scale 1, den 1. -/
theorem witness_SampleIsBiasedQuotient :
    Config.default.Legal ∧ ∀ p ∈ [0, 256, 512, 768],
      p = (if 2 * (p % 1) > 1 then p / 1 + 1 else p / 1) % 1024 := ⟨default_legal, by decide⟩

theorem witness_SineSampleResult :
    (args 0 0 0 0).arg1 = 0#32 ∧ (args 0 1 0 0).arg1 ≠ 0#32 ∧ (args 0 0 0 0).cfg.Legal ∧
    128 ≤ (args 0 128 0 0).arg1.toNat ∧ (args 4293289575 1 0 0).arg0 = 4293289575#32 ∧
    (args 0x00200000 1 0 0).arg0 = 0x00200000#32 ∧ (args 0x40000000 1 0 0).arg0 = 0x40000000#32 :=
  ⟨rfl, by decide, default_legal, by decide, rfl, rfl, rfl⟩

/-- Nothing to mix, a NULL operand, a destination that ends one byte past BRAM, and one that ends with it. -/
theorem witness_MixAveragesBytes :
    State.reset.bram.wf ∧ (ran .sineMix (args 0 0 0 0)).map State.status = some .okay ∧
    (ran .sineMix (args 1 0 1 1)).map State.status = some .invalid ∧
    (ran .sineMix (args 16383 1 1 2)).map State.status = some .erange ∧
    (ran .sineMix (args 16382 1 1 2)).map State.status = some .okay := by decide +kernel

/-- The four quarter turns of 8 kHz, the last tone's reflection, and the end of the first quarter. -/
theorem witness_DtmfInitConfigures : (args 0 0 0 0).arg0 = 0#32 ∧ (args 1 0 0 0).arg0 ≠ 0#32 ∧
    0 < 8000 ∧ 4 * 2000 = 8000 ∧ 2 * 4000 = 8000 ∧ 4 * 6000 = 3 * 8000 ∧ 1633 ≤ 8000 ∧ 4 * 1633 ≤ 8000 := by decide

/-- Every failing check, each at its boundary where it has one, and the empty stream. -/
theorem witness_BlockAndPacketCheckOrder :
    let st := fun i s => (ran i s).map State.status
    let d := dtmfState 0 none 0 .idle
    st .dtmfBlock (args 1 1 0 0) = some .invalid ∧ st .dtmfBlock { d with arg0 := 0#32 } = some .invalid ∧
    st .dtmfBlock { d with arg0 := 16384#32 } = some .erange ∧
    st .pktFcs (args 0 1 0 0) = some .invalid ∧ st .pktFcs (args 16383 2 0 0) = some .erange ∧
    st .pktFrame (args 0 1 1 0) = some .invalid ∧ st .pktFrame (args 1 0 1 0) = some .invalid ∧
    st .pktFrame (args 1 16383 2 0) = some .erange ∧ st .pktRxinit (args 1 4 0 0) = some .invalid ∧
    st .pktRxinit (args 0 5 0 0) = some .invalid ∧ st .pktRxinit (args 16380 5 0 0) = some .erange ∧
    st .pktRxbyte State.reset = some .invalid ∧ st .pktRxstream State.reset = some .invalid ∧
    st .pktRxstream parser = some .okay ∧ st .pktRxstream { parser with arg1 := 1#32 } = some .invalid ∧
    st .pktRxstream { parser with arg0 := 16383#32, arg1 := 2#32 } = some .erange := by decide +kernel

/-- The symbol the block of a `dtmfState` reports. -/
def seen (s : State) : Option (Fin 16) :=
  classify (gnumOf s.cfg) (magnitudes (gnumOf s.cfg) s.cfg.adcBias s.dtmf
    ((List.range s.arg1.toNat).map (fun i => s.readBram (s.arg0.toNat + i)))) s.dtmf.thresh

/-- NONE held with a saturated dwell. -/
theorem witness_DtmfBlockSameSymbol :
    let s := dtmfState 0x3E4CCCCD none 0xFFFFFFFF .idle
    s.dtmf.init = true ∧ s.arg1.toNat ≠ 0 ∧ s.arg0 ≠ 0#32 ∧ s.arg0.toNat + s.arg1.toNat ≤ s.cfg.bramSize ∧
    seen s = s.dtmf.held := by decide +kernel

/-- A release in WAITING_STOP, a press in SENDING, and a change from one symbol to another. -/
theorem witness_DtmfBlockNewSymbol :
    let ok := fun (s : State) (new : Option (Fin 16)) => s.dtmf.init = true ∧ s.arg1.toNat ≠ 0 ∧ s.arg0 ≠ 0#32 ∧
      s.arg0.toNat + s.arg1.toNat ≤ s.cfg.bramSize ∧ seen s = new ∧ new ≠ s.dtmf.held
    ok (dtmfState 0x3E4CCCCD (some 10) 200 .waitingStop) none ∧ ok (dtmfState 0 none 0 .sending) (some 0) ∧
    ok (dtmfState 0 (some 10) 200 .waitingStop) (some 0) := by decide +kernel

theorem witness_DtmfFlushResult :
    let s := fun h p => { dtmfState 0 h 400 p with arg1 := 0#32 }
    (s none .idle).dtmf.init = true ∧ (s none .idle).arg1 = 0#32 ∧ (s none .idle).dtmf.held = none ∧
    (s (some 15) .idle).dtmf.held = some 15 ∧ (s (some 15) .idle).orch.phase ≠ .waitingStop ∧
    (s (some 0) .waitingStop).dtmf.held = some 0 ∧ (s (some 0) .waitingStop).orch.phase = .waitingStop := by
  decide +kernel

theorem witness_GoertzelFollowsRecurrence : ([127#8, 255#8] : List Byte)[1]? = some 255#8 := rfl

/-- An initialised demodulator at 8 kHz with threshold 0.4, and a block of one sample at the baseline. -/
theorem witness_SilentBlockIsNone :
    let s := { dtmfState 0 none 0 .idle with dtmf := dtmfInit binary32 8000#32 0x3ECCCCCD#32 }
    s.dtmf.Inv s.cfg ∧ s.dtmf.init = true ∧ s.arg1 ≠ 0#32 ∧ s.arg0 ≠ 0#32 ∧ s.arg0.toNat + s.arg1.toNat ≤ s.cfg.bramSize ∧
    (∀ i, i < s.arg1.toNat → (s.readBram (s.arg0.toNat + i)).toNat = s.cfg.adcBias) ∧
    (gnumOf s.cfg).datum ((gnumOf s.cfg).mul s.dtmf.thresh s.dtmf.thresh) ≠ .nan ∧
    (gnumOf s.cfg).datum ((gnumOf s.cfg).mul s.dtmf.thresh s.dtmf.thresh) ≠ .fin 0 := by
  have hd : binary32.datum (binary32.mul 0x3ECCCCCD#32 0x3ECCCCCD#32) = .fin (f32Value false 0x51EB858000000000000000000000000000000) :=
    datum_of_fin (by decide +kernel)
  refine ⟨⟨rfl, rfl, fun _ => ⟨by decide, rfl, rfl⟩⟩, rfl, by decide, by decide, by decide +kernel, by decide +kernel, ?_, ?_⟩
  · show binary32.datum (binary32.mul 0x3ECCCCCD#32 0x3ECCCCCD#32) ≠ _
    rw [hd]; exact nofun
  · show binary32.datum (binary32.mul 0x3ECCCCCD#32 0x3ECCCCCD#32) ≠ _
    rw [hd]
    intro h
    injection h with h
    exact absurd ((f32Value_eq_zero _ _).1 h) (by decide)

theorem witness_BestIsFirstMaximum :
    ∀ j, F32.ofBits (([0x3F800000#32, 0x40000000#32] : List Word).getD j 0#32) ≠ .nan := by
  intro j
  match j with
  | 0 => decide +kernel
  | 1 => decide +kernel
  | _ + 2 => exact (by decide +kernel : F32.ofBits 0#32 ≠ .nan)

/-- Below, equal to and never below the squared threshold. -/
theorem witness_ClassifyAgainstThreshold :
    let mag := List.replicate 8 0#32
    0 = bestOf binary32 mag 0 ∧ 4 = bestOf binary32 mag 4 ∧
    binary32.lt (mag.getD 0 0#32) (binary32.mul 0x3E4CCCCD#32 0x3E4CCCCD#32) = true ∧
    binary32.lt (mag.getD 0 0#32) (binary32.mul 0#32 0#32) = false ∧ mag.getD 4 0#32 = binary32.mul 0#32 0#32 ∧
    F32.ofBits 0x7FC00000#32 = .nan := by decide +kernel

/-- A tie below the least subnormal; finite data whose products, quotients, sums and differences are not 0, and the two zeros, whose are. -/
theorem witness_Binary32RoundsToNearest :
    0 = roundMag 1 (2 ^ 150) ∧ 0x7F800000 = roundMag (2 ^ 128) 1 ∧ 0x7F7FFFFF = roundMag (2 ^ 128 - 2 ^ 104) 1 ∧
    F32.ofBits 0x00000001#32 = .fin false 1 ∧ F32.ofBits 0x80000003#32 = .fin true 3 ∧ F32.ofBits 0#32 = .fin false 0 ∧
    F32.ofBits 0x80000000#32 = .fin true 0 := by decide +kernel

theorem witness_PktFcsResult : (args 0 0 0xFFFF 0).arg1 = 0#32 ∧ (args 16383 1 0 0).arg1 ≠ 0#32 ∧
    (args 16383 1 0 0).arg0.toNat + (args 16383 1 0 0).arg1.toNat ≤ State.reset.cfg.bramSize := by decide +kernel

theorem escAll_replicate (b : Byte) (n : Nat) :
    (escAll (List.replicate n b)).length = n * (esc b).length := by
  induction n with
  | zero => simp [escAll]
  | succ n ih => simp [escAll, List.replicate_succ, ih, Nat.succ_mul, Nat.add_comm]

/-- Every escaped length occurs, 1016 and 1017 among them; a destination one byte short, and one that fits. -/
theorem witness_PktFrameResult :
    State.reset.bram.wf ∧ (args 0x1000 0x200 1017 0).arg1 ≠ 0#32 ∧
    (args 0x1000 0x200 1017 0).arg1.toNat + (args 0x1000 0x200 1017 0).arg2.toNat ≤ State.reset.cfg.bramSize ∧
    (∀ n, (escAll ((List.range n).map (fun i => State.reset.readBram (0x200 + i)))).length = n) ∧
    (ran .pktFrame (args 16377 0 0 0x64)).map State.status = some .erange ∧
    (ran .pktFrame (args 16376 0 0 0x64)).map State.status = some .okay := by
  refine ⟨by decide +kernel, by decide +kernel, by decide +kernel, fun n => ?_, by decide +kernel, by decide +kernel⟩
  have h : (List.range n).map (fun i => State.reset.readBram (0x200 + i)) = List.replicate n 0#8 := by
    simp [State.readBram, State.reset, State.powerOn, Memory.read, Memory.fill]
  rw [h, escAll_replicate, show (esc 0#8).length = 1 from rfl, Nat.mul_one]

/-- The longest payload of FLAG bytes. -/
theorem witness_FrameLengthBound : (escAll (List.replicate 508 0x7E#8)).length ≤ 1016 := by
  rw [escAll_replicate]; decide

theorem witness_PktRxInitResult : (args 16379 5 0 0).arg0 ≠ 0#32 ∧ 5 ≤ (args 16379 5 0 0).arg1.toNat ∧
    (args 16379 5 0 0).arg0.toNat + (args 16379 5 0 0).arg1.toNat ≤ (args 16379 5 0 0).cfg.bramSize := by decide +kernel

/-- A byte that is stored, and one that is not. -/
theorem witness_PktRxByteResult : parser.bram.wf ∧ parser.pkt.init = true ∧
    (rxStep parser.pkt 0x7E#8).store = some (0x1000, 0x7E#8) ∧ (rxStep parser.pkt 0x7D#8).store = none := by
  decide +kernel

theorem witness_RxFlagAndEscapeRows :
    (parserIn .idle false).rx = .idle ∧ (parserIn .waitAddr false).rx = .waitAddr ∧
    (parserIn .waitAddr false).esc = false ∧ (parserIn .waitFcsLo false).rx ≠ .idle ∧
    (parserIn .waitFcsLo false).rx ≠ .waitAddr ∧ (parserIn .inBody false).rx = .inBody ∧
    (parserIn .waitLenLo false).rx = .waitLenLo := by decide

/-- An escaped FLAG is a literal, and so is a plain byte; a length of 59 fits a capacity of 64, and 60 does not. -/
theorem witness_RxLiteralRows :
    (parserIn .waitAddr true).esc = true ∧ (0x64#8 ≠ 0x7E#8 ∧ 0x64#8 ≠ 0x7D#8) ∧
    min 1016 ((parserIn .waitLenLo false).rxcap.toNat - 5) < (60#16 : BitVec 16).toNat ∧
    (59#16 : BitVec 16).toNat ≤ min 1016 ((parserIn .waitLenLo false).rxcap.toNat - 5) := by decide

/-- A stream that ends with BRAM. -/
theorem witness_RxStreamResult :
    let s := { parser with arg0 := 16376#32, arg1 := 8#32 }
    s.bram.wf ∧ s.pkt.Inv s.cfg ∧ s.pkt.init = true ∧ s.arg1 ≠ 0#32 ∧ s.arg0 ≠ 0#32 ∧
    s.arg0.toNat + s.arg1.toNat ≤ s.cfg.bramSize := by decide +kernel

/-- From IDLE and from WAIT_ADDR, with the longest payload of escaped bytes that fits. -/
theorem witness_FrameRoundTrip :
    (∀ s ∈ [parser, parser.rxByte 0x7E#8], s.bram.wf ∧ s.pkt.Inv s.cfg ∧ s.pkt.init = true ∧
      (escAll (List.replicate 29 0x7E#8)).length ≤ min 1016 (s.pkt.rxcap.toNat - 5) ∧
      s.evq.length < s.cfg.evqDepth) ∧
    parser.pkt.rx = .idle ∧ (parser.rxByte 0x7E#8).pkt.rx = .waitAddr ∧ (parser.rxByte 0x7E#8).pkt.esc = false := by
  decide +kernel

/-- A wrong reception latched, a finished recital, the last and the first digit. -/
theorem witness_PiCommands :
    State.reset.cfg.Legal ∧ ({ State.reset with pi := .sentinelWrong } : State).pi = .sentinelWrong ∧
    ({ State.reset with pi := .pos 128 } : State).pi = .pos 128 ∧
    State.reset.cfg.piDigits[(127 : Fin 129).val]? = some 0x36#8 ∧ State.reset.cfg.piDigits[(0 : Fin 129).val]? = some 0x33#8 :=
  ⟨default_legal, rfl, rfl, by decide +kernel, by decide +kernel⟩

/-- The four ways out: PI_RESET, the RESTART tick, the soft reset, the power-on reset. -/
theorem witness_WrongLatches :
    let out := fun (s : State) (i : HostInput) =>
      (stepped { s with pi := .sentinelWrong, hostQueue := [i] }).map (fun t => decide (t.pi ≠ .sentinelWrong))
    out State.reset (.write .word 0x00C 0x42#32) = some true ∧
    out (orchState .restart) (.write .word 0x00C 0x60#32) = some true ∧
    out State.reset (.write .word 0x004 2#32) = some true ∧ out State.reset (.powerOnReset []) = some true := by
  decide +kernel

/-- Every row, at the last tick that stays and the first that moves. -/
theorem witness_EmotionCommands :
    let dt := fun (now ts : Word) => (now.toNat : Int) - ts.toNat
    dt 999 1000 < 0 ∧ 0 ≤ dt 1000 1000 ∧ dt 4000 1000 ≤ 3 * (State.reset.cfg.tps : Int) ∧
    3 * (State.reset.cfg.tps : Int) < dt 4001 1000 ∧ dt 6000 1000 ≤ 5 * (State.reset.cfg.tps : Int) ∧
    5 * (State.reset.cfg.tps : Int) < dt 6001 1000 ∧ (args 0 1 0 0).arg1.getLsbD 0 = true ∧
    (args 0 2 0 0).arg1.getLsbD 0 = false := by decide +kernel

theorem witness_OrchTickRows :
    (orchState .done).orch.phase ≠ .idle ∧ { orchState .done with emo := ⟨.happy, 0#32⟩ }.emo.emotion ≠ .bored ∧
    (orchState .idle).orch.phase = .idle ∧ (orchState .idle).emo.emotion = .bored ∧
    (orchState .sending).orch.phase = .sending ∧ (orchState .restart).orch.phase = .restart := by decide

/-- The digit '3' is code 2; each precondition fails in turn, at its boundary. -/
theorem witness_SendDigitResult :
    let st := fun (o : OrchState) => (ran .orchTick { orchState .waitingSend with orch := o }).map State.status
    State.reset.cfg.Legal ∧ symChar 2 = piNext State.reset.cfg State.reset.pi ∧
    st ⟨.waitingSend, 0x2000#32, 16#32, 0#32⟩ = some .invalid ∧
    st ⟨.waitingSend, 0x2000#32, 16#32, 2954#32⟩ = some .undersampled ∧
    st ⟨.waitingSend, 16369#32, 16#32, 2955#32⟩ = some .erange ∧
    st ⟨.waitingSend, 16368#32, 16#32, 2955#32⟩ = some .okay :=
  ⟨default_legal, by decide +kernel, by decide +kernel, by decide +kernel, by decide +kernel, by decide +kernel⟩

/-- A tick and a block that move the orchestrator, and the tick that stores. -/
theorem witness_OrchestratorMoves :
    moved (fun s => s.orch.phase) .orchTick (orchState .restart) = true ∧
    moved (fun s => s.orch.phase) .dtmfBlock (dtmfState 0 none 0 .sending) = true ∧
    moved (fun s => s.readBram 0x2000) .orchTick (orchState .waitingSend) = true := by decide +kernel

theorem witness_ResetMeetsInvariant : Config.default.Legal := default_legal

/-- A state with a command waiting meets the invariant and has a next state. -/
theorem witness_StepKeepsInvariant : (waiting 0x71#32).Inv ∧ ∃ t, step (waiting 0x71#32) = .next t :=
  ⟨inv_same (powerOn_inv _ [] default_legal ⟨List.Pairwise.nil, by simp⟩ (by simp)) rfl rfl rfl rfl rfl rfl rfl,
    ⟨_, rfl⟩⟩

end Sys2Proof.Machine.Tests
end

