-- ==== Sys2Proof/Proofs/Binary32Rounding.lean ====
section
/-! SUPPORT. Binary32 rounds to nearest, ties to even: the integer rounding, the grid it is done on, and the operations that use it (00_scope.md R18, 41_dtmf.md R153). -/

namespace Sys2Proof.Machine

/-! ### Rounding to an integer -/

/-- The rounded integer is at most half a unit away, and an even one where it is exactly half. -/
theorem roundHalfEven_half (a : Nat) {b : Nat} (hb : 0 < b) :
    2 * ((roundHalfEven a b * b : Nat) - (a : Nat) : Int).natAbs ≤ b ∧
    (2 * ((roundHalfEven a b * b : Nat) - (a : Nat) : Int).natAbs = b → roundHalfEven a b % 2 = 0) := by
  have hdiv : a / b * b + a % b = a := Nat.div_add_mod' a b
  have hmod := Nat.mod_lt a hb
  unfold roundHalfEven
  split
  · rw [Nat.add_one_mul (a / b)]
    generalize a / b * b = c at *
    omega
  · generalize a / b * b = c at *
    omega

/-- No integer is nearer than the rounded one, and another one as near leaves it even. -/
theorem roundHalfEven_nearest (a : Nat) {b : Nat} (hb : 0 < b) (j : Nat) :
    ((roundHalfEven a b * b : Nat) - (a : Nat) : Int).natAbs ≤ ((j * b : Nat) - (a : Nat) : Int).natAbs ∧
    (j ≠ roundHalfEven a b →
      ((roundHalfEven a b * b : Nat) - (a : Nat) : Int).natAbs = ((j * b : Nat) - (a : Nat) : Int).natAbs →
      roundHalfEven a b % 2 = 0) := by
  by_cases hj : j = roundHalfEven a b
  · exact ⟨by rw [hj], fun h => absurd hj h⟩
  obtain ⟨hle, heven⟩ := roundHalfEven_half a hb
  have hgap : j * b + b ≤ roundHalfEven a b * b ∨ roundHalfEven a b * b + b ≤ j * b := by
    rw [← Nat.add_one_mul, ← Nat.add_one_mul]
    exact (Nat.lt_or_gt_of_ne hj).imp (Nat.mul_le_mul_right b) (Nat.mul_le_mul_right b)
  generalize roundHalfEven a b = r at *
  generalize r * b = c at *
  omega

/-- Half a unit below an even integer is where rounding first reaches it. -/
theorem even_le_roundHalfEven_iff (a : Nat) {b : Nat} (hb : 0 < b) {k : Nat} (hk : 0 < k) (he : k % 2 = 0) :
    k ≤ roundHalfEven a b ↔ (2 * k - 1) * b ≤ 2 * a := by
  obtain ⟨hle, heven⟩ := roundHalfEven_half a hb
  have hhalf : (2 * k - 1) * b + b = 2 * (k * b) := by
    rw [← Nat.add_one_mul, show 2 * k - 1 + 1 = 2 * k by omega, Nat.mul_assoc]
  constructor
  · intro h
    have := Nat.mul_le_mul_right b h
    omega
  · intro h
    by_contra hlt
    have hsucc : roundHalfEven a b * b + b ≤ k * b := by
      rw [← Nat.add_one_mul]; exact Nat.mul_le_mul_right b (by omega)
    have hpred : roundHalfEven a b + 1 ≠ k := by omega
    have : (roundHalfEven a b + 2) * b ≤ k * b := Nat.mul_le_mul_right b (by omega)
    rw [Nat.add_mul] at this
    omega

/-! ### The grid of a result: a / den units of 2^-149 -/

/-- The exponent of the grid on which a / den is rounded: 24 significant bits, or whole units below them. -/
def gridExp (a den : Nat) : Nat := (a / den).log2 - 23

/-- The length of den steps of the grid. -/
def gridStep (a den : Nat) : Nat := den * 2 ^ gridExp a den

/-- How many steps of its grid a / den is, rounded. -/
def gridCount (a den : Nat) : Nat := roundHalfEven a (gridStep a den)

/-- The pattern of a / den, the exponent range unlimited. -/
def gridPattern (a den : Nat) : Nat := gridExp a den * 2 ^ 23 + gridCount a den

theorem roundMag_eq (num den : Nat) : roundMag num den = min (gridPattern (num * 2 ^ 149) den) 0x7F800000 := rfl

theorem gridStep_pos (a : Nat) {den : Nat} (hden : 0 < den) : 0 < gridStep a den := by unfold gridStep; positivity

/-- A result lies below 2^24 steps of its grid. -/
theorem lt_gridStep (a : Nat) {den : Nat} (hden : 0 < den) : a < 2 ^ 24 * gridStep a den := by
  have : a / den < 2 ^ 24 * 2 ^ gridExp a den := by
    rw [← pow_add]
    exact Nat.lt_log2_self.trans_le (Nat.pow_le_pow_right (by omega) (by unfold gridExp; omega))
  rw [Nat.div_lt_iff_lt_mul hden] at this
  unfold gridStep
  linarith

/-- Above whole units, a result is at least 2^23 steps of its grid. -/
theorem gridStep_le {a den : Nat} (hden : 0 < den) (h : 0 < gridExp a den) : 2 ^ 23 * gridStep a den ≤ a := by
  have : 2 ^ 23 * 2 ^ gridExp a den ≤ a / den := by
    rw [← pow_add]
    have hv : a / den ≠ 0 := fun h0 => by simp [gridExp, h0] at h
    exact (Nat.le_log2 hv).1 (by unfold gridExp at *; omega)
  rw [Nat.le_div_iff_mul_le hden] at this
  unfold gridStep
  linarith

/-- The count of steps has at most 24 bits or is 2^24, and has 24 bits at least above whole units. -/
theorem gridCount_bounds (a : Nat) {den : Nat} (hden : 0 < den) :
    gridCount a den ≤ 2 ^ 24 ∧ (0 < gridExp a den → 2 ^ 23 ≤ gridCount a den) := by
  have hpos := gridStep_pos a hden
  have hle : a / gridStep a den ≤ gridCount a den ∧ gridCount a den ≤ a / gridStep a den + 1 := by
    unfold gridCount roundHalfEven; split <;> omega
  exact ⟨hle.2.trans ((Nat.div_lt_iff_lt_mul hpos).2 (lt_gridStep a hden)),
    fun h => ((Nat.le_div_iff_mul_le hpos).2 (gridStep_le hden h)).trans hle.1⟩

/-- The magnitude of the pattern of exponent e and n steps, where n may carry into the exponent. -/
theorem f32Mag_steps {e n : Nat} (hn : n ≤ 2 ^ 24) (he : 0 < e → 2 ^ 23 ≤ n) : f32Mag (e * 2 ^ 23 + n) = n * 2 ^ e := by
  unfold f32Mag
  rcases Nat.lt_or_ge n (2 ^ 23) with hlt | hge
  · obtain rfl : e = 0 := by omega
    rw [if_pos (by omega)]; omega
  rw [if_neg (by omega)]
  rcases Nat.lt_or_eq_of_le hn with hlt | rfl
  · rw [show (e * 2 ^ 23 + n) / 2 ^ 23 - 1 = e by omega, show 2 ^ 23 + (e * 2 ^ 23 + n) % 2 ^ 23 = n by omega]
  · rw [show (e * 2 ^ 23 + 2 ^ 24) / 2 ^ 23 - 1 = e + 1 by omega,
      show 2 ^ 23 + (e * 2 ^ 23 + 2 ^ 24) % 2 ^ 23 = 2 ^ 23 by omega]
    ring

theorem f32Mag_gridPattern (a : Nat) {den : Nat} (hden : 0 < den) :
    f32Mag (gridPattern a den) * den = gridCount a den * gridStep a den := by
  obtain ⟨hle, hge⟩ := gridCount_bounds a hden
  rw [gridPattern, f32Mag_steps hle hge, gridStep, Nat.mul_assoc, Nat.mul_comm den]

/-- A magnitude of the format is on the grid of exponent e, or below 2^23 of its steps. -/
theorem f32Mag_on_grid (q e : Nat) : (∃ j, f32Mag q = j * 2 ^ e) ∨ (0 < e ∧ f32Mag q < 2 ^ 23 * 2 ^ e) := by
  rcases Nat.eq_zero_or_pos e with rfl | he
  · exact .inl ⟨f32Mag q, by simp⟩
  unfold f32Mag
  split
  · exact .inr ⟨he, (Nat.mod_lt q (by positivity)).trans_le (Nat.le_mul_of_pos_right _ (by positivity))⟩
  rcases Nat.lt_or_ge (q / 2 ^ 23 - 1) e with hlt | hle
  · refine .inr ⟨he, ?_⟩
    calc (2 ^ 23 + q % 2 ^ 23) * 2 ^ (q / 2 ^ 23 - 1)
        < 2 ^ 24 * 2 ^ (q / 2 ^ 23 - 1) := Nat.mul_lt_mul_of_pos_right (by omega) (by positivity)
      _ = 2 ^ 23 * 2 ^ (q / 2 ^ 23 - 1 + 1) := by ring
      _ ≤ 2 ^ 23 * 2 ^ e := Nat.mul_le_mul_left _ (Nat.pow_le_pow_right (by omega) hlt)
  · obtain ⟨c, hc⟩ := Nat.exists_eq_add_of_le' hle
    exact .inl ⟨(2 ^ 23 + q % 2 ^ 23) * 2 ^ c, by rw [hc, pow_add, Nat.mul_assoc]⟩

/-- Patterns below the infinities are determined by their magnitudes. -/
theorem f32Mag_inj {p q : Nat} (hp : p < 0x7F800000) (hq : q < 0x7F800000) (h : f32Mag p = f32Mag q) : p = q := by
  rw [← roundMag_f32Mag hp, h, roundMag_f32Mag hq]

theorem f32Units_eq {p : Nat} (h : p < 0x7F800000) : f32Units p = f32Mag p := by
  have : BitVec.ofNat 32 p = signed false p := by simp [signed]
  rw [f32Units, this, F32.ofBits_signed false (by omega), if_neg (by omega)]

/-! ### Rounding to a pattern -/

/-- The pattern leaves the finite ones exactly from half an ulp past the largest of them. -/
theorem inf_le_gridPattern_iff (a : Nat) {den : Nat} (hden : 0 < den) :
    0x7F800000 ≤ gridPattern a den ↔ den * ((2 ^ 25 - 1) * 2 ^ 253) ≤ 2 * a := by
  obtain ⟨hle, hge⟩ := gridCount_bounds a hden
  have hlt := lt_gridStep a hden
  unfold gridPattern
  rcases Nat.lt_trichotomy (gridExp a den) 253 with h | h | h
  · have : gridStep a den ≤ den * 2 ^ 252 := Nat.mul_le_mul_left _ (Nat.pow_le_pow_right (by omega) (by omega))
    omega
  · have := even_le_roundHalfEven_iff a (gridStep_pos a hden) (k := 2 ^ 24) (by omega) (by omega)
    rw [← gridCount, gridStep, h] at this
    omega
  · have : den * 2 ^ 254 ≤ gridStep a den := Nat.mul_le_mul_left _ (Nat.pow_le_pow_right (by omega) h)
    have := gridStep_le (a := a) hden (by omega)
    omega

theorem roundMag_eq_inf_iff (num : Nat) {den : Nat} (hden : 0 < den) :
    roundMag num den = 0x7F800000 ↔ den * ((2 ^ 25 - 1) * 2 ^ 253) ≤ 2 * (num * 2 ^ 149) := by
  rw [roundMag_eq, ← inf_le_gridPattern_iff _ hden]; exact min_eq_right_iff

/-- A finite pattern is that of a nearest value, and of two nearest the even one. A value off the grid of the result lies below 2^23 steps of it, which are on the grid and at most the result. -/
theorem gridPattern_nearest (a : Nat) {den q : Nat} (hden : 0 < den) (hp : gridPattern a den < 0x7F800000) (hq : q < 0x7F800000) :
    ((f32Mag (gridPattern a den) * den : Nat) - (a : Nat) : Int).natAbs ≤ ((f32Mag q * den : Nat) - (a : Nat) : Int).natAbs ∧
    (q ≠ gridPattern a den →
      ((f32Mag (gridPattern a den) * den : Nat) - (a : Nat) : Int).natAbs = ((f32Mag q * den : Nat) - (a : Nat) : Int).natAbs →
      gridPattern a den % 2 = 0) := by
  have hpar : gridPattern a den % 2 = gridCount a den % 2 := by unfold gridPattern; omega
  have hcount : gridCount a den = roundHalfEven a (gridStep a den) := rfl
  have hmag := f32Mag_gridPattern a hden
  rcases f32Mag_on_grid q (gridExp a den) with ⟨j, hj⟩ | ⟨hexp, hlt⟩
  · have hjq : f32Mag q * den = j * gridStep a den := by rw [hj, gridStep, Nat.mul_assoc, Nat.mul_comm den]
    obtain ⟨hnear, heven⟩ := roundHalfEven_nearest a (gridStep_pos a hden) j
    rw [hmag, hjq, hpar, hcount]
    refine ⟨hnear, fun hne => heven fun h => hne (f32Mag_inj hq hp ?_)⟩
    exact Nat.eq_of_mul_eq_mul_right hden (by rw [hjq, hmag, hcount, h])
  · have hbelow : f32Mag q * den < 2 ^ 23 * gridStep a den := by
      rw [gridStep, Nat.mul_comm den, ← Nat.mul_assoc]; exact Nat.mul_lt_mul_of_pos_right hlt hden
    have hres := gridStep_le hden hexp
    obtain ⟨hnear, -⟩ := roundHalfEven_nearest a (gridStep_pos a hden) (2 ^ 23)
    rw [hmag, hcount]
    omega

theorem roundMag_of_lt {num den : Nat} (h : roundMag num den < 0x7F800000) :
    roundMag num den = gridPattern (num * 2 ^ 149) den := by rw [roundMag_eq] at *; omega

/-! ### The operations on finite numbers -/

section Operations
variable {x y : Word} {a b : Bool} {m n : Nat} (hx : F32.ofBits x = .fin a m) (hy : F32.ofBits y = .fin b n)
include hx hy

theorem binary32_mul_fin : binary32.mul x y = signed (a ^^ b) (if m * n = 0 then 0 else roundMag (m * n) (2 ^ 298)) := by
  show F32.mul (F32.ofBits x) (F32.ofBits y) = _
  rw [hx, hy]; rfl

theorem binary32_div_fin (hn : n ≠ 0) : binary32.div x y = signed (a ^^ b) (if m = 0 then 0 else roundMag m n) := by
  show F32.div (F32.ofBits x) (F32.ofBits y) = _
  rw [hx, hy]; exact if_neg hn

theorem binary32_add_fin : binary32.add x y = roundUnits (signedInt a m + signedInt b n) (a && b) := by
  show F32.add (F32.ofBits x) (F32.ofBits y) = _
  rw [hx, hy]; rfl

theorem binary32_sub_fin : binary32.sub x y = roundUnits (signedInt a m - signedInt b n) (a && !b) := by
  show F32.add (F32.ofBits x) (F32.neg (F32.ofBits y)) = _
  rw [hx, hy, sub_eq_add_neg, ← signedInt_not]; rfl

end Operations

theorem roundUnits_of_ne {k : Int} (h : k ≠ 0) (z : Bool) :
    roundUnits k z = signed (decide (k < 0)) (roundMag k.natAbs (2 ^ 149)) := if_neg h

theorem roundUnits_zero (a b : Bool) : roundUnits 0 (a && b) = if a = true ∧ b = true then 0x80000000#32 else 0#32 := by
  cases a <;> cases b <;> rfl

end Sys2Proof.Machine
end

