-- ==== Sys2Proof/Proofs/Scope.lean ====
section
/-! The statements of the family 00_scope.md. -/

namespace Sys2Proof.Machine

/-- Settles O43: the pattern is the integer nearest to the result on the result's own grid, and every operation is its exact integer result rounded once. -/
theorem binary32RoundsToNearest : Obligations.Binary32RoundsToNearest := by
  unfold Obligations.Binary32RoundsToNearest
  refine ⟨?_, ?_, fun k d _ hk => f32OfRat_of_ne hk d, fun _ => rfl⟩
  · rintro num den p - hden rfl
    refine ⟨roundMag_le _ _, roundMag_eq_inf_iff num hden, fun hp q hq => ?_⟩
    rw [f32Units_eq hp, f32Units_eq hq]
    rw [roundMag_of_lt hp] at *
    exact gridPattern_nearest _ hden hp hq
  · intro x y a b m n hx hy
    refine ⟨fun h => ?_, fun h => ?_, fun hm hn => ?_, fun hm hn => ?_, ?_, fun h => ?_, fun h => ?_, ?_⟩
    · rw [binary32_mul_fin hx hy, if_neg h]
    · rw [binary32_mul_fin hx hy, if_pos h]
    · rw [binary32_div_fin hx hy hn, if_neg hm]
    · rw [binary32_div_fin hx hy hn, if_pos hm]
    · rintro k rfl hk
      exact (binary32_add_fin hx hy).trans (roundUnits_of_ne hk _)
    · rw [binary32_add_fin hx hy, signedInt, signedInt, h, roundUnits_zero]
    · rw [binary32_sub_fin hx hy, signedInt, signedInt, h, roundUnits_zero]
      simp
    · rintro k rfl hk
      exact (binary32_sub_fin hx hy).trans (roundUnits_of_ne hk _)

end Sys2Proof.Machine
end

