-- ==== Sys2Proof/Proofs/CommandFrames.lean ====
section
/-! SUPPORT. What each command leaves alone, unit by unit (10_state.md R29, R32, R33, R70), and how a command moves the Pi cursor (R54, R56). -/

namespace Sys2Proof.Machine

/-- What SINE_GENERATE and SINE_GENERATE_FILL leave: stores at BUF, two registers of the slot, the status. -/
theorem generateInto_inv {s t : State} {k n pe : Nat} {r : SineReq} (h : generateInto s k r n pe = .next t) :
    t = ((s.memWrite r.buf.toNat (sineWave s.cfg r n)).setSreq k
      { r with resultLen := BitVec.ofNat 32 n, phaseErr := BitVec.ofNat 32 pe }).setStatus (sineStatus r) :=
  finish_inv h

/-- A block's decision moves only ORCH_STATE of the orchestrator (44_orchestrator.md R218, R219). -/
theorem decideSymbol_orch (s : State) (new : Option (Fin 16)) (n : Nat) :
    ∃ p, (s.decideSymbol new n).orch = { s.orch with phase := p } := by
  obtain ⟨_, _, _, p, _, _, h⟩ := s.decideSymbol_changes new n
  exact ⟨p, by rw [h]; rfl⟩

/-- The flush moves only ORCH_STATE of the orchestrator (44_orchestrator.md R219). -/
theorem flush_orch (s : State) : ∃ p, s.flush.orch = { s.orch with phase := p } := by
  obtain ⟨_, _, _, p, _, _, h⟩ := s.flush_changes
  exact ⟨p, by rw [h]; rfl⟩

/-- What the command `i` leaves alone on its way from `s` to `t`. -/
structure Frame (i : Instr) (s t : State) : Prop where
  args : t.arg0 = s.arg0 ∧ t.arg1 = s.arg1 ∧ t.arg2 = s.arg2 ∧ t.arg3 = s.arg3
  irqEn : t.irqEn = s.irqEn
  res1 : t.res1 = s.res1
  cfg : t.cfg = s.cfg
  host : t.hostQueue = s.hostQueue ∧ t.hostRead = s.hostRead
  sreq : t.sreq ≠ s.sreq → ∃ slot, i = .sinePopulate slot ∨ i = .sineGen slot ∨ i = .sineFill slot
  otherSlots : ∀ slot k, i = .sinePopulate slot ∨ i = .sineGen slot ∨ i = .sineFill slot → k ≠ slot →
    t.sreq[k]? = s.sreq[k]?
  dtmf : t.dtmf ≠ s.dtmf → i = .dtmfInit ∨ i = .dtmfBlock
  pkt : t.pkt ≠ s.pkt → i = .pktRxinit ∨ i = .pktRxbyte ∨ i = .pktRxstream
  pi : t.pi ≠ s.pi → i = .piRx ∨ i = .piReset ∨ i = .orchTick ∨ i = .dtmfBlock
  emo : t.emo ≠ s.emo → i = .emoInit ∨ i = .emoUpdate
  phase : t.orch.phase ≠ s.orch.phase → i = .orchTick ∨ i = .dtmfBlock
  orchConfig : t.orch.dacBuf = s.orch.dacBuf ∧ t.orch.dacLen = s.orch.dacLen ∧ t.orch.fs = s.orch.fs
  res0 : t.res0 ≠ s.res0 → i = .sineSample ∨ i = .dtmfBlock ∨ i = .pktFcs ∨ i = .pktFrame ∨
    i = .pktRxstream ∨ i = .piNext ∨ i = .piRx ∨ i = .emoUpdate

/-- A change of STATUS.CODE is in every command's frame. -/
theorem Frame.setStatus (i : Instr) (s : State) (st : Status) : Frame i s (s.setStatus st) := by
  constructor <;> simp

/-- Every command keeps to its frame. -/
theorem exec_frame {i : Instr} {s t : State} (h : exec i s = .next t) : Frame i s t := by
  rcases exec_inv h with ⟨st, -, -, rfl, -⟩ | hd
  · exact .setStatus i s st
  cases i
  case nop | piNext | piReset | emoInit | evtClear => subst hd; constructor <;> simp
  case sineSample | pktFcs | piRx => obtain ⟨v, rfl⟩ := hd; constructor <;> simp
  case emoUpdate => obtain ⟨e, v, rfl⟩ := hd; constructor <;> simp
  case sineMix => obtain ⟨a, bs, rfl⟩ := hd; constructor <;> simp
  case pktFrame => obtain ⟨a, bs, v, rfl⟩ := hd; constructor <;> simp
  case dtmfInit | pktRxbyte => obtain ⟨-, rfl⟩ := hd; constructor <;> simp
  case pktRxinit => obtain ⟨-, -, -, rfl⟩ := hd; constructor <;> simp
  case pktRxstream => obtain ⟨-, bs, v, rfl⟩ := hd; constructor <;> simp
  case evtPop => obtain ⟨e, q, -, rfl⟩ := hd; constructor <;> simp
  case sinePopulate => obtain ⟨r, st, -, -, rfl⟩ := hd; constructor <;> simp +contextual [List.getElem?_set_ne, Ne.symm]
  case sineGen | sineFill =>
    obtain ⟨r, -, -, hg⟩ := hd
    rw [generateInto_inv hg]
    constructor <;> simp +contextual [List.getElem?_set_ne, Ne.symm]
  case dtmfBlock =>
    obtain ⟨-, ⟨-, rfl⟩ | ⟨new, n, v, -, rfl⟩⟩ := hd
    · obtain ⟨p, hp⟩ := flush_orch s
      constructor <;> simp [hp]
    · obtain ⟨p, hp⟩ := decideSymbol_orch s new n
      constructor <;> simp [hp]
  case orchTick =>
    obtain ⟨-, -, rfl⟩ | ⟨-, ⟨-, -, rfl⟩ | ⟨-, rfl⟩ | ⟨-, -, rfl⟩ | ⟨-, rfl⟩ | ⟨-, bs, x, y, z, -, -, -, -, rfl⟩⟩ := hd
    all_goals constructor <;> simp [State.stopAll]

/-! ### The Pi cursor -/

/-- A latched wrong reception stays latched when further digits are received (43_digit_emotion.md R192). -/
theorem piRx_sentinelWrong (c : Config) (d : Byte) : (piRx c d .sentinelWrong).1 = .sentinelWrong := rfl

/-- The release of a held symbol receives at most one digit (44_orchestrator.md R219). -/
theorem releaseHeld_pi (s : State) : s.releaseHeld.pi = s.pi ∨ ∃ d, s.releaseHeld.pi = (piRx s.cfg d s.pi).1 := by
  obtain ⟨es, -, -, ⟨-, -, h⟩ | ⟨-, -, -, h⟩ | ⟨-, -, -, h⟩⟩ := releaseHeld_emitted s
  · exact .inl (by rw [h])
  · exact .inl h
  · exact .inr h

/-- A block's decision receives at most one digit. -/
theorem decideSymbol_pi (s : State) (new : Option (Fin 16)) (n : Nat) :
    (s.decideSymbol new n).pi = s.pi ∨ ∃ d, (s.decideSymbol new n).pi = (piRx s.cfg d s.pi).1 := by
  unfold State.decideSymbol
  split
  · exact .inl rfl
  · cases new with
    | none => exact releaseHeld_pi s
    | some c => simpa [State.setHeld] using releaseHeld_pi s

/-- The flush receives at most one digit. -/
theorem flush_pi (s : State) : s.flush.pi = s.pi ∨ ∃ d, s.flush.pi = (piRx s.cfg d s.pi).1 := by
  unfold State.flush
  split
  · exact .inl rfl
  · exact releaseHeld_pi s

/-- Every command keeps the Pi cursor, receives one digit, or sets it to 0: PI_RESET does, and the tick of RESTART (43_digit_emotion.md R192, R194; 44_orchestrator.md R212). -/
theorem exec_pi {i : Instr} {s t : State} (h : exec i s = .next t) :
    t.pi = s.pi ∨ (∃ d, t.pi = (piRx s.cfg d s.pi).1) ∨
    (t.pi = .pos 0 ∧ (i = .piReset ∨ (i = .orchTick ∧ s.orch.phase = .restart ∧ s.emo.emotion = .bored))) := by
  by_cases hpi : t.pi = s.pi
  · exact .inl hpi
  refine .inr ?_
  have howner := (exec_frame h).pi hpi
  rcases exec_inv h with ⟨st, -, -, rfl, -⟩ | hd
  · exact absurd rfl hpi
  rcases howner with rfl | rfl | rfl | rfl
  · obtain ⟨v, rfl⟩ := hd
    exact .inl ⟨_, rfl⟩
  · subst hd
    exact .inr ⟨rfl, .inl rfl⟩
  · obtain ⟨-, -, rfl⟩ | ⟨hrow, ⟨-, -, rfl⟩ | ⟨-, rfl⟩ | ⟨-, -, rfl⟩ | ⟨hp, rfl⟩ | ⟨-, bs, x, y, z, -, -, -, -, rfl⟩⟩ := hd
    · exact absurd (by simp [State.stopAll]) hpi
    · exact absurd rfl hpi
    · exact absurd rfl hpi
    · exact absurd rfl hpi
    · exact .inr ⟨rfl, .inr ⟨rfl, hp, by simpa [hp] using hrow⟩⟩
    · exact absurd (by simp) hpi
  · obtain ⟨-, ⟨-, rfl⟩ | ⟨new, n, v, -, rfl⟩⟩ := hd
    · exact .inl ((flush_pi s).resolve_left hpi)
    · exact .inl ((decideSymbol_pi s new n).resolve_left hpi)

/-- A command leaves a latched wrong reception only by setting the cursor to 0. -/
theorem exec_pi_of_latched {i : Instr} {s t : State} (hs : s.pi = .sentinelWrong) (h : exec i s = .next t)
    (ht : t.pi ≠ .sentinelWrong) :
    t.pi = .pos 0 ∧ (i = .piReset ∨ (i = .orchTick ∧ s.orch.phase = .restart ∧ s.emo.emotion = .bored)) := by
  obtain hpi | ⟨d, hpi⟩ | hreset := exec_pi h
  · exact absurd (hpi.trans hs) ht
  · rw [hs, piRx_sentinelWrong] at hpi
    exact absurd hpi ht
  · exact hreset

end Sys2Proof.Machine
end

