-- ==== Sys2Proof/Proofs/HostPort.lean ====
section
/-! SUPPORT. What one HOST input can do, the register found at an offset, and which writes are ignored (10_state.md R27, R37; 20_memory.md R76, R87). -/

namespace Sys2Proof.Machine

/-! ### The register of an offset -/

/-- The slot field found at a +offset has that +offset (10_state.md R37). -/
theorem SineField.offset_ofOffset {n : Nat} {f : SineField} (h : SineField.ofOffset n = some f) : f.offset = n := by
  unfold SineField.ofOffset at h
  split at h <;> cases h <;> rfl

/-- The register found in the slot blocks has the offset it was found at (10_state.md R37). -/
theorem offset_sreqAt {c : Config} {off : Nat} (hoff : 0x040 ≤ off) (h : sreqAt c off ≠ .reserved) :
    (sreqAt c off).offset = some off := by
  unfold sreqAt at *
  split at h
  · rw [if_pos ‹_›]
    split at h
    · rename_i f hf
      have hf := SineField.offset_ofOffset hf
      simp only [Reg.offset, Option.some.injEq]
      omega
    · exact absurd rfl h
  · exact absurd rfl h

/-- The register found at an offset has that offset (10_state.md R27). -/
theorem offset_regAt {c : Config} {off : Nat} (h : regAt c off ≠ .reserved) : (regAt c off).offset = some off := by
  unfold regAt at *
  split at h
  · rename_i hblock
    rw [if_pos hblock]
    exact offset_sreqAt hblock.1 h
  · rename_i hblock
    rw [if_neg hblock]
    split at h
    all_goals first | rfl | exact absurd rfl h

/-- A slot register is found in the blocks of the slots there are (10_state.md R37). -/
theorem regAt_sreq {c : Config} {off slot : Nat} {f : SineField} (h : regAt c off = .sreq slot f) :
    0x040 ≤ off ∧ off < 0x040 + 0x20 * min c.nsreq 16 := by
  unfold regAt at h
  split at h
  · unfold sreqAt at h
    split at h
    · omega
    · cases h
  · split at h <;> cases h

/-- The offsets of the registers outside the slot blocks (10_state.md R27). -/
theorem Reg.offset_mem {r : Reg} {off : Nat} (h : r.offset = some off) (hs : ∀ slot f, r ≠ .sreq slot f) :
    off ∈ [0x000, 0x004, 0x008, 0x00C, 0x010, 0x014, 0x018, 0x01C, 0x020, 0x024, 0x030, 0x034, 0x038, 0x03C,
      0x300, 0x304, 0x308, 0x30C, 0x320, 0x324, 0x328, 0x32C, 0x330, 0x334, 0x338, 0x340, 0x350, 0x354,
      0x360, 0x364, 0x368, 0x36C] := by
  cases r
  case sreq slot f => exact absurd rfl (hs slot f)
  case reserved => cases h
  all_goals
    obtain rfl := Option.some.inj h
    decide

/-! ### The place of an access -/

/-- A register access is a word access at the register's offset (20_memory.md R76, R81). -/
theorem placeOf_reg_inv {c : Config} {w : Width} {addr off : Nat} (h : placeOf c w addr = .reg off) :
    w = .word ∧ addr = c.coreBase + off := by
  unfold placeOf placeAt at h
  repeat' split at h
  all_goals simp only [Place.reg.injEq, reduceCtorEq] at h
  rename_i hword
  exact ⟨hword.1, by omega⟩

/-- An access that lies in one of the two reserved ranges (20_memory.md R76). -/
theorem placeOf_reserved (c : Config) (w : Width) (off : Nat)
    (h : (0x400 ≤ off ∧ off + w.bytes ≤ 0x4000) ∨ (0x4000 + c.bramSize ≤ off ∧ off + w.bytes ≤ 0x8000)) :
    placeOf c w (c.coreBase + off) = .reserved := by
  have hw : 1 ≤ w.bytes := by cases w <;> decide
  have hbase : ¬ (c.coreBase + off < c.coreBase) := by omega
  simp only [placeOf, placeAt, windowSize, regBlockSize, bramOffset, if_neg hbase, Nat.add_sub_cancel_left]
  rw [if_neg (by omega), if_neg (by omega)]
  split
  · rw [if_neg (by omega)]
  · rw [if_neg (by omega), if_neg (by omega)]

/-! ### Register writes -/

/-- A CTRL write without SRST stores IRQ_EN and nothing else (10_state.md R29). -/
theorem writeReg_ctrl {s : State} {v : Word} (h : v.getLsbD 1 = false) :
    s.writeReg .ctrl v = { s with irqEn := v.getLsbD 0 } :=
  if_neg (by rw [h]; decide)

/-- A slot write replaces one field of the slot (10_state.md R37). -/
theorem writeReg_sreq {s : State} {slot : Nat} {q : SineReq} (h : slot < s.cfg.nsreq) (hq : s.sreq[slot]? = some q)
    (f : SineField) (v : Word) : s.writeReg (.sreq slot f) v = s.setSreq slot (q.put f v) := by
  simp only [State.writeReg, slot?_of_lt h, hq]

/-- A write is ignored at a register that is not read-write (10_state.md R27). -/
theorem writeReg_ignored {s : State} {r : Reg} (v : Word) (hs : ∀ slot f, r ≠ .sreq slot f)
    (h : ∀ off, r.offset = some off →
      off ∉ [0x004, 0x00C, 0x010, 0x014, 0x018, 0x01C, 0x350, 0x354, 0x364, 0x368, 0x36C]) :
    s.writeReg r v = s := by
  cases r
  case sreq slot f => exact absurd rfl (hs slot f)
  case ctrl | arg0 | arg1 | arg2 | arg3 | emoState | emoTs | orchDacbuf | orchDaclen | orchFs =>
    exact absurd (by decide) (h _ rfl)
  all_goals rfl

/-- A register write keeps the Pi cursor, unless it is the soft reset (10_state.md R29, 70_reset_and_hazards.md R262). -/
theorem writeReg_pi (s : State) (r : Reg) (v : Word) :
    (s.writeReg r v).pi = s.pi ∨ (r = .ctrl ∧ v.getLsbD 1 = true ∧ (s.writeReg r v).pi = .pos 0) := by
  cases r
  case ctrl =>
    simp only [State.writeReg, State.writeCtrl]
    split
    · exact .inr ⟨trivial, ‹_›, rfl⟩
    · exact .inl rfl
  case sreq k f =>
    simp only [State.writeReg]
    split <;> exact .inl rfl
  all_goals exact .inl rfl

/-! ### One input -/

/-- A word read at a register's offset records what the register reads as (10_state.md R27, 20_memory.md R76). -/
theorem perform_readReg {s : State} {off : Nat} (hlt : off < 0x400) (h4 : off % 4 = 0) :
    s.perform (.read .word (s.cfg.coreBase + off)) = .next (s.setHostRead (s.readReg (regAt s.cfg off))) := by
  simp only [State.perform, State.hostReads, placeOf_reg s.cfg off hlt h4]

/-- A word write at an offset other than CMD's writes the register there (10_state.md R27, 20_memory.md R76). -/
theorem perform_writeReg {s : State} {off : Nat} (v : Word) (hlt : off < 0x400) (h4 : off % 4 = 0)
    (hcmd : regAt s.cfg off ≠ .cmd) :
    s.perform (.write .word (s.cfg.coreBase + off) v) = .next (s.writeReg (regAt s.cfg off) v) := by
  simp only [State.perform, State.hostWrites, placeOf_reg s.cfg off hlt h4, if_neg hcmd]

/-- A CMD write runs the command its word encodes (10_state.md R31, 30_encoding.md R100). -/
theorem perform_cmdWrite {s : State} {w : Word} {i : Instr} (h : decode w = some i) :
    s.perform (.write .word (s.cfg.coreBase + 0x00C) w) = exec i s := by
  simp only [State.perform, State.hostWrites, placeOf_reg s.cfg 0x00C (by decide) (by decide)]
  have hcmd : regAt s.cfg 0x00C = .cmd := rfl
  rw [if_pos hcmd, State.runCommand, h]

/-- Everything a HOST input can do: record read data, run a command word, write a register, store bytes (none, at a reserved location), reset. -/
theorem perform_inv {s t : State} {x : HostInput} (h : s.perform x = .next t) :
    (∃ v, t = s.setHostRead v) ∨
    (∃ w, x = .write .word (s.cfg.coreBase + 0x00C) w ∧ s.runCommand w = .next t) ∨
    (∃ off v, x = .write .word (s.cfg.coreBase + off) v ∧ t = s.writeReg (regAt s.cfg off) v) ∨
    (∃ a bs, t = s.memWrite a bs) ∨
    (∃ cells, x = .powerOnReset cells ∧ t = s.powerOnReset cells) := by
  cases x with
  | read w addr =>
    simp only [State.perform, State.hostReads] at h
    split at h <;> cases h <;> exact .inl ⟨_, rfl⟩
  | write w addr v =>
    simp only [State.perform, State.hostWrites] at h
    split at h
    · rename_i off hplace
      obtain ⟨rfl, rfl⟩ := placeOf_reg_inv hplace
      split at h
      · rename_i hcmd
        exact .inr (.inl ⟨v, by rw [regAt_cmd hcmd], h⟩)
      · cases h; exact .inr (.inr (.inl ⟨off, v, rfl, rfl⟩))
    · cases h; exact .inr (.inr (.inr (.inl ⟨_, _, rfl⟩)))
    · cases h; exact .inr (.inr (.inr (.inl ⟨0, [], rfl⟩)))
    · cases h
    · cases h
  | powerOnReset cells => cases h; exact .inr (.inr (.inr (.inr ⟨cells, rfl, rfl⟩)))

end Sys2Proof.Machine
end

