-- ==== Sys2Proof/Proofs/Registers.lean ====
section
/-! SUPPORT. The registers as numbers, field by field, and what a read returns after a write (10_state.md R27 to R67). -/

namespace Sys2Proof.Machine

/-! ### Fields -/

/-- STATUS as a number (10_state.md R30). -/
theorem statusWord_toNat (s : State) : s.statusWord.toNat = s.status.code.toNat + 256 * s.evqOvf.toNat := by
  simp only [State.statusWord, append_toNat, ofBool_toNat, BitVec.toNat_ofNat]
  omega

/-- DTMF_STATE as a number (10_state.md R41, R42). -/
theorem dtmfWord_toNat (d : DtmfState) : d.word.toNat = symCode d.held + 2 ^ 31 * d.init.toNat := by
  have hcode : symCode d.held < 2 ^ 5 := by
    cases d.held with
    | none => decide
    | some c => exact Nat.lt_trans c.isLt (by decide)
  simp only [DtmfState.word, append_toNat, ofBool_toNat, BitVec.toNat_ofNat, Nat.mod_eq_of_lt hcode]
  omega

/-- PKT_STATE as a number (10_state.md R45, R46, R47). -/
theorem pktWord_toNat (p : PktState) :
    p.word.toNat = p.rx.code.toNat + 256 * p.esc.toNat + 2 ^ 31 * p.init.toNat := by
  simp only [PktState.word, append_toNat, ofBool_toNat, BitVec.toNat_ofNat]
  omega

/-- PKT_HDR as a number (10_state.md R50). -/
theorem hdrWord_toNat (p : PktState) : p.hdrWord.toNat = p.addr.toNat + 256 * p.ctrl.toNat := by
  simp only [PktState.hdrWord, append_toNat, BitVec.toNat_ofNat]
  omega

/-- Two halves of a word as a number. -/
theorem halves_toNat (hi lo : BitVec 16) : (hi ++ lo).toNat = lo.toNat + 2 ^ 16 * hi.toNat := by
  rw [append_toNat]
  omega

/-- EVQ_COUNT of a queue its 16 bits can count (10_state.md R34). -/
theorem evqCountWord_toNat {s : State} (h : s.evq.length < 2 ^ 16) : s.evqCountWord.toNat = s.evq.length := by
  rw [State.evqCountWord, BitVec.toNat_setWidth_of_le (by decide), BitVec.toNat_ofNat, Nat.mod_eq_of_lt h]

/-- PI_CURSOR at a position reads as that position (10_state.md R58). -/
theorem piCode_toNat (k : Fin 129) : (PiCursor.pos k).code.toNat = k.val :=
  Nat.mod_eq_of_lt (by omega)

/-- A register of a slot there is reads as the slot's field (10_state.md R37). -/
theorem readReg_sreq {s : State} {slot : Nat} {r : SineReq} (h : slot < s.cfg.nsreq) (hr : s.sreq[slot]? = some r)
    (f : SineField) : s.readReg (.sreq slot f) = r.get f := by
  simp only [State.readReg, slot?_of_lt h, hr]

/-- A slot beyond NSREQ reads as 0 (10_state.md R27). -/
theorem readReg_sreq_beyond {s : State} {slot : Nat} (h : s.cfg.nsreq ≤ slot) (f : SineField) :
    s.readReg (.sreq slot f) = 0#32 := by
  have hnone : s.slot? slot = none := if_neg (by omega)
  simp only [State.readReg, hnone]

/-- The head of an empty queue reads as three zero words (10_state.md R35, R36). -/
theorem readReg_evh_nil {s : State} (h : s.evq = []) :
    s.readReg .evh0 = 0#32 ∧ s.readReg .evh1 = 0#32 ∧ s.readReg .evh2 = 0#32 := by
  simp [State.readReg, State.headEvent, h]

/-- The head of a queue reads as the words of its oldest record (10_state.md R35). -/
theorem readReg_evh_cons {s : State} {e : Event} {q : List Event} (h : s.evq = e :: q) :
    s.readReg .evh0 = e.w0 ∧ s.readReg .evh1 = e.w1 ∧ s.readReg .evh2 = e.w2 := by
  simp [State.readReg, State.headEvent, h]

/-! ### A read after a write outside the slots -/

/-- The code of an emotion a HOST write selects is the code written (10_state.md R62). -/
theorem Emotion.code_ofCode : ∀ c : BitVec 2, (Emotion.ofCode c).code = c := by decide

/-- CTRL keeps bit 0 of a write (10_state.md R29). -/
theorem ofBool_lsb_eq_and (v : Word) : (BitVec.ofBool (v.getLsbD 0)).setWidth 32 = v &&& 1#32 := by
  apply BitVec.eq_of_toNat_eq
  rw [BitVec.toNat_setWidth_of_le (by decide), ofBool_toNat, BitVec.toNat_and, BitVec.getLsbD, Nat.toNat_testBit, pow_zero,
    Nat.div_one]
  exact (Nat.and_one_is_mod v.toNat).symm

/-- EMO_STATE keeps the low two bits of a write (10_state.md R62). -/
theorem low2_eq_and (v : Word) : (v.extractLsb' 0 2).setWidth 32 = v &&& 3#32 := by
  apply BitVec.eq_of_toNat_eq
  rw [BitVec.toNat_setWidth_of_le (by decide), BitVec.toNat_and, BitVec.extractLsb'_toNat, Nat.shiftRight_zero]
  exact (Nat.and_two_pow_sub_one_eq_mod v.toNat 2).symm

/-- The registers outside the slots that a HOST write stores in (10_state.md R27). -/
def Reg.fixedRW : List Reg :=
  [.ctrl, .arg0, .arg1, .arg2, .arg3, .emoState, .emoTs, .orchDacbuf, .orchDaclen, .orchFs]

/-- A register outside the slots reads back what a write keeps of its value. -/
theorem readReg_writeReg_fixed {s : State} {r : Reg} {v : Word} (hr : r ∈ Reg.fixedRW)
    (hctrl : r = .ctrl → v.getLsbD 1 = false) :
    (s.writeReg r v).readReg r = if r = .ctrl then v &&& 1#32 else if r = .emoState then v &&& 3#32 else v := by
  cases r
  case ctrl =>
    rw [writeReg_ctrl (hctrl rfl)]
    exact ofBool_lsb_eq_and v
  case emoState =>
    show (Emotion.ofCode _).code.setWidth 32 = _
    rw [Emotion.code_ofCode]
    exact low2_eq_and v
  case arg0 | arg1 | arg2 | arg3 | emoTs | orchDacbuf | orchDaclen | orchFs => rfl
  all_goals exact absurd hr (by simp [Reg.fixedRW])

/-- A write to a register outside the slots disturbs no other register. -/
theorem readReg_writeReg_fixed_ne {s : State} {r r' : Reg} {v : Word} (hr : r ∈ Reg.fixedRW)
    (hctrl : r = .ctrl → v.getLsbD 1 = false) (hne : r' ≠ r) : (s.writeReg r v).readReg r' = s.readReg r' := by
  cases r
  case' ctrl => rw [writeReg_ctrl (hctrl rfl)]
  case ctrl | arg0 | arg1 | arg2 | arg3 | emoState | emoTs | orchDacbuf | orchDaclen | orchFs =>
    cases r' <;> first | rfl | exact absurd rfl hne
  all_goals exact absurd hr (by simp [Reg.fixedRW])

/-- A write to a register outside the slots leaves BRAM, the event queue and the demodulator alone. -/
theorem writeReg_fixed_frame {s : State} {r : Reg} {v : Word} (hr : r ∈ Reg.fixedRW)
    (hctrl : r = .ctrl → v.getLsbD 1 = false) :
    (s.writeReg r v).bram = s.bram ∧ (s.writeReg r v).evq = s.evq ∧ (s.writeReg r v).dtmf = s.dtmf := by
  cases r
  case' ctrl => rw [writeReg_ctrl (hctrl rfl)]
  case ctrl | arg0 | arg1 | arg2 | arg3 | emoState | emoTs | orchDacbuf | orchDaclen | orchFs =>
    exact ⟨rfl, rfl, rfl⟩
  all_goals exact absurd hr (by simp [Reg.fixedRW])

/-! ### A read after a write to a slot -/

/-- A slot field reads back (10_state.md R37). -/
theorem SineReq.get_put (r : SineReq) (f : SineField) (v : Word) : (r.put f v).get f = v := by
  cases f <;> rfl

/-- Writing a slot field leaves the others (10_state.md R37). -/
theorem SineReq.get_put_ne (r : SineReq) {f g : SineField} (v : Word) (h : g ≠ f) : (r.put f v).get g = r.get g := by
  cases f <;> cases g <;> first | rfl | exact absurd rfl h

/-- A slot register after another slot's registers are replaced, or the same slot's. -/
theorem readReg_setSreq {s : State} {slot : Nat} (q : SineReq) (h : slot < s.cfg.nsreq) (hlt : slot < s.sreq.length)
    (k : Nat) (g : SineField) :
    (s.setSreq slot q).readReg (.sreq k g) = if k = slot then q.get g else s.readReg (.sreq k g) := by
  simp only [State.readReg, slot?_setSreq hlt, h, and_true]
  by_cases hk : k = slot <;> simp [hk]

/-- Replacing a slot disturbs no register outside the slots. -/
theorem readReg_setSreq_other (s : State) (slot : Nat) (q : SineReq) {r : Reg} (hr : ∀ k g, r ≠ .sreq k g) :
    (s.setSreq slot q).readReg r = s.readReg r := by
  cases r
  case sreq k g => exact absurd rfl (hr k g)
  all_goals rfl

/-- A write to a slot register disturbs no other register. -/
theorem readReg_writeReg_sreq_ne {s : State} {slot : Nat} {f : SineField} {q : SineReq} {r : Reg} (v : Word)
    (h : slot < s.cfg.nsreq) (hlt : slot < s.sreq.length) (hq : s.sreq[slot]? = some q) (hne : r ≠ .sreq slot f) :
    (s.writeReg (.sreq slot f) v).readReg r = s.readReg r := by
  rw [writeReg_sreq h hq]
  by_cases hr : ∃ k g, r = .sreq k g
  · obtain ⟨k, g, rfl⟩ := hr
    rw [readReg_setSreq _ h hlt]
    split
    · subst k
      rw [q.get_put_ne v fun hg => hne (by rw [hg]), readReg_sreq h hq]
    · rfl
  · push Not at hr
    exact readReg_setSreq_other s slot _ hr

end Sys2Proof.Machine
end

