-- ==== Sys2Proof/Proofs/EventRecords.lean ====
section
/-! SUPPORT. The layout of an event record and the symbol table (10_state.md R36; 00_scope.md R21, R22). -/

namespace Sys2Proof.Machine

/-- The first word of a record as a number: KIND, two fields and a bit (10_state.md R36). -/
theorem mkEvent_w0_toNat (k : EventKind) (lo hi : Byte) (b : Bool) (w1 w2 : Word) :
    (mkEvent k lo hi b w1 w2).w0.toNat =
      k.code.toNat + 2 ^ 8 * lo.toNat + 2 ^ 16 * hi.toNat + 2 ^ 24 * b.toNat := by
  simp only [mkEvent, append_toNat, ofBool_toNat, BitVec.toNat_ofNat]
  omega

/-- A symbol code as a byte. -/
theorem symbolByte_toNat (c : Fin 16) : (BitVec.ofNat 8 c.val).toNat = c.val :=
  Nat.mod_eq_of_lt (by omega)

/-- The record of a demodulator event names the symbol's code and its character (10_state.md R36). -/
theorem symbolEvent_w0_toNat (k : EventKind) (c : Fin 16) (w1 w2 : Word) :
    (mkEvent k (BitVec.ofNat 8 c.val) (symChar c) false w1 w2).w0.toNat =
      k.code.toNat + 2 ^ 8 * c.val + 2 ^ 16 * (symChar c).toNat := by
  rw [mkEvent_w0_toNat, symbolByte_toNat]
  rfl

/-- The record of a frame cut short names its address and control bytes (10_state.md R36). -/
theorem evPartial_w0_toNat (k : EventKind) (p : PktState) :
    (evPartial k p).w0.toNat = k.code.toNat + 2 ^ 8 * p.addr.toNat + 2 ^ 16 * p.ctrl.toNat :=
  mkEvent_w0_toNat k p.addr p.ctrl false _ _

/-- A character's symbol code is found again (00_scope.md R22). -/
theorem symIndex_symChar : ∀ c : Fin 16, symIndex (symChar c) = some c := by decide

/-- SymIndex inverts the symbol table (00_scope.md R21, R22). -/
theorem symIndex_eq_some (ch : Byte) (c : Fin 16) : symIndex ch = some c ↔ symChar c = ch := by
  refine ⟨fun h => ?_, ?_⟩
  · simpa using List.find?_some h
  · rintro rfl
    exact symIndex_symChar c

end Sys2Proof.Machine
end

