-- ==== Sys2Proof/Proofs/InvariantSteps.lean ====
section
/-! SUPPORT. Every command, every register write and every HOST input keeps the machine's invariant (10_state.md R34, R36, R43, R49, R51; 42_packet.md R179). -/

namespace Sys2Proof.Machine

/-! ### Operations that reach few parts of the invariant -/

/-- The invariant does not speak of STATUS.CODE. -/
theorem inv_setStatus {s : State} (h : s.Inv) (st : Status) : (s.setStatus st).Inv := h

/-- The invariant does not speak of RES0. -/
theorem inv_setRes0 {s : State} (h : s.Inv) (v : Word) : (s.setRes0 v).Inv := h

/-- The invariant does not speak of PI_CURSOR. -/
theorem inv_setPi {s : State} (h : s.Inv) (c : PiCursor) : (s.setPi c).Inv := h

/-- The invariant does not speak of the emotion unit. -/
theorem inv_setEmo {s : State} (h : s.Inv) (e : EmoState) : (s.setEmo e).Inv := h

/-- The invariant does not speak of ORCH_STATE. -/
theorem inv_setOrchPhase {s : State} (h : s.Inv) (p : OrchPhase) : (s.setOrchPhase p).Inv := h

/-- A slot write keeps the number of slots (10_state.md R37). -/
theorem inv_setSreq {s : State} (h : s.Inv) (k : Nat) (r : SineReq) : (s.setSreq k r).Inv := by
  obtain ⟨hcfg, hbram, hslots, hrest⟩ := h
  exact ⟨hcfg, hbram, by rw [State.setSreq_sreq, List.length_set]; exact hslots, hrest⟩

/-- A run of stores keeps BRAM in order and nothing else is touched. -/
theorem inv_memWrite {s : State} (h : s.Inv) (a : Nat) (bs : List Byte) : (s.memWrite a bs).Inv := by
  have hok := bramOk_memWrite h.2.1 a bs
  obtain ⟨m, hm⟩ := s.memWrite_changes a bs
  obtain ⟨hcfg, -, hrest⟩ := h
  rw [hm] at hok ⊢
  exact ⟨hcfg, hok, hrest⟩

/-- Emitting well-formed records keeps the queue in order (45_control.md R231). -/
theorem inv_emitAll {s : State} (h : s.Inv) {es : List Event} (hes : ∀ e ∈ es, e.Ok) : (s.emitAll es).Inv := by
  obtain ⟨-, hbram, -, -, -, hdtmf, hpkt⟩ := id h
  exact inv_mk h (by simp) (bramOk_eq hbram (by simp) (by simp)) (by simp) ⟨es, emitAll_emitted s es, hes⟩
    (by simpa using hdtmf) (by simpa using hpkt)

/-- Stopping DAC and ADC emits two well-formed records (44_orchestrator.md R216). -/
theorem inv_stopAll {s : State} (h : s.Inv) : s.stopAll.Inv :=
  inv_emitAll h (by simpa using ⟨evDacStop_ok, evAdcStop_ok⟩)

/-! ### The demodulator and the parser -/

/-- The demodulator's invariant does not speak of HELD and DTMF_DWELL. -/
theorem DtmfState.Inv.setHeld {c : Config} {d : DtmfState} (h : d.Inv c) (held : Option (Fin 16)) (dwell : Word) :
    ({ d with held := held, dwell := dwell } : DtmfState).Inv c := h

/-- A block's decision moves only HELD and DTMF_DWELL of the demodulator (41_dtmf.md R148). -/
theorem decideSymbol_dtmf (s : State) (new : Option (Fin 16)) (n : Nat) :
    ∃ held dwell, (s.decideSymbol new n).dtmf = { s.dtmf with held := held, dwell := dwell } := by
  obtain ⟨_, _, _, _, held, dwell, h⟩ := s.decideSymbol_changes new n
  exact ⟨held, dwell, by rw [h]; rfl⟩

/-- The flush moves only HELD and DTMF_DWELL of the demodulator (41_dtmf.md R149). -/
theorem flush_dtmf (s : State) : ∃ held dwell, s.flush.dtmf = { s.dtmf with held := held, dwell := dwell } := by
  obtain ⟨_, _, _, _, held, dwell, h⟩ := s.flush_changes
  exact ⟨held, dwell, by rw [h]; rfl⟩

/-- A block's decision keeps the invariant. -/
theorem inv_decideSymbol {s : State} (h : s.Inv) (new : Option (Fin 16)) (n : Nat) : (s.decideSymbol new n).Inv := by
  obtain ⟨-, hbram, -, -, -, hdtmf, hpkt⟩ := id h
  obtain ⟨es, hes, hok, -⟩ := decideSymbol_emitted s new n
  obtain ⟨held, dwell, hd⟩ := decideSymbol_dtmf s new n
  exact inv_mk h (by simp) (bramOk_eq hbram (by simp) (by simp)) (by simp) ⟨es, hes, hok⟩
    (hd ▸ hdtmf.setHeld held dwell) (by simpa using hpkt)

/-- The flush keeps the invariant. -/
theorem inv_flush {s : State} (h : s.Inv) : s.flush.Inv := by
  obtain ⟨-, hbram, -, -, -, hdtmf, hpkt⟩ := id h
  obtain ⟨es, hes, hok, -⟩ := flush_emitted s
  obtain ⟨held, dwell, hd⟩ := flush_dtmf s
  exact inv_mk h (by simp) (bramOk_eq hbram (by simp) (by simp)) (by simp) ⟨es, hes, hok⟩
    (hd ▸ hdtmf.setHeld held dwell) (by simpa using hpkt)

/-- DTMF_INIT computes the coefficients of its rate (41_dtmf.md R141). -/
theorem dtmfInit_inv (c : Config) {fs : Word} (hfs : fs ≠ 0#32) (thresh : Word) :
    (dtmfInit (gnumOf c) fs thresh).Inv c :=
  ⟨rfl, rfl, fun _ => ⟨hfs, rfl, rfl⟩⟩

/-- PKT_RX_INIT starts an idle parser on a buffer inside BRAM (42_packet.md R166). -/
theorem rxInit_inv {c : Config} {buf cap : Word} (hbuf : buf ≠ 0#32) (hcap : Config.hdr ≤ cap.toNat)
    (hrange : inRange c buf.toNat cap.toNat) : (rxInit buf cap).Inv c := by
  simp [rxInit, PktState.reset, PktState.Inv, hbuf, hcap, hrange.2]

/-! ### Every command -/

/-- A validated request keeps the invariant. -/
theorem inv_generateInto {s t : State} (hs : s.Inv) {k n pe : Nat} {r : SineReq}
    (h : generateInto s k r n pe = .next t) : t.Inv := by
  rw [generateInto_inv h]
  exact inv_setStatus (inv_setSreq (inv_memWrite hs _ _) _ _) _

/-- A tick of the orchestrator that passed its checks keeps the invariant (44_orchestrator.md R212). -/
theorem inv_orchTick {s t : State} (hs : s.Inv) (h : Done s t .orchTick) : t.Inv := by
  obtain ⟨-, -, rfl⟩ | ⟨-, ⟨-, -, rfl⟩ | ⟨-, rfl⟩ | ⟨-, -, rfl⟩ | ⟨-, rfl⟩ | ⟨-, bs, x, y, z, -, hx, hy, hz, rfl⟩⟩ := h
  · exact inv_setStatus (inv_setOrchPhase (inv_stopAll hs) _) _
  · exact inv_setStatus hs _
  · exact inv_setStatus hs _
  · exact inv_setStatus (inv_setOrchPhase hs _) _
  · exact inv_setStatus (inv_setOrchPhase (inv_setPi (inv_stopAll hs) _) _) _
  · exact inv_setStatus (inv_setOrchPhase (inv_emitAll (inv_memWrite hs _ _) (by simpa using ⟨hx, hy, hz⟩)) _) _

/-- A command that passed its checks keeps the invariant. -/
theorem inv_done {i : Instr} {s t : State} (hs : s.Inv) (h : Done s t i) : t.Inv := by
  obtain ⟨hcfg, hbram, hslots, hlen, hok, hdtmf, hpkt⟩ := id hs
  cases i with
  | nop => subst h; exact inv_setStatus hs _
  | sinePopulate k => obtain ⟨r, st, -, -, rfl⟩ := h; exact inv_setStatus (inv_setSreq hs _ _) _
  | sineGen k => obtain ⟨r, -, -, h⟩ := h; exact inv_generateInto hs h
  | sineFill k => obtain ⟨r, -, -, h⟩ := h; exact inv_generateInto hs h
  | sineSample => obtain ⟨v, rfl⟩ := h; exact inv_setStatus (inv_setRes0 hs _) _
  | sineMix => obtain ⟨a, bs, rfl⟩ := h; exact inv_setStatus (inv_memWrite hs _ _) _
  | dtmfInit =>
    obtain ⟨hfs, rfl⟩ := h
    exact ⟨hcfg, hbram, hslots, hlen, hok, dtmfInit_inv s.cfg hfs s.arg1, hpkt⟩
  | dtmfBlock =>
    obtain ⟨-, ⟨-, rfl⟩ | ⟨new, n, v, -, rfl⟩⟩ := h
    · exact inv_setStatus (inv_setRes0 (inv_flush hs) _) _
    · exact inv_setStatus (inv_setRes0 (inv_decideSymbol hs new n) _) _
  | pktFcs => obtain ⟨v, rfl⟩ := h; exact inv_setStatus (inv_setRes0 hs _) _
  | pktFrame => obtain ⟨a, bs, v, rfl⟩ := h; exact inv_setStatus (inv_setRes0 (inv_memWrite hs _ _) _) _
  | pktRxinit =>
    obtain ⟨hbuf, hcap, hrange, rfl⟩ := h
    exact ⟨hcfg, hbram, hslots, hlen, hok, hdtmf, rxInit_inv hbuf hcap hrange⟩
  | pktRxbyte => obtain ⟨hinit, rfl⟩ := h; exact inv_setStatus (rxByte_inv hs hinit _).1 _
  | pktRxstream => obtain ⟨hinit, bs, v, rfl⟩ := h; exact inv_setStatus (inv_setRes0 (rxStream_inv hs hinit bs) _) _
  | piNext => subst h; exact inv_setStatus (inv_setRes0 hs _) _
  | piRx => obtain ⟨v, rfl⟩ := h; exact inv_setStatus (inv_setRes0 (inv_setPi hs _) _) _
  | piReset => subst h; exact inv_setStatus (inv_setPi hs _) _
  | emoInit => subst h; exact inv_setStatus (inv_setEmo hs _) _
  | emoUpdate => obtain ⟨e, v, rfl⟩ := h; exact inv_setStatus (inv_setRes0 (inv_setEmo hs _) _) _
  | orchTick => exact inv_orchTick hs h
  | evtPop =>
    obtain ⟨e, q, hq, rfl⟩ := h
    rw [hq] at hlen hok
    exact ⟨hcfg, hbram, hslots, Nat.le_of_succ_le hlen, fun x hx => hok x (List.mem_cons_of_mem e hx), hdtmf, hpkt⟩
  | evtClear => subst h; exact ⟨hcfg, hbram, hslots, Nat.zero_le _, nofun, hdtmf, hpkt⟩

/-- Every command keeps the invariant. -/
theorem inv_exec {i : Instr} {s t : State} (hs : s.Inv) (h : exec i s = .next t) : t.Inv := by
  rcases exec_inv h with ⟨st, -, -, rfl, -⟩ | hdone
  · exact inv_setStatus hs st
  · exact inv_done hs hdone

/-! ### The HOST port -/

/-- The soft reset keeps BRAM and the parameters (70_reset_and_hazards.md R262). -/
theorem inv_softReset {s : State} (h : s.Inv) : s.softReset.Inv := by
  obtain ⟨hcfg, ⟨hwf, hlt⟩, -⟩ := h
  exact powerOn_inv s.cfg s.bram hcfg hwf hlt

/-- The power-on reset brings canonical cells inside BRAM_SIZE (20_memory.md R78). -/
theorem inv_powerOnReset {s : State} (h : s.Inv) (cells : List Host.Cell) : (s.powerOnReset cells).Inv :=
  powerOn_inv s.cfg _ h.1 (Memory.wf_ofCells _ cells) (ofCells_mem _ cells)

/-- A register write keeps the invariant. -/
theorem inv_writeReg {s : State} (h : s.Inv) (r : Reg) (v : Word) : (s.writeReg r v).Inv := by
  cases r
  case ctrl =>
    simp only [State.writeReg, State.writeCtrl]
    split
    · exact inv_softReset h
    · exact h
  case sreq k f =>
    simp only [State.writeReg]
    split
    · exact inv_setSreq h _ _
    · exact h
  all_goals exact h

/-- A command word, legal or not, keeps the invariant. -/
theorem inv_runCommand {s t : State} (hs : s.Inv) {w : Word} (h : s.runCommand w = .next t) : t.Inv := by
  unfold State.runCommand at h
  split at h
  · rw [raise_inv h]; exact inv_setStatus hs _
  · exact inv_exec hs h

/-- Every HOST input keeps the invariant. -/
theorem inv_perform {s t : State} (hs : s.Inv) {x : HostInput} (h : s.perform x = .next t) : t.Inv := by
  obtain ⟨v, rfl⟩ | ⟨w, -, hrun⟩ | ⟨off, v, -, rfl⟩ | ⟨a, bs, rfl⟩ | ⟨cells, -, rfl⟩ := perform_inv h
  · exact hs
  · exact inv_runCommand hs hrun
  · exact inv_writeReg hs _ v
  · exact inv_memWrite hs a bs
  · exact inv_powerOnReset hs cells

end Sys2Proof.Machine
end

