-- ==== Sys2Proof/Proofs/State.lean ====
section
/-! The statements of the family 10_state.md. -/

namespace Sys2Proof.Machine

/-- Settles O5: the step takes the CMD write from the queue, and that write runs the command. -/
theorem stepRunsDecodedCommand : Obligations.StepRunsDecodedCommand := by
  refine ⟨fun s rest w i hdec hq => ?_, fun s nbits w i hdec => ?_, fun s hq => ?_⟩
  · rw [step_cons hq]
    exact perform_cmdWrite (s := s.setHostQueue rest) hdec
  · have hq : (s.withFetchWord nbits w).hostQueue = cmdWrite s.cfg nbits w :: s.hostQueue := rfl
    rw [step_cons hq]
    exact perform_cmdWrite (s := s) hdec
  · rw [step, hq]

/-- Settles O16: every record is one layout filled in by kind, and the symbol table is looked up both ways. -/
theorem eventRecordLayout : Obligations.EventRecordLayout := by
  refine ⟨fun k lo hi b w1 w2 => ⟨mkEvent_w0_toNat k lo hi b w1 w2, rfl, rfl⟩,
    fun c dwell => ⟨symbolEvent_w0_toNat .dtmfDown c _ _, rfl, rfl, symbolEvent_w0_toNat .dtmfUp c _ _, rfl, rfl⟩,
    fun p => ⟨?_, evPartial_w0_toNat .pktTooLong p, evPartial_w0_toNat .pktInterrupted p, rfl, rfl,
      fun k => ⟨rfl, rfl⟩⟩,
    fun buf len => rfl, rfl, rfl, rfl, rfl, fun s => readReg_evh_nil, by decide, symIndex_eq_some⟩
  exact mkEvent_w0_toNat .pktComplete p.addr p.ctrl (fcsMatch p) _ _

/-- Settles O8: a register's offset leads back to the register, and a word access there reads or writes it. -/
theorem registerAccessReachesNamedRegister : Obligations.RegisterAccessReachesNamedRegister := by
  intro s r off v hn hslot hoff
  obtain ⟨hreg, hlt, h4⟩ := regAt_offset hn hslot hoff
  refine ⟨?_, fun hr => ?_⟩
  · rw [perform_readReg hlt h4, hreg]; rfl
  · rw [perform_writeReg v hlt h4 (hreg ▸ hr), hreg]

/-- Settles O9: the packed registers as numbers, field by field; every other register is the word it holds. -/
theorem registerFieldsLieWhereMapped : Obligations.RegisterFieldsLieWhereMapped := by
  intro s
  have hctrl : (s.readReg .ctrl).toNat = s.irqEn.toNat :=
    (BitVec.toNat_setWidth_of_le (by decide)).trans (ofBool_toNat s.irqEn)
  have hpi : ∀ k : Fin 129, s.pi = .pos k → (s.readReg .piCursor).toNat = k.val := fun k hk => by
    simp only [State.readReg, hk]
    exact (BitVec.toNat_setWidth_of_le (by decide)).trans (piCode_toNat k)
  have hwrong : s.pi = .sentinelWrong → s.readReg .piCursor = 0xFF#32 := fun h => by
    simp only [State.readReg, h]; rfl
  have hphase : (s.readReg .orchState).toNat = s.orch.phase.code.toNat := BitVec.toNat_setWidth_of_le (by decide)
  have hphase5 : (s.readReg .orchState).toNat ≤ 5 := by
    rw [hphase]
    cases s.orch.phase <;> decide
  refine ⟨rfl, rfl, rfl, hctrl, statusWord_toNat s, evqCountWord_toNat, fun _ _ => readReg_evh_cons,
    readReg_evh_nil, dtmfWord_toNat s.dtmf, pktWord_toNat s.pkt, hdrWord_toNat s.pkt,
    halves_toNat s.pkt.remaining s.pkt.declared, halves_toNat s.pkt.received s.pkt.running, hpi, hwrong,
    BitVec.toNat_setWidth_of_le (by decide), hphase, hphase5, rfl, rfl, rfl, rfl, rfl, rfl, fun slot r h hr => ?_,
    fun slot f h => readReg_sreq_beyond h f, rfl, rfl, rfl, rfl, rfl, rfl, rfl, rfl, rfl, rfl, rfl, rfl,
    fun c => rfl, rfl, rfl, rfl⟩
  have hread := readReg_sreq h hr
  exact ⟨hread .buf, hread .bufLen, hread .theta0, hread .fTone, hread .fSample, hread .scale,
    hread .resultLen, hread .phaseErr⟩

/-- Settles O10: the registers outside the slots one by one, and one field of a slot. -/
theorem writtenRegistersReadBack : Obligations.WrittenRegistersReadBack := by
  rintro s r v hlen hctrl (hr | ⟨slot, f, rfl, hslot⟩)
  · exact ⟨readReg_writeReg_fixed hr hctrl, fun r' => readReg_writeReg_fixed_ne hr hctrl,
      writeReg_fixed_frame hr hctrl⟩
  · have hlt : slot < s.sreq.length := hlen ▸ hslot
    have hq : s.sreq[slot]? = some s.sreq[slot] := List.getElem?_eq_getElem hlt
    refine ⟨?_, fun r' => readReg_writeReg_sreq_ne v hslot hlt hq, ?_⟩
    · rw [writeReg_sreq hslot hq, readReg_setSreq _ hslot hlt, if_pos rfl, SineReq.get_put]
      simp
    · rw [writeReg_sreq hslot hq]
      exact ⟨rfl, rfl, rfl⟩

/-- Settles O11: an offset outside the lists holds no register to write or none at all, and a reserved place neither stores nor returns anything. -/
theorem otherRegisterWritesIgnored : Obligations.OtherRegisterWritesIgnored := by
  intro s off v
  refine ⟨fun hlt h4 hoff hblock => ?_, fun hlt h4 hoff hblock => ?_, fun w hplace => ?_⟩
  · have hslot : ∀ slot f, regAt s.cfg off ≠ .sreq slot f := fun _ _ h => hblock (regAt_sreq h)
    have hcmd : regAt s.cfg off ≠ .cmd := fun h => hoff (by simp [regAt_cmd h])
    rw [perform_writeReg v hlt h4 hcmd, writeReg_ignored v hslot]
    intro n hn
    have hreg : regAt s.cfg off ≠ .reserved := fun h => by simp [h, Reg.offset] at hn
    rwa [← Option.some.inj ((offset_regAt hreg).symm.trans hn)]
  · have hslot : ∀ slot f, regAt s.cfg off ≠ .sreq slot f := fun _ _ h => hblock (regAt_sreq h)
    have hreg : regAt s.cfg off = .reserved := by
      by_contra hreg
      exact hoff (Reg.offset_mem (offset_regAt hreg) hslot)
    rw [perform_readReg hlt h4, hreg]; rfl
  · simp only [State.perform, State.hostWrites, State.hostReads, placeOf_reserved s.cfg w off hplace]
    exact ⟨trivial, rfl⟩

/-- Settles O23: each clause is in the frame every command keeps to. -/
theorem operandsAndHostSideUntouched : Obligations.OperandsAndHostSideUntouched := by
  intro i s t h
  obtain ⟨h0, h1, h2, h3⟩ := (exec_frame h).args
  exact ⟨h0, h1, h2, h3, (exec_frame h).irqEn, (exec_frame h).res1, (exec_frame h).cfg, (exec_frame h).host⟩

/-- Settles O24: each clause is in the frame every command keeps to. -/
theorem unitsOwnTheirState : Obligations.UnitsOwnTheirState := by
  intro i s t h
  obtain ⟨-, -, -, -, -, hsreq, hslots, hdtmf, hpkt, hpi, hemo, hphase, hconfig, hres0⟩ := exec_frame h
  exact ⟨hsreq, hslots, hdtmf, hpkt, hpi, hemo, hphase, hconfig, hres0⟩

/-- Settles O54: of what a HOST input can do, only the commands of `exec_pi` and the two resets move a latched cursor. -/
theorem wrongLatches : Obligations.WrongLatches := by
  intro s t i rest hs hq h ht
  rw [step_cons hq] at h
  obtain ⟨v, rfl⟩ | ⟨w, rfl, hrun⟩ | ⟨off, v, rfl, rfl⟩ | ⟨a, bs, rfl⟩ | ⟨cells, rfl, rfl⟩ := perform_inv h
  · exact absurd hs ht
  · unfold State.runCommand at hrun
    split at hrun
    · rw [raise_inv hrun] at ht
      exact absurd hs ht
    · rename_i i hdec
      obtain ⟨hpos, hcause⟩ := exec_pi_of_latched (s := s.setHostQueue rest) hs hrun ht
      refine ⟨hpos, .inl ⟨_, w, rfl, rfl, ?_⟩⟩
      rw [hdec]
      exact hcause.imp (congrArg some) (And.imp_left (congrArg some))
  · obtain hpi | ⟨hctrl, hbit, hpi⟩ := writeReg_pi (s.setHostQueue rest) (regAt (s.setHostQueue rest).cfg off) v
    · exact absurd (hpi.trans hs) ht
    · exact ⟨hpi, .inr (.inl ⟨_, v, rfl, by rw [regAt_ctrl hctrl]; rfl, hbit⟩)⟩
  · exact absurd ((State.memWrite_pi (s.setHostQueue rest) a bs).trans hs) ht
  · exact ⟨rfl, .inr (.inr ⟨cells, rfl⟩)⟩

/-- Settles O60: an idle step changes nothing, and any other step performs one HOST input, each kind of which keeps the invariant. -/
theorem stepKeepsInvariant : Obligations.StepKeepsInvariant := by
  intro s t hs h
  cases hq : s.hostQueue with
  | nil => rw [step, hq] at h; cases h; exact hs
  | cons x rest =>
    rw [step_cons hq] at h
    exact inv_perform (s := s.setHostQueue rest) hs h

end Sys2Proof.Machine
end

