-- ==== Sys2Proof/Proofs/BramAccess.lean ====
section
/-! SUPPORT. HOST accesses by their place in the window, the bytes of an access in BRAM, and which commands leave BRAM alone (20_memory.md R76, R77, R80, R81, R86). -/

namespace Sys2Proof.Machine

/-! ### The place of an access -/

/-- The register block admits aligned words only (20_memory.md R81). -/
theorem placeOf_reg_notAdmitted (c : Config) (w : Width) {off : Nat} (hlt : off < 0x400)
    (h : w ≠ .word ∨ off % 4 ≠ 0) : placeOf c w (c.coreBase + off) = .notAdmitted := by
  have hbase : ¬ (c.coreBase + off < c.coreBase) := by omega
  have hword : ¬ (w = .word ∧ off % 4 = 0) := by tauto
  simp only [placeOf, placeAt, windowSize, regBlockSize, if_neg hbase, Nat.add_sub_cancel_left]
  rw [if_neg (by omega), if_pos hlt, if_neg hword]

/-- Natural alignment in the BRAM window is that of the BRAM address (20_memory.md R80). -/
theorem bramOffset_add_mod (w : Width) (a : Nat) : (0x4000 + a) % w.bytes = a % w.bytes := by
  cases w <;> simp only [Width.bytes] <;> omega

/-- The BRAM window admits naturally aligned accesses only (20_memory.md R80, R81). -/
theorem placeOf_bram (c : Config) (w : Width) {a : Nat} (hsize : c.bramSize ≤ 0x4000) (ha : a < c.bramSize) :
    placeOf c w (c.coreBase + 0x4000 + a) = if a % w.bytes = 0 then .bram a else .notAdmitted := by
  have hbase : ¬ (c.coreBase + 0x4000 + a < c.coreBase) := by omega
  have hoff : c.coreBase + 0x4000 + a - c.coreBase = 0x4000 + a := by omega
  simp only [placeOf, placeAt, windowSize, regBlockSize, bramOffset, if_neg hbase, hoff, bramOffset_add_mod,
    Nat.add_sub_cancel_left]
  rw [if_neg (by omega), if_neg (by omega), if_neg (by omega), if_pos ha]

/-! ### Reads -/

/-- A HOST read records its data and does nothing else (20_memory.md R86). -/
theorem perform_read_inv {s t : State} {w : Width} {addr : Nat} (h : s.perform (.read w addr) = .next t) :
    ∃ v, t = s.setHostRead v := by
  simp only [State.perform, State.hostReads] at h
  split at h <;> cases h <;> exact ⟨_, rfl⟩

/-- What a HOST read returns does not depend on the data recorded before. -/
theorem perform_read_setHostRead (s : State) (v : Word) (w : Width) (addr : Nat) :
    (s.setHostRead v).perform (.read w addr) = s.perform (.read w addr) := rfl

/-! ### Accesses that are not admitted, and admitted ones -/

/-- An access that is not admitted faults (20_memory.md R81). -/
theorem perform_notAdmitted {s : State} {w : Width} {addr : Nat} (v : Word)
    (h : placeOf s.cfg w addr = .notAdmitted) :
    s.perform (.read w addr) = .fault .accessNotAdmitted ∧
      s.perform (.write w addr v) = .fault .accessNotAdmitted := by
  simp only [State.perform, State.hostReads, State.hostWrites, h, and_self]

/-- A BRAM access reads or stores the bytes from its BRAM address on (20_memory.md R80). -/
theorem perform_bram {s : State} {w : Width} {addr a : Nat} (v : Word) (h : placeOf s.cfg w addr = .bram a) :
    s.perform (.read w addr) = .next (s.setHostRead (s.readLE a w)) ∧
      s.perform (.write w addr v) = .next (s.memWrite a (bytesLE v w)) := by
  simp only [State.perform, State.hostReads, State.hostWrites, h, and_self]

/-- Every command completes: each path of its rule ends it (60_exceptions.md R246). -/
theorem exec_completes (i : Instr) (s : State) : ∃ t, exec i s = .next t := by
  cases i
  case nop | piNext | piRx | piReset | emoInit | emoUpdate | evtClear => exact ⟨_, rfl⟩
  all_goals
    simp only [exec, execSinePopulate, execSineGen, execSineFill, execSineSample, execSineMix, execDtmfInit,
      execDtmfBlock, execPktFcs, execPktFrame, execPktRxinit, execPktRxbyte, execPktRxstream, execOrchTick,
      sendDigit, execEvtPop]
    repeat' split
    all_goals exact ⟨_, rfl⟩

/-- A write to CMD completes, whether its word is ILLEGAL or a command (60_exceptions.md R241, R246). -/
theorem runCommand_completes (s : State) (w : Word) : ∃ t, s.runCommand w = .next t := by
  unfold State.runCommand
  split
  · exact ⟨_, rfl⟩
  · exact exec_completes _ s

/-- A word write at a register's offset completes, a CMD write included (20_memory.md R81, R87). -/
theorem perform_writeReg_completes {s : State} {off : Nat} (v : Word) (hlt : off < 0x400) (h4 : off % 4 = 0) :
    ∃ t, s.perform (.write .word (s.cfg.coreBase + off) v) = .next t := by
  by_cases hcmd : regAt s.cfg off = .cmd
  · simp only [State.perform, State.hostWrites, placeOf_reg s.cfg off hlt h4, if_pos hcmd]
    exact runCommand_completes s v
  · exact ⟨_, perform_writeReg v hlt h4 hcmd⟩

/-! ### The bytes of an access -/

/-- A BRAM read as a number: little-endian, zero-extended (20_memory.md R80). -/
theorem readLE_toNat (s : State) (a : Nat) (w : Width) :
    (s.readLE a w).toNat = (s.readBram a).toNat +
      (if 2 ≤ w.bytes then 2 ^ 8 * (s.readBram (a + 1)).toNat else 0) +
      (if w.bytes = 4 then 2 ^ 16 * (s.readBram (a + 2)).toNat + 2 ^ 24 * (s.readBram (a + 3)).toNat else 0) := by
  cases w
  case byte => exact BitVec.toNat_setWidth_of_le (by decide)
  case half =>
    rw [if_pos (by decide), if_neg (by decide)]
    simp only [State.readLE, append_toNat, BitVec.toNat_ofNat]
    omega
  case word =>
    rw [if_pos (by decide), if_pos (by decide)]
    simp only [State.readLE, append_toNat]
    omega

/-- The stored bytes are the low-order bytes of the data, lowest first (20_memory.md R80; log 12). -/
theorem bytesLE_eq_map (v : Word) (w : Width) :
    bytesLE v w = (List.range w.bytes).map fun i => BitVec.ofNat 8 (v.toNat / 2 ^ (8 * i)) := by
  have hbyte : ∀ i, v.extractLsb' (8 * i) 8 = BitVec.ofNat 8 (v.toNat / 2 ^ (8 * i)) := fun i => by
    rw [← Nat.shiftRight_eq_div_pow]; rfl
  cases w <;> simp [bytesLE, Width.bytes, List.range_succ, ← hbyte]

/-- One byte of BRAM after a HOST write there (20_memory.md R80). -/
theorem readBram_memWrite_bytesLE {s : State} (h : s.bram.wf) (a x : Nat) (v : Word) (w : Width) :
    (s.memWrite a (bytesLE v w)).readBram x =
      if a ≤ x ∧ x < a + w.bytes ∧ x < s.cfg.bramSize then BitVec.ofNat 8 (v.toNat / 2 ^ (8 * (x - a)))
      else s.readBram x := by
  rw [s.readBram_memWrite h, bytesLE_eq_map, List.length_map, List.length_range]
  split
  · have hlt : x - a < w.bytes := by omega
    simp [List.getD_eq_getElem?_getD, hlt]
  · rfl

/-! ### Commands that store nothing -/

/-- The commands whose rule stores to BRAM (20_memory.md R97). -/
def storesBytes : Instr → Bool
  | .sineGen _ | .sineFill _ | .sineMix | .pktFrame | .pktRxbyte | .pktRxstream | .orchTick => true
  | .nop | .sinePopulate _ | .sineSample | .dtmfInit | .dtmfBlock | .pktFcs | .pktRxinit | .piNext | .piRx
  | .piReset | .emoInit | .emoUpdate | .evtPop | .evtClear => false

/-- Every other command leaves BRAM as it is, whether it fails or not (20_memory.md R97). -/
theorem exec_bram {i : Instr} {s t : State} (h : exec i s = .next t) (hi : storesBytes i = false) :
    t.bram = s.bram := by
  rcases exec_inv h with ⟨st, -, -, rfl, -⟩ | hd
  · rfl
  cases i
  case sineGen | sineFill | sineMix | pktFrame | pktRxbyte | pktRxstream | orchTick => cases hi
  case nop | piNext | piReset | emoInit | evtClear => subst hd; rfl
  case sineSample | pktFcs | piRx => obtain ⟨v, rfl⟩ := hd; rfl
  case emoUpdate => obtain ⟨e, v, rfl⟩ := hd; rfl
  case dtmfInit => obtain ⟨-, rfl⟩ := hd; rfl
  case pktRxinit => obtain ⟨-, -, -, rfl⟩ := hd; rfl
  case evtPop => obtain ⟨e, q, -, rfl⟩ := hd; rfl
  case sinePopulate => obtain ⟨r, st, -, -, rfl⟩ := hd; rfl
  case dtmfBlock =>
    obtain ⟨-, ⟨-, rfl⟩ | ⟨new, n, v, -, rfl⟩⟩ := hd
    · exact s.flush_bram
    · exact s.decideSymbol_bram new n

end Sys2Proof.Machine
end

