-- ==== Sys2Proof/Proofs/Memory.lean ====
section
/-! The statements of the family 20_memory.md. -/

namespace Sys2Proof.Machine

/-- Settles O7: a read only records its data, and what it returns does not depend on the record. -/
theorem hostReadsHaveNoSideEffect : Obligations.HostReadsHaveNoSideEffect := by
  intro s t w addr h
  obtain ⟨v, rfl⟩ := perform_read_inv h
  exact ⟨rfl, (perform_read_setHostRead s v w addr).trans h⟩

/-- Settles O12: the place of the access decides, and an admitted one completes. -/
theorem unadmittedAccessIsStuck : Obligations.UnadmittedAccessIsStuck := by
  intro s w off v hsize
  refine ⟨fun hlt => ⟨fun h => ?_, ?_⟩, fun hle hlt => ?_⟩
  · exact perform_notAdmitted v (placeOf_reg_notAdmitted s.cfg w hlt h)
  · rintro rfl h4
    exact ⟨⟨_, perform_readReg hlt h4⟩, perform_writeReg_completes v hlt h4⟩
  · obtain ⟨a, rfl⟩ := Nat.exists_eq_add_of_le hle
    have hplace := placeOf_bram s.cfg w hsize (Nat.lt_of_add_lt_add_left hlt)
    rw [bramOffset_add_mod, ← Nat.add_assoc]
    refine ⟨fun h => perform_notAdmitted v (by rw [hplace, if_neg h]), fun h => ?_⟩
    obtain ⟨hread, hwrite⟩ := perform_bram v (hplace.trans (if_pos h))
    exact ⟨⟨_, hread⟩, ⟨_, hwrite⟩⟩

/-- Settles O13: an aligned access reads or stores the bytes from its address on, and any other faults. -/
theorem bramAccessIsLittleEndian : Obligations.BramAccessIsLittleEndian := by
  intro s w a v hwf hsize ha
  have hplace := placeOf_bram s.cfg w hsize ha
  refine ⟨fun h => ?_, fun h => perform_notAdmitted v (by rw [hplace, if_neg h]), fun x hx => if_neg (by omega)⟩
  obtain ⟨hread, hwrite⟩ := perform_bram v (hplace.trans (if_pos h))
  have hm := s.memWrite_wf hwf a (bytesLE v w)
  have hx := fun x => readBram_memWrite_bytesLE hwf a x v w
  obtain ⟨m, hmem⟩ := s.memWrite_changes a (bytesLE v w)
  rw [hmem] at hwrite hm hx
  exact ⟨⟨_, hread, readLE_toNat s a w⟩, m, hwrite, hm, hx⟩

/-- Settles O25: a byte of BRAM depends on BRAM and its size only, and these commands keep both. -/
theorem nonStoringCommandsKeepBram : Obligations.NonStoringCommandsKeepBram := by
  intro i s t h hi x
  have hstores : storesBytes i = false := by
    obtain ⟨slot, rfl⟩ | hi := hi
    · rfl
    · clear h
      revert i
      decide
  rw [State.readBram, exec_bram h hstores, (exec_frame h).cfg, State.readBram]

end Sys2Proof.Machine
end

