-- ==== Sys2Proof/Proofs/Encoding.lean ====
section
/-! What the decoder accepts and refuses, in the fields of the word, and the statements of the family 30_encoding.md. -/

namespace Sys2Proof

/-! ### The opcode map -/

/-- The opcode map finds every command under its own opcode (R104). -/
theorem instrOf_opcodeOf (i : Instr) : instrOf (opcodeOf i) i.slot = some i := by
  cases i <;> rfl

/-- A command either takes a slot or has SLOT 0 (R101, R102). -/
theorem takesSlot_opcodeOf_or_slot_eq_zero (i : Instr) : takesSlot (opcodeOf i) = true ∨ i.slot = 0 := by
  cases i
  case sinePopulate | sineGen | sineFill => exact .inl rfl
  all_goals exact .inr rfl

/-- The opcodes without a slot, as numbers (R102). -/
theorem takesSlot_eq_false_iff (opc : Byte) : takesSlot opc = false ↔ opc.toNat ∉ [0x10, 0x11, 0x12] := by
  simp [takesSlot, ← BitVec.toNat_inj, and_assoc]

/-! ### The fields -/

theorem slotOf_lt (w : Word) : slotOf w < 16 := (w.extractLsb' 8 4).isLt

/-- RSV is zero exactly when the word has nothing from bit 12 on (R101). -/
theorem rsvOf_eq_zero_iff (w : Word) : rsvOf w = 0#20 ↔ w.toNat / 4096 = 0 := by
  rw [← BitVec.toNat_inj, rsv_toNat]
  rfl

/-- A word is its RSV, SLOT and OPC side by side (R101). -/
theorem word_toNat_fields (w : Word) :
    w.toNat = (rsvOf w).toNat * 4096 + slotOf w * 256 + (opcOf w).toNat := by
  rw [rsv_toNat, slot_toNat, opc_toNat]
  omega

/-! ### The decoder -/

/-- The decoder is the opcode map on the words with RSV 0, and with SLOT 0 where the opcode takes no slot (R102). -/
theorem decode_eq_instrOf (w : Word) :
    decode w = if rsvOf w = 0#20 ∧ (takesSlot (opcOf w) = true ∨ slotOf w = 0)
      then instrOf (opcOf w) (slotOf w) else none := by
  unfold decode
  split
  next hnone => rw [hnone, ite_self]
  next i hsome =>
    rw [hsome]
    by_cases hrsv : rsvOf w = 0#20
    · cases htakes : takesSlot (opcOf w) with
      | true => simp [hrsv]
      | false => simp [hrsv]
    · simp [hrsv]

/-- The decoder accepts the assigned opcodes with RSV 0, and with SLOT 0 where the command has no slot (R102). -/
theorem decode_eq_some_iff (w : Word) (i : Instr) :
    decode w = some i ↔ (rsvOf w = 0#20 ∧ (takesSlot (opcOf w) = true ∨ slotOf w = 0)) ∧
      instrOf (opcOf w) (slotOf w) = some i := by
  rw [decode_eq_instrOf, Option.ite_none_right_eq_some]

/-- The three ways to be ILLEGAL: an unassigned opcode, RSV not 0, SLOT not 0 on a command without a slot (R102). -/
theorem decode_eq_none_iff (w : Word) : decode w = none ↔
    instrOf (opcOf w) (slotOf w) = none ∨ rsvOf w ≠ 0#20 ∨ (takesSlot (opcOf w) = false ∧ slotOf w ≠ 0) := by
  rw [decode_eq_instrOf, ite_eq_right_iff, imp_iff_or_not, not_and_or, not_or, Bool.not_eq_true]

/-! ### The statements of the family -/

/-- Settles O1: the three fields of the word are the command's, and the opcode map finds it under them. -/
theorem decodeInvertsEncode : Obligations.DecodeInvertsEncode := by
  intro i hwf
  obtain ⟨hopc, hslot, hrsv⟩ := Laws.EncodeFields.encode_fields i hwf
  rw [decode_eq_some_iff, hopc, hslot]
  exact ⟨⟨hrsv, takesSlot_opcodeOf_or_slot_eq_zero i⟩, instrOf_opcodeOf i⟩

/-- Settles O2: an accepted word has its command's opcode and slot and a zero RSV, and a word is fixed by its fields. -/
theorem encodeInvertsDecode : Obligations.EncodeInvertsDecode := by
  intro w i h
  obtain ⟨⟨hrsv, htakes⟩, hinstr⟩ := (decode_eq_some_iff w i).mp h
  obtain ⟨hopc, hslot, hnoSlot⟩ := instrOf_some hinstr
  have hslot : i.slot = slotOf w := by
    cases hb : takesSlot (opcOf w) with
    | true => exact hslot hb
    | false => exact (hnoSlot hb).trans (htakes.resolve_left (by simp [hb])).symm
  have hwf : i.WellFormed := hslot.trans_lt (slotOf_lt w)
  refine ⟨hwf, BitVec.eq_of_toNat_eq ?_⟩
  rw [encode_toNat i hwf, word_toNat_fields w, hopc, hslot, hrsv]
  simp

/-- Settles O3: the decoder's three refusals, each read as a number. -/
theorem illegalWordsAreExactly : Obligations.IllegalWordsAreExactly := by
  intro w
  rw [decode_eq_none_iff, instrOf_none, ne_eq, rsvOf_eq_zero_iff, takesSlot_eq_false_iff, opc_toNat, slot_toNat]

/-- Settles O4, by running the decoder on each word. -/
theorem sampleWordsDecode : Obligations.SampleWordsDecode := by
  unfold Obligations.SampleWordsDecode
  decide

end Sys2Proof
end

