-- ==== Sys2Proof/Proofs/SineSample.lean ====
section
/-! SUPPORT. The sample function SS in two steps: the signed table entry of a position, then the scaled and biased byte (40_sine.md R121, R123, R124). -/

namespace Sys2Proof.Machine

/-- The entry of SINE_ROM a position selects: its offset in the quadrant, mirrored in the odd quadrants (R123). -/
def romIndex (p : Nat) : Nat := if p / 256 % 2 = 1 then 255 - p % 256 else p % 256

/-- The table entry of a position with its sign: negative in the upper half turn (R123). -/
def signedEntry (c : Config) (p : Nat) : Int :=
  if 2 ≤ p / 256 then -(sineRom c (romIndex p) : Int) else sineRom c (romIndex p)

/-- SS is the signed entry of the rounded position, scaled and biased (R123). -/
theorem sineSample_eq (c : Config) (num den scale : Nat) :
    sineSample c num den scale =
      BitVec.ofInt 8 ((signedEntry c (roundUpHalf num den % 1024)).tdiv scale + 127) := rfl

/-! ### The table -/

theorem romIndex_lt (p : Nat) : romIndex p < 256 := by
  unfold romIndex
  split <;> omega

/-- The table of a legal machine has an entry of at most 127 at each of its 256 places (R121). -/
theorem sineRom_getElem? {c : Config} (hc : c.Legal) {i : Nat} (hi : i < 256) :
    ∃ m : Byte, c.sineRom[i]? = some m ∧ sineRom c i = m.toNat ∧ m.toNat ≤ 127 := by
  obtain ⟨-, -, -, -, -, hlen, hmag, -⟩ := hc
  have hi : i < c.sineRom.length := hlen ▸ hi
  exact ⟨c.sineRom[i], List.getElem?_eq_getElem hi, by simp [sineRom, hi], hmag _ (List.getElem_mem hi)⟩

/-- The two entries R121 fixes: 0 at the zero crossing and 127 at the peak. -/
theorem sineRom_ends {c : Config} (hc : c.Legal) : sineRom c 0 = 0 ∧ sineRom c 255 = 127 := by
  obtain ⟨-, -, -, -, -, -, -, hzero, hpeak, -⟩ := hc
  simp [sineRom, List.getD_eq_getElem?_getD, hzero, hpeak]

/-- A signed entry lies in -127..127 (R124). -/
theorem signedEntry_natAbs_le {c : Config} (hc : c.Legal) (p : Nat) : (signedEntry c p).natAbs ≤ 127 := by
  obtain ⟨m, -, hm, hle⟩ := sineRom_getElem? hc (romIndex_lt p)
  unfold signedEntry
  split <;> omega

/-- The signed entries at the four quarter positions (R124). -/
theorem signedEntry_quarters {c : Config} (hc : c.Legal) :
    signedEntry c 0 = 0 ∧ signedEntry c 256 = 127 ∧ signedEntry c 512 = 0 ∧ signedEntry c 768 = -127 := by
  obtain ⟨hzero, hpeak⟩ := sineRom_ends hc
  simp [signedEntry, romIndex, hzero, hpeak]

/-! ### The byte -/

/-- Scaling keeps -127..127, so the biased value fits its byte (R124). -/
theorem sineSample_toNat {c : Config} (hc : c.Legal) (num den scale : Nat) :
    ((sineSample c num den scale).toNat : Int) =
      (signedEntry c (roundUpHalf num den % 1024)).tdiv scale + 127 ∧
    (sineSample c num den scale).toNat ≤ 254 := by
  have hle := signedEntry_natAbs_le hc (roundUpHalf num den % 1024)
  rw [sineSample_eq]
  generalize signedEntry c (roundUpHalf num den % 1024) = v at hle ⊢
  have hquot : (v.tdiv scale).natAbs ≤ 127 := by
    rw [Int.natAbs_tdiv]
    exact (Nat.div_le_self _ _).trans hle
  rw [BitVec.toNat_ofInt]
  omega

/-- An entry smaller than the scale leaves the bias alone (R123). -/
theorem sineSample_eq_bias {c : Config} {num den scale : Nat}
    (h : (signedEntry c (roundUpHalf num den % 1024)).natAbs < scale) : sineSample c num den scale = 127#8 := by
  have hquot : (signedEntry c (roundUpHalf num den % 1024)).tdiv scale = 0 := by
    rw [← Int.natAbs_eq_zero, Int.natAbs_tdiv]
    exact Nat.div_eq_of_lt h
  rw [sineSample_eq, hquot]
  rfl

/-- The sample at scale 1 is the biased entry. -/
theorem sineSample_scale_one (c : Config) (num den : Nat) :
    sineSample c num den 1 = BitVec.ofInt 8 (signedEntry c (roundUpHalf num den % 1024) + 127) := by
  rw [sineSample_eq, Nat.cast_one, Int.tdiv_one]

end Sys2Proof.Machine
end

