-- ==== Sys2Proof/Proofs/SineCommands.lean ====
section
/-! SUPPORT. The sine commands by their checks and by what they leave: a run of stores in range, the validation of a request, and the lengths and phase words (40_sine.md R126 to R130). -/

namespace Sys2Proof.Machine

/-! ### A run of stores inside BRAM -/

/-- Storing f 0 .. f (n-1) from an address on, inside BRAM, changes BRAM only, keeps its canonical form and leaves those bytes (00_scope.md R13). -/
theorem memWrite_range_inside {s : State} (hwf : s.bram.wf) (f : Nat → Byte) {a n : Nat}
    (hfit : a + n ≤ s.cfg.bramSize) :
    ∃ m : Memory, s.memWrite a ((List.range n).map f) = s.setBram m ∧ m.wf ∧
      ∀ x, (s.setBram m).readBram x = if a ≤ x ∧ x < a + n then f (x - a) else s.readBram x := by
  obtain ⟨m, hm⟩ := s.memWrite_changes a ((List.range n).map f)
  refine ⟨m, hm, by simpa [hm] using s.memWrite_wf hwf a ((List.range n).map f), fun x => ?_⟩
  rw [← hm, s.readBram_memWrite hwf, List.length_map, List.length_range]
  by_cases hx : a ≤ x ∧ x < a + n
  · rw [if_pos (by omega), if_pos hx]
    simp [List.getD_eq_getElem?_getD, show x - a < n by omega]
  · rw [if_neg (by omega), if_neg hx]

/-! ### The slot a command names -/

/-- A slot past NSREQ is the null request (10_state.md R39). -/
theorem slot?_of_ge {s : State} {slot : Nat} (h : s.cfg.nsreq ≤ slot) : s.slot? slot = none :=
  if_neg (Nat.not_lt.mpr h)

/-! ### Validation of a request (R126) -/

/-- A request that passes every check of R126. -/
structure SineReq.Valid (c : Config) (r : SineReq) : Prop where
  buf : r.buf ≠ 0#32
  bufLen : r.bufLen ≠ 0#32
  fTone : r.fTone ≠ 0#32
  fSample : r.fSample ≠ 0#32
  scale : r.scale ≠ 0#32
  sampled : 2 * r.fTone.toNat < r.fSample.toNat
  fits : r.buf.toNat + r.bufLen.toNat ≤ c.bramSize

theorem sineFault_of_zero {c : Config} {r : SineReq}
    (h : r.buf = 0#32 ∨ r.bufLen = 0#32 ∨ r.fTone = 0#32 ∨ r.fSample = 0#32) :
    sineFault c r = some .invalid := if_pos h

/-- With no field zero the later checks decide, in their order (R126). -/
theorem sineFault_of_nonzero {c : Config} {r : SineReq} (hb : r.buf ≠ 0#32) (hl : r.bufLen ≠ 0#32)
    (ht : r.fTone ≠ 0#32) (hs : r.fSample ≠ 0#32) : sineFault c r =
    if r.scale = 0#32 then some .invalid
    else if 2 * r.fTone.toNat ≥ r.fSample.toNat then some .undersampled
    else if c.bramSize < r.buf.toNat + r.bufLen.toNat then some .erange
    else none := by
  have hrange : ¬ inRange c r.buf.toNat r.bufLen.toNat ↔ c.bramSize < r.buf.toNat + r.bufLen.toNat := by
    have := BitVec.toNat_pos_of_ne_zero hb
    omega
  rw [sineFault, if_neg (by simp [hb, hl, ht, hs])]
  simp only [hrange]

theorem SineReq.Valid.sineFault_eq_none {c : Config} {r : SineReq} (h : r.Valid c) : sineFault c r = none := by
  rw [sineFault_of_nonzero h.buf h.bufLen h.fTone h.fSample, if_neg h.scale, if_neg (Nat.not_le.mpr h.sampled),
    if_neg (Nat.not_lt.mpr h.fits)]

/-! ### The two generation commands -/

section Generation

variable {i : Instr} {s : State} {slot : Nat} {r : SineReq}

/-- Both commands report the null request (R126). -/
theorem exec_generation_null (hi : i = .sineGen slot ∨ i = .sineFill slot) (h : s.slot? slot = none) :
    exec i s = .next (s.setStatus .invalid) := by
  rcases hi with rfl | rfl
  · simp only [exec, execSineGen, h, raise]
  · simp only [exec, execSineFill, h, raise]

/-- Both commands report the first failing check of the slot's request (R126). -/
theorem exec_generation_fault (hi : i = .sineGen slot ∨ i = .sineFill slot) (h : s.slot? slot = some r) {st : Status}
    (hf : sineFault s.cfg r = some st) : exec i s = .next (s.setStatus st) := by
  rcases hi with rfl | rfl
  · simp only [exec, execSineGen, h, hf, raise]
  · simp only [exec, execSineFill, h, hf, raise]

/-- SINE_GENERATE on a request that passes the checks (R127). -/
theorem exec_sineGen_valid (h : s.slot? slot = some r) (hf : sineFault s.cfg r = none) :
    exec (.sineGen slot) s = generateInto s slot r (genLen r) (phaseErrGen r (genLen r)) := by
  simp only [exec, execSineGen, h, hf]

/-- SINE_GENERATE_FILL on a request that passes the checks (R129). -/
theorem exec_sineFill_valid (h : s.slot? slot = some r) (hf : sineFault s.cfg r = none) :
    exec (.sineFill slot) s = generateInto s slot r r.bufLen.toNat (phaseErrFill r) := by
  simp only [exec, execSineFill, h, hf]

/-- What a generation of n samples leaves: the samples at BUF, RESULT_LEN and PHASE_ERR in the slot, the status, and everything else as it was (R127, R129). -/
theorem generateInto_leaves {n pe : Nat} (hwf : s.bram.wf) (hfit : r.buf.toNat + n ≤ s.cfg.bramSize) :
    ∃ m : Memory, generateInto s slot r n pe = .next { s with
        bram := m
        sreq := s.sreq.set slot { r with resultLen := BitVec.ofNat 32 n, phaseErr := BitVec.ofNat 32 pe }
        status := sineStatus r } ∧
      m.wf ∧ ∀ x, ({ s with bram := m } : State).readBram x =
        if r.buf.toNat ≤ x ∧ x < r.buf.toNat + n then
          sineSample s.cfg (sineNum r.theta0.toNat r.fTone.toNat r.fSample.toNat (x - r.buf.toNat))
            (sineDen r.fSample.toNat) r.scale.toNat
        else s.readBram x := by
  obtain ⟨m, hm, hmwf, hread⟩ := memWrite_range_inside hwf (fun i => sineSample s.cfg
    (sineNum r.theta0.toNat r.fTone.toNat r.fSample.toNat i) (sineDen r.fSample.toNat) r.scale.toNat) hfit
  exact ⟨m, by rw [generateInto, sineWave, hm]; rfl, hmwf, hread⟩

end Generation

/-! ### Lengths and phase words (R127, R128, R130) -/

/-- A number below 2^32 is what its register holds (00_scope.md R8). -/
theorem word_toNat_ofNat {n : Nat} (h : n < 2 ^ 32) : (BitVec.ofNat 32 n).toNat = n :=
  (BitVec.toNat_ofNat n 32).trans (Nat.mod_eq_of_lt h)

/-- A missing part of less than one wave is a phase word (R128). -/
theorem phaseWord_lt {missing fs : Nat} (h : missing < fs) : 2 ^ 32 * missing / fs < 2 ^ 32 :=
  Nat.div_lt_of_lt_mul (by rw [Nat.mul_comm fs]; exact Nat.mul_lt_mul_of_pos_left h (by decide))

/-- Rounding up to whole waves adds less than one wave (R130). -/
theorem wholeWaves_bounds (k : Nat) {fs : Nat} (h : 0 < fs) :
    k ≤ (k + fs - 1) / fs * fs ∧ (k + fs - 1) / fs * fs - k < fs := by
  have hdiv := Nat.div_add_mod' (k + fs - 1) fs
  have hmod := Nat.mod_lt (k + fs - 1) h
  omega

/-- The realized length is at most BUFLEN, and its samples fit in one wave (R127, R128). -/
theorem genLen_le (r : SineReq) : genLen r ≤ r.bufLen.toNat ∧ genLen r * r.fTone.toNat ≤ r.fSample.toNat :=
  ⟨Nat.min_le_right _ _, (Nat.mul_le_mul_right _ (Nat.min_le_left _ _)).trans (Nat.div_mul_le_self _ _)⟩

/-- A valid request realizes at least one sample (R127). -/
theorem SineReq.Valid.genLen_pos {c : Config} {r : SineReq} (h : r.Valid c) : 1 ≤ genLen r :=
  have htone := h.sampled
  le_min (Nat.div_pos (by omega) (BitVec.toNat_pos_of_ne_zero h.fTone)) (BitVec.toNat_pos_of_ne_zero h.bufLen)

/-- PE_generate of a valid request is a phase word (R128). -/
theorem SineReq.Valid.phaseErrGen_lt {c : Config} {r : SineReq} (h : r.Valid c) :
    phaseErrGen r (genLen r) < 2 ^ 32 := by
  have hpos : 0 < genLen r * r.fTone.toNat := Nat.mul_pos h.genLen_pos (BitVec.toNat_pos_of_ne_zero h.fTone)
  have hrate := BitVec.toNat_pos_of_ne_zero h.fSample
  exact phaseWord_lt (by omega)

/-- PE_fill is a phase word (R130). -/
theorem phaseErrFill_lt {r : SineReq} (h : r.fSample ≠ 0#32) : phaseErrFill r < 2 ^ 32 :=
  phaseWord_lt (wholeWaves_bounds _ (BitVec.toNat_pos_of_ne_zero h)).2

/-- On a buffer of at most one wave the realized length is BUFLEN (R129). -/
theorem genLen_eq_bufLen {r : SineReq} (ht : r.fTone ≠ 0#32)
    (h : r.bufLen.toNat * r.fTone.toNat ≤ r.fSample.toNat) : genLen r = r.bufLen.toNat :=
  Nat.min_eq_right ((Nat.le_div_iff_mul_le (BitVec.toNat_pos_of_ne_zero ht)).mpr h)

/-- On a buffer of at most one wave PE_fill is PE_generate (R130). -/
theorem phaseErrFill_eq_phaseErrGen {r : SineReq} (hpos : 0 < r.bufLen.toNat * r.fTone.toNat)
    (h : r.bufLen.toNat * r.fTone.toNat ≤ r.fSample.toNat) : phaseErrFill r = phaseErrGen r r.bufLen.toNat := by
  have hone : (r.bufLen.toNat * r.fTone.toNat + r.fSample.toNat - 1) / r.fSample.toNat = 1 :=
    Nat.div_eq_of_lt_le (by omega) (by omega)
  simp only [phaseErrFill, phaseErrGen, hone, Nat.one_mul]

/-- PE_fill is 0 on a whole number of waves (R130). -/
theorem phaseErrFill_eq_zero {r : SineReq} (hs : r.fSample ≠ 0#32)
    (h : r.fSample.toNat ∣ r.bufLen.toNat * r.fTone.toNat) : phaseErrFill r = 0 := by
  have hmissing := Nat.eq_zero_of_dvd_of_lt (Nat.dvd_sub (Nat.dvd_mul_left _ _) h)
    (wholeWaves_bounds _ (BitVec.toNat_pos_of_ne_zero hs)).2
  simp only [phaseErrFill, hmissing, Nat.mul_zero, Nat.zero_div]

/-! ### SINE_SAMPLE (R131) and SINE_MIX (R132) -/

/-- SINE_SAMPLE with a scale stores the sample in RES0 (R131). -/
theorem exec_sineSample_of_scale {s : State} (h : s.arg1 ≠ 0#32) : exec .sineSample s = .next { s with
    res0 := (sineSample s.cfg s.arg0.toNat (2 ^ 22) s.arg1.toNat).setWidth 32, status := .okay } := by
  simp only [exec, execSineSample, if_neg h]
  rfl

/-- The bytes SINE_MIX stores, by their index. -/
theorem mix_eq_map_range (s : State) (a b n : Nat) : List.zipWith mixByte (s.memRead a n) (s.memRead b n) =
    (List.range n).map fun i => mixByte (s.readBram (a + i)) (s.readBram (b + i)) := by
  rw [State.memRead, State.memRead, List.zipWith_map, List.zipWith_self]

/-- SINE_MIX of a length on three addresses checks the ranges, then stores the averages (R132). -/
theorem exec_sineMix_of_nonzero {s : State} (hn : s.arg3.toNat ≠ 0) (h0 : s.arg0 ≠ 0#32) (h1 : s.arg1 ≠ 0#32)
    (h2 : s.arg2 ≠ 0#32) : exec .sineMix s =
      if s.cfg.bramSize < s.arg0.toNat + s.arg3.toNat ∨ s.cfg.bramSize < s.arg1.toNat + s.arg3.toNat ∨
          s.cfg.bramSize < s.arg2.toNat + s.arg3.toNat then .next (s.setStatus .erange)
      else .next ((s.memWrite s.arg0.toNat ((List.range s.arg3.toNat).map fun i =>
        mixByte (s.readBram (s.arg1.toNat + i)) (s.readBram (s.arg2.toNat + i)))).setStatus .okay) := by
  have hp0 := BitVec.toNat_pos_of_ne_zero h0
  have hp1 := BitVec.toNat_pos_of_ne_zero h1
  have hp2 := BitVec.toNat_pos_of_ne_zero h2
  have hnull : ¬ (s.arg0 = 0#32 ∨ s.arg1 = 0#32 ∨ s.arg2 = 0#32) := by simp [h0, h1, h2]
  simp only [exec, execSineMix, if_neg hn, if_neg hnull, mix_eq_map_range, raise, finish]
  exact if_congr (by omega) rfl rfl

end Sys2Proof.Machine
end

