-- ==== Sys2Proof/Proofs/Sine.lean ====
section
/-! The statements of the family 40_sine.md. -/

namespace Sys2Proof.Machine

/-- Settles O26: the slot is written before the operands are checked. -/
theorem populateFillsSlot : Obligations.PopulateFillsSlot := by
  intro s slot hlen
  refine ⟨fun hnull => ?_, fun hlt => ?_⟩
  · simp only [exec, execSinePopulate, slot?_of_ge hnull]
    rfl
  · have hslot : s.slot? slot = some s.sreq[slot] := by rw [slot?_of_lt hlt, List.getElem?_eq_getElem]
    simp only [exec, execSinePopulate, hslot]
    split <;> rfl

/-- Settles O27: both commands report what the request's validation reports. -/
theorem sineCheckOrder : Obligations.SineCheckOrder := by
  intro i s slot hi _
  refine ⟨fun hnull => exec_generation_null hi (slot?_of_ge hnull), fun r hlt hr => ?_⟩
  have hslot : s.slot? slot = some r := (slot?_of_lt hlt).trans hr
  refine ⟨fun hzero => exec_generation_fault hi hslot (sineFault_of_zero hzero), fun hb hl ht hs => ?_⟩
  have hchecks := sineFault_of_nonzero (c := s.cfg) hb hl ht hs
  refine ⟨fun hscale => ?_, fun hscale => ⟨fun hunder => ?_, fun hsampled hend => ?_⟩⟩
  all_goals refine exec_generation_fault hi hslot (hchecks.trans ?_)
  · exact if_pos hscale
  · rw [if_neg hscale, if_pos hunder]
  · rw [if_neg hscale, if_neg (Nat.not_le.mpr hsampled), if_pos hend]

/-- Settles O28: the request is valid, so `genLen` samples are stored; the length and the phase error fit their registers. -/
theorem generateResult : Obligations.GenerateResult := by
  rintro s slot r rl hwf hlt hr hb hl ht hs hscale hsampled hfits rfl
  have hvalid : r.Valid s.cfg := ⟨hb, hl, ht, hs, hscale, hsampled, hfits⟩
  obtain ⟨hle, hwave⟩ := genLen_le r
  obtain ⟨m, hexec, hmwf, hread⟩ := generateInto_leaves (slot := slot) (pe := phaseErrGen r (genLen r)) hwf
    (show r.buf.toNat + genLen r ≤ s.cfg.bramSize by omega)
  exact ⟨m, _, (exec_sineGen_valid ((slot?_of_lt hlt).trans hr) hvalid.sineFault_eq_none).trans hexec, rfl,
    word_toNat_ofNat (hle.trans_lt r.bufLen.isLt), hvalid.genLen_pos,
    word_toNat_ofNat hvalid.phaseErrGen_lt, hwave, hmwf, hread⟩

/-- Settles O29: the request is valid, so BUFLEN samples are stored; the phase error fits its register. -/
theorem fillResult : Obligations.FillResult := by
  rintro s slot r k c hwf hlt hr hb hl ht hs hscale hsampled hfits rfl rfl
  have hvalid : r.Valid s.cfg := ⟨hb, hl, ht, hs, hscale, hsampled, hfits⟩
  obtain ⟨m, hexec, hmwf, hread⟩ := generateInto_leaves (slot := slot) (pe := phaseErrFill r) hwf hfits
  rw [BitVec.ofNat_toNat, BitVec.setWidth_eq] at hexec
  exact ⟨m, _, (exec_sineFill_valid ((slot?_of_lt hlt).trans hr) hvalid.sineFault_eq_none).trans hexec, rfl,
    word_toNat_ofNat (phaseErrFill_lt hs), (wholeWaves_bounds _ (BitVec.toNat_pos_of_ne_zero hs)).1, hmwf, hread⟩

/-- Settles O30: the checks are the same, and on a valid request of at most one wave so are the length and the phase error. -/
theorem fillMatchesGenerate : Obligations.FillMatchesGenerate := by
  refine ⟨fun s slot r hr hshort => ?_, fun r hs hwhole => phaseErrFill_eq_zero hs (Nat.dvd_of_mod_eq_zero hwhole)⟩
  by_cases hlt : slot < s.cfg.nsreq
  · have hslot : s.slot? slot = some r := (slot?_of_lt hlt).trans hr
    cases hf : sineFault s.cfg r with
    | some st => rw [exec_generation_fault (.inr rfl) hslot hf, exec_generation_fault (.inl rfl) hslot hf]
    | none =>
      have hzero : ¬ (r.buf = 0#32 ∨ r.bufLen = 0#32 ∨ r.fTone = 0#32 ∨ r.fSample = 0#32) := fun h => by
        simp [sineFault_of_zero h] at hf
      simp only [not_or] at hzero
      obtain ⟨-, hl, ht, -⟩ := hzero
      have hwave := Nat.mul_pos (BitVec.toNat_pos_of_ne_zero hl) (BitVec.toNat_pos_of_ne_zero ht)
      rw [exec_sineFill_valid hslot hf, exec_sineGen_valid hslot hf, genLen_eq_bufLen ht hshort,
        phaseErrFill_eq_phaseErrGen hwave hshort]
  · have hnull := slot?_of_ge (Nat.not_lt.mp hlt)
    rw [exec_generation_null (.inr rfl) hnull, exec_generation_null (.inl rfl) hnull]

/-- Settles O31: the sample is the signed table entry, scaled and biased, and the entries at the quarter positions are R121's. -/
theorem sampleIsBiasedQuotient : Obligations.SampleIsBiasedQuotient := by
  rintro c num den scale p off idx hc - - hp rfl rfl
  obtain ⟨m, hrom, hm, -⟩ := sineRom_getElem? hc (romIndex_lt p)
  have hp : roundUpHalf num den % 1024 = p := hp.symm
  obtain ⟨hbyte, hle⟩ := sineSample_toNat hc num den scale
  obtain ⟨h0, h256, h512, h768⟩ := signedEntry_quarters hc
  refine ⟨m, hrom, ?_, hle, ?_⟩
  · rw [hbyte, hp, signedEntry, hm]
  · rintro rfl
    rw [sineSample_scale_one, hp]
    refine ⟨?_, ?_, ?_⟩
    · rintro (rfl | rfl)
      · rw [h0]; rfl
      · rw [h512]; rfl
    · rintro rfl
      rw [h256]; rfl
    · rintro rfl
      rw [h768]; rfl

/-- Settles O32: a signed entry below the scale leaves the bias, and the corner angles are quarter positions. -/
theorem sineSampleResult : Obligations.SineSampleResult := by
  intro s
  refine ⟨fun h => ?_, exec_sineSample_of_scale, fun hc hscale => ?_, fun hc hang h => ?_, fun hc hang h => ?_⟩
  · simp only [exec, execSineSample, if_pos h]
    rfl
  · have hne : s.arg1 ≠ 0#32 := fun h => by simp [h] at hscale
    rw [exec_sineSample_of_scale hne, sineSample_eq_bias ((signedEntry_natAbs_le hc _).trans_lt hscale)]
    rfl
  · obtain ⟨h0, -⟩ := signedEntry_quarters hc
    have hpos : roundUpHalf s.arg0.toNat (2 ^ 22) % 1024 = 0 := by
      rcases hang with hang | hang <;> rw [hang] <;> rfl
    rw [exec_sineSample_of_scale h, sineSample_eq_bias (by rw [hpos, h0]; exact BitVec.toNat_pos_of_ne_zero h)]
    rfl
  · obtain ⟨-, h256, -⟩ := signedEntry_quarters hc
    have hpos : roundUpHalf s.arg0.toNat (2 ^ 22) % 1024 = 256 := by rw [hang]; rfl
    have hone : s.arg1.toNat = 1 := by rw [h]; rfl
    rw [exec_sineSample_of_scale (by simp [h]), hone, sineSample_scale_one, hpos, h256]
    rfl

/-- Settles O33: the averaged bytes are read from the state the command started from, and stored in range. -/
theorem mixAveragesBytes : Obligations.MixAveragesBytes := by
  rintro s n hwf rfl
  refine ⟨fun hn => ?_, fun hn hnull => ?_, fun hn h0 h1 h2 => ?_⟩
  · simp only [exec, execSineMix, if_pos hn]
    rfl
  · simp only [exec, execSineMix, if_neg hn, if_pos hnull]
    rfl
  · have hmix := exec_sineMix_of_nonzero hn h0 h1 h2
    refine ⟨fun hend => hmix.trans (if_pos hend), fun hd ha hb => ?_⟩
    obtain ⟨m, hm, hmwf, hread⟩ := memWrite_range_inside hwf
      (fun i => mixByte (s.readBram (s.arg1.toNat + i)) (s.readBram (s.arg2.toNat + i))) hd
    refine ⟨m, ?_, hmwf, hread⟩
    rw [hmix, if_neg (by omega), hm]
    rfl

end Sys2Proof.Machine
end

