-- ==== Sys2Proof/Proofs/DtmfCoefficients.lean ====
section
/-! SUPPORT. The coefficients of binary32 by the quarter turn the angle lies in, and the symmetries of the circle that follow (10_state.md R43; 41_dtmf.md R141, R153; log 9). -/

namespace Sys2Proof.Machine

/-! ### The first quarter -/

/-- The sine of a part of the quarter turn depends on the ratio only. -/
theorem sinQuarter_scale (a d : Nat) {c : Nat} (hc : 0 < c) : sinQuarter (c * a) (c * d) = sinQuarter a d := by
  have hx : c * a * piFixed / (2 * (c * d)) = a * piFixed / (2 * d) := by
    rw [Nat.mul_assoc, Nat.mul_left_comm 2 c d, Nat.mul_div_mul_left _ _ hc]
  simp only [sinQuarter, sinQuarterFixed, hx, Nat.mul_eq_zero, hc.ne', false_or]

theorem sinQuarter_zero (d : Nat) : sinQuarter 0 d = 0 := rfl

/-- The sine of the whole quarter turn is 1. -/
theorem sinQuarter_self {d : Nat} (hd : 0 < d) : sinQuarter d d = 0x3F800000 := by
  have hone : sinQuarter 1 1 = 0x3F800000 := by decide +kernel
  simpa [hone] using sinQuarter_scale 1 1 hd

theorem sinQuarter_le (a d : Nat) : sinQuarter a d ≤ 0x7F800000 := by
  unfold sinQuarter
  split
  · exact Nat.zero_le _
  · exact roundMag_le _ _

/-! ### The sign -/

/-- The other sign over a magnitude is bit 31 flipped. -/
theorem signed_not (neg : Bool) {mag : Nat} (h : mag < 2 ^ 31) :
    signed (!neg) mag = signed neg mag ^^^ 0x80000000#32 := by
  have hset : signed true mag = signed false mag ^^^ 0x80000000#32 := by
    have hbits : 2 ^ 31 + mag = mag ^^^ 2 ^ 31 := by
      have hor : 2 ^ 31 + mag = 2 ^ 31 ||| mag := by simpa using Nat.two_pow_add_eq_or_of_lt h 1
      rw [hor]
      refine Nat.eq_of_testBit_eq fun i => ?_
      simp only [Nat.testBit_or, Nat.testBit_xor, Nat.testBit_two_pow]
      by_cases hi : 31 = i
      · subst hi
        simp only [Nat.testBit_lt_two_pow h, decide_true, Bool.or_false, Bool.false_xor]
      · simp only [hi, decide_false, Bool.false_or, Bool.xor_false]
    simpa [signed, BitVec.ofNat_xor] using congrArg (BitVec.ofNat 32) hbits
  cases neg with
  | false => exact hset
  | true => rw [hset, BitVec.xor_assoc, BitVec.xor_self, BitVec.xor_zero]; rfl

/-- Zero is +0 under either sign (R153). -/
theorem signedNoZero_zero (neg : Bool) : signedNoZero neg 0 = 0#32 := by cases neg <;> rfl

/-- The other sign of a coefficient flips bit 31, and leaves zero alone (R153). -/
theorem signedNoZero_not (neg : Bool) {mag : Nat} (h : mag < 2 ^ 31) : signedNoZero (!neg) mag =
    if signedNoZero neg mag = 0#32 then 0#32 else signedNoZero neg mag ^^^ 0x80000000#32 := by
  by_cases hz : mag = 0
  · subst hz
    simp [signedNoZero_zero]
  · have hne : signed neg mag ≠ 0#32 := by
      cases neg <;> simp [signed, ← BitVec.toNat_inj] <;> omega
    simp [signedNoZero, hz, hne, signed_not neg h]

/-! ### The quarters of the turn -/

/-- The cosine r / fs of a quarter turn into quarter q. -/
def quarterCos (q r fs : Nat) : Word :=
  signedNoZero (decide (q = 1 ∨ q = 2)) (sinQuarter (if q % 2 = 0 then fs - r else r) fs)

/-- The sine r / fs of a quarter turn into quarter q. -/
def quarterSin (q r fs : Nat) : Word :=
  signedNoZero (decide (2 ≤ q)) (sinQuarter (if q % 2 = 0 then r else fs - r) fs)

/-- The end of a quarter is the start of the next one. -/
theorem quarter_end {q : Nat} (hq : q < 4) (fs : Nat) :
    quarterCos q fs fs = quarterCos ((q + 1) % 4) 0 fs ∧ quarterSin q fs fs = quarterSin ((q + 1) % 4) 0 fs := by
  interval_cases q <;> simp [quarterCos, quarterSin, sinQuarter_zero, signedNoZero_zero]

/-- The turn seen from its other end: the cosine is the same, the sine has the other sign. -/
theorem quarter_reflect {q r fs : Nat} (hq : q < 4) (hr : r ≤ fs) :
    quarterCos (3 - q) (fs - r) fs = quarterCos q r fs ∧ quarterSin (3 - q) (fs - r) fs =
      if quarterSin q r fs = 0#32 then 0#32 else quarterSin q r fs ^^^ 0x80000000#32 := by
  have hback := Nat.sub_sub_self hr
  have hflip (neg : Bool) (a : Nat) := signedNoZero_not neg (mag := sinQuarter a fs)
    (by have := sinQuarter_le a fs; omega)
  interval_cases q <;> simp [quarterCos, quarterSin, hback, ← hflip]

/-! ### The turn -/

/-- What the reduction of an angle finds: quarter and rest of the angle without its whole turns. -/
theorem turn_of_lt {f fs q r : Nat} (h : 4 * (f % fs) = q * fs + r) (hq : q < 4) (hr : r < fs) :
    binary32.cosTurn f fs = quarterCos q r fs ∧ binary32.sinTurn f fs = quarterSin q r fs := by
  have hquot : 4 * (f % fs) / fs = q := by
    rw [h, Nat.mul_comm, Nat.mul_add_div (by omega), Nat.div_eq_of_lt hr, Nat.add_zero]
  have hrest : 4 * (f % fs) % fs = r := by rw [h, Nat.mul_add_mod_of_lt hr]
  show f32CosTurn f fs = _ ∧ f32SinTurn f fs = _
  simp only [f32CosTurn, f32SinTurn, hquot, hrest]
  interval_cases q <;> exact ⟨rfl, rfl⟩

/-- The coefficients of an angle r / fs into quarter q; a boundary belongs to both of its quarters. -/
theorem turn_of_quarter {f fs q r : Nat} (hfs : 0 < fs) (h : 4 * f = q * fs + r) (hq : q < 4) (hr : r ≤ fs) :
    binary32.cosTurn f fs = quarterCos q r fs ∧ binary32.sinTurn f fs = quarterSin q r fs := by
  have hle : q * fs ≤ 3 * fs := Nat.mul_le_mul_right _ (by omega)
  rcases hr.lt_or_eq with hlt | rfl
  · exact turn_of_lt (by rwa [Nat.mod_eq_of_lt (by omega)]) hq hlt
  · obtain ⟨hcos, hsin⟩ := quarter_end hq r
    rw [hcos, hsin]
    refine turn_of_lt ?_ (Nat.mod_lt _ (by decide)) hfs
    rcases (by omega : f < r ∨ f = r) with hlt | rfl
    · have : q ≠ 3 := by rintro rfl; omega
      rw [Nat.mod_eq_of_lt hlt, Nat.mod_eq_of_lt (by omega : q + 1 < 4), h, Nat.succ_mul, Nat.add_zero]
    · have : q = 3 := by
        have := Nat.eq_of_mul_eq_mul_right hfs (by rw [h, Nat.succ_mul] : 4 * f = (q + 1) * f)
        omega
      subst this
      simp

/-- Whole turns do not matter. -/
theorem turn_add_turn (f fs : Nat) : binary32.cosTurn (f + fs) fs = binary32.cosTurn f fs ∧
    binary32.sinTurn (f + fs) fs = binary32.sinTurn f fs := by
  constructor
  · show f32CosTurn _ _ = f32CosTurn _ _
    simp only [f32CosTurn, Nat.add_mod_right]
  · show f32SinTurn _ _ = f32SinTurn _ _
    simp only [f32SinTurn, Nat.add_mod_right]

/-- An angle of at most one turn lies in one of its quarters. -/
theorem exists_quarter {f fs : Nat} (hfs : 0 < fs) (h : f ≤ fs) :
    ∃ q r, 4 * f = q * fs + r ∧ q < 4 ∧ r ≤ fs := by
  rcases h.lt_or_eq with hlt | rfl
  · exact ⟨4 * f / fs, 4 * f % fs, (Nat.div_add_mod' _ _).symm, Nat.div_lt_of_lt_mul (by omega),
      (Nat.mod_lt _ hfs).le⟩
  · exact ⟨3, f, by omega, by decide, le_rfl⟩

/-- The cosine is even and the sine is odd. -/
theorem turn_reflect {f fs : Nat} (hfs : 0 < fs) (h : f ≤ fs) :
    binary32.cosTurn (fs - f) fs = binary32.cosTurn f fs ∧ binary32.sinTurn (fs - f) fs =
      if binary32.sinTurn f fs = 0#32 then 0#32 else binary32.sinTurn f fs ^^^ 0x80000000#32 := by
  obtain ⟨q, r, hf, hq, hr⟩ := exists_quarter hfs h
  have hangle : 4 * (fs - f) = (3 - q) * fs + (fs - r) := by
    interval_cases q <;> omega
  obtain ⟨hcos, hsin⟩ := turn_of_quarter hfs hf hq hr
  obtain ⟨hcos', hsin'⟩ := turn_of_quarter hfs hangle (by omega) (Nat.sub_le _ _)
  rw [hcos, hsin, hcos', hsin']
  exact quarter_reflect hq hr

/-- The sine in the first quarter is the cosine of the rest of the quarter. -/
theorem sinTurn_eq_cosTurn_complement {f fs : Nat} (hfs : 0 < fs) (h : 4 * f ≤ fs) :
    binary32.sinTurn f fs = binary32.cosTurn (fs - 4 * f) (4 * fs) := by
  have hrest : 4 * fs - 4 * (fs - 4 * f) = 4 * (4 * f) := by omega
  rw [(turn_of_quarter hfs (q := 0) (by omega) (by decide) h).2,
    (turn_of_quarter (q := 0) (r := 4 * (fs - 4 * f)) (by omega) (by omega) (by decide) (by omega)).1]
  simp [quarterSin, quarterCos, hrest, sinQuarter_scale (4 * f) fs (c := 4) (by decide)]

/-- The coefficients at the four quarter turns are exact (R153). -/
theorem turn_quarters {f fs q : Nat} (hfs : 0 < fs) (h : 4 * f = q * fs) (hq : q < 4) :
    binary32.cosTurn f fs = quarterCos q 0 1 ∧ binary32.sinTurn f fs = quarterSin q 0 1 := by
  obtain ⟨hcos, hsin⟩ := turn_of_quarter hfs h hq (Nat.zero_le _)
  rw [hcos, hsin]
  interval_cases q <;> simp [quarterCos, quarterSin, sinQuarter_zero, sinQuarter_self hfs, sinQuarter_self one_pos]

end Sys2Proof.Machine
end

