-- ==== Sys2Proof/Proofs/DtmfDetection.lean ====
section
/-! SUPPORT. A block's symbol: the Goertzel recurrence, the scan for the best tone, the order of binary32, the threshold test, and a silent block (41_dtmf.md R143 to R147, R154). -/

namespace Sys2Proof.Machine

/-! ### The Goertzel recurrence -/

/-- The filter's sequence: z 0 and z 1 are the two cleared registers, z (i + 2) is the z0 of the sample i (R144). -/
def goertzelSeq (G : Gnum) (c : Word) (xs : List Word) : Nat → Word
  | 0 => G.zero
  | i + 1 => ((xs.take i).foldl (goertzelStep G c) (G.zero, G.zero)).1

/-- The filter after i samples holds the last two terms of its sequence. -/
theorem foldl_take_eq_goertzelSeq (G : Gnum) (c : Word) (xs : List Word) {i : Nat} (hi : i ≤ xs.length) :
    (xs.take i).foldl (goertzelStep G c) (G.zero, G.zero) = (goertzelSeq G c xs (i + 1), goertzelSeq G c xs i) := by
  cases i with
  | zero => rfl
  | succ i =>
    refine Prod.ext rfl ?_
    rw [List.take_succ_eq_append_getElem hi, List.foldl_append]
    rfl

/-- The recurrence, in the order R144 fixes. -/
theorem goertzelSeq_add_two (G : Gnum) (c : Word) {xs : List Word} {i : Nat} {x : Word} (hx : xs[i]? = some x) :
    goertzelSeq G c xs (i + 2) = G.sub (G.add x (G.mul (G.mul (G.ofRat 2 1) c) (goertzelSeq G c xs (i + 1))))
      (goertzelSeq G c xs i) := by
  obtain ⟨hi, rfl⟩ := List.getElem?_eq_some_iff.mp hx
  show ((xs.take (i + 1)).foldl (goertzelStep G c) (G.zero, G.zero)).1 = _
  rw [List.take_succ_eq_append_getElem hi, List.foldl_append, foldl_take_eq_goertzelSeq G c xs hi.le]
  rfl

/-- The squared magnitude from the last two terms (R144, R145). -/
theorem goertzel_eq (G : Gnum) (xs : List Word) (c s : Word) : goertzel G xs c s =
    let z1 := goertzelSeq G c xs (xs.length + 1)
    let z2 := goertzelSeq G c xs xs.length
    let i := G.sub (G.mul z1 c) z2
    let q := G.mul z1 s
    G.div (G.add (G.mul i i) (G.mul q q)) (G.ofRat xs.length 2) := by
  have hz := foldl_take_eq_goertzelSeq G c xs le_rfl
  rw [List.take_length] at hz
  simp only [goertzel, hz]

/-! ### The scan for the best tone (R146) -/

/-- One comparison of the scan. -/
def scanStep (G : Gnum) (mag : List Word) (best j : Nat) : Nat :=
  if G.lt (mag.getD best G.zero) (mag.getD j G.zero) then j else best

theorem bestOf_eq (G : Gnum) (mag : List Word) (k : Nat) :
    bestOf G mag k = scanStep G mag (scanStep G mag (scanStep G mag k (k + 1)) (k + 2)) (k + 3) := rfl

theorem scanStep_eq (G : Gnum) (mag : List Word) (best j : Nat) :
    scanStep G mag best j = best ∨ scanStep G mag best j = j := by
  unfold scanStep
  split
  · exact .inr rfl
  · exact .inl rfl

/-- The best of a group is one of its four tones, in every GNUM. -/
theorem bestOf_bounds (G : Gnum) (mag : List Word) (k : Nat) : k ≤ bestOf G mag k ∧ bestOf G mag k ≤ k + 3 := by
  rw [bestOf_eq]
  have h1 := scanStep_eq G mag k (k + 1)
  have h2 := scanStep_eq G mag (scanStep G mag k (k + 1)) (k + 2)
  have h3 := scanStep_eq G mag (scanStep G mag (scanStep G mag k (k + 1)) (k + 2)) (k + 3)
  omega

/-! ### The order of binary32 -/

/-- The data without a NaN in their order. -/
def F32.key : F32 → WithBot (WithTop Int)
  | .nan => ⊥
  | .inf true => ⊥
  | .inf false => ⊤
  | .fin neg m => ((signedInt neg m : Int) : WithTop Int)

/-- Without a NaN, the comparison is that of a linear order. -/
theorem F32.lt_eq_true_iff_key {x y : F32} (hx : x ≠ .nan) (hy : y ≠ .nan) :
    F32.lt x y = true ↔ x.key < y.key := by
  match x, y with
  | .inf a, .inf b => cases a <;> cases b <;> simp [F32.lt, F32.key]
  | .inf a, .fin _ _ => cases a <;> simp [F32.lt, F32.key]
  | .fin _ _, .inf true => simp [F32.lt, F32.key]
  | .fin a m, .inf false => simpa [F32.lt, F32.key] using WithBot.coe_lt_coe.2 (WithTop.coe_lt_top (signedInt a m))
  | .fin _ _, .fin _ _ => simp [F32.lt, F32.key]

theorem F32.lt_self (x : F32) : F32.lt x x = false := by
  match x with
  | .nan => rfl
  | .inf a => simp [F32.lt]
  | .fin a m => simp [F32.lt]

theorem F32.lt_nan (x : F32) : F32.lt x .nan = false := by cases x <;> rfl

/-- j is the first of the largest of k..m. -/
structure FirstMax (key : Nat → WithBot (WithTop Int)) (k m b : Nat) : Prop where
  lower : k ≤ b
  upper : b ≤ m
  largest (j : Nat) : k ≤ j → j ≤ m → key j ≤ key b
  first (j : Nat) : k ≤ j → j < b → key j < key b

theorem FirstMax.refl (key : Nat → WithBot (WithTop Int)) (k : Nat) : FirstMax key k k k where
  lower := le_rfl
  upper := le_rfl
  largest j hk hm := by rw [Nat.le_antisymm hm hk]
  first j hk hb := absurd hb (Nat.not_lt.mpr hk)

/-- The scan goes on with the next tone only when that is strictly greater (R146). -/
theorem FirstMax.step {key : Nat → WithBot (WithTop Int)} {k m b : Nat} (h : FirstMax key k m b) :
    FirstMax key k (m + 1) (if key b < key (m + 1) then m + 1 else b) := by
  have hlower := h.lower
  have hupper := h.upper
  split
  · rename_i hgt
    have hless (j : Nat) (hk : k ≤ j) (hm : j ≤ m) : key j < key (m + 1) := (h.largest j hk hm).trans_lt hgt
    refine ⟨by omega, le_rfl, fun j hk hm => ?_, fun j hk hm => hless j hk (Nat.lt_succ_iff.mp hm)⟩
    rcases Nat.le_succ_iff.mp hm with hm | rfl
    · exact (hless j hk hm).le
    · exact le_rfl
  · rename_i hle
    refine ⟨hlower, by omega, fun j hk hm => ?_, h.first⟩
    rcases Nat.le_succ_iff.mp hm with hm | rfl
    · exact h.largest j hk hm
    · exact not_lt.mp hle

/-- Without a NaN, the scan of binary32 finds the first of the largest. -/
theorem bestOf_firstMax {mag : List Word} (hnan : ∀ j, F32.ofBits (mag.getD j 0#32) ≠ .nan) (k : Nat) :
    FirstMax (fun j => (F32.ofBits (mag.getD j 0#32)).key) k (k + 3) (bestOf binary32 mag k) := by
  have hscan (b j : Nat) : scanStep binary32 mag b j =
      if (F32.ofBits (mag.getD b 0#32)).key < (F32.ofBits (mag.getD j 0#32)).key then j else b :=
    if_congr (F32.lt_eq_true_iff_key (hnan b) (hnan j)) rfl rfl
  rw [bestOf_eq, hscan, hscan, hscan]
  exact (FirstMax.refl _ k).step.step.step

/-! ### The threshold test (R147) -/

theorem classify_of_below {G : Gnum} {mag : List Word} {th : Word}
    (h : G.lt (mag.getD (bestOf G mag 0) G.zero) (G.mul th th) = true ∨
      G.lt (mag.getD (bestOf G mag 4) G.zero) (G.mul th th) = true) : classify G mag th = none :=
  if_pos (Bool.or_eq_true _ _ ▸ h)

/-- A block that passes is the symbol of its best row and column: 4·row + column, below 16. -/
theorem classify_of_pass {G : Gnum} {mag : List Word} {th : Word}
    (hr : G.lt (mag.getD (bestOf G mag 0) G.zero) (G.mul th th) = false)
    (hc : G.lt (mag.getD (bestOf G mag 4) G.zero) (G.mul th th) = false) :
    ∃ c : Fin 16, classify G mag th = some c ∧ c.val = 4 * bestOf G mag 0 + (bestOf G mag 4 - 4) := by
  have hrow := bestOf_bounds G mag 0
  have hcol := bestOf_bounds G mag 4
  refine ⟨_, if_neg (by simp only [hr, hc]; decide), ?_⟩
  rw [Fin.val_ofNat, Nat.mod_eq_of_lt (by omega)]

theorem classify_ne_none_of_pass {G : Gnum} {mag : List Word} {th : Word}
    (hr : G.lt (mag.getD (bestOf G mag 0) G.zero) (G.mul th th) = false)
    (hc : G.lt (mag.getD (bestOf G mag 4) G.zero) (G.mul th th) = false) : classify G mag th ≠ none := by
  obtain ⟨c, hsome, -⟩ := classify_of_pass hr hc
  simp [hsome]

/-- A magnitude is not below itself. -/
theorem binary32_lt_self (w : Word) : binary32.lt w w = false := F32.lt_self _

/-- Nothing is below the square of a NaN. -/
theorem binary32_lt_square_of_nan {th : Word} (h : F32.ofBits th = .nan) (w : Word) :
    binary32.lt w (binary32.mul th th) = false := by
  have hsq : F32.ofBits (binary32.mul th th) = .nan := by
    show F32.ofBits (F32.mul (F32.ofBits th) (F32.ofBits th)) = .nan
    rw [h]
    decide
  show F32.lt (F32.ofBits w) (F32.ofBits (binary32.mul th th)) = false
  rw [hsq, F32.lt_nan]

/-- Flipping bit 31 of a pattern flips the sign of its datum. -/
theorem F32.ofBits_flip (w : Word) : F32.ofBits (w ^^^ 0x80000000#32) = (F32.ofBits w).neg := by
  have hexp : (0x80000000#32 : Word).extractLsb' 23 8 = 0#8 := by decide
  have hfrac : (0x80000000#32 : Word).extractLsb' 0 23 = 0#23 := by decide
  have hsign : (0x80000000#32 : Word).getLsbD 31 = true := by decide
  simp only [F32.ofBits, BitVec.extractLsb'_xor, BitVec.getLsbD_xor, hexp, hfrac, hsign, BitVec.xor_zero, Bool.xor_true]
  repeat' split
  all_goals rfl

/-- The square of a number does not depend on its sign. -/
theorem F32.mul_neg_neg (x : F32) : F32.mul x.neg x.neg = F32.mul x x := by
  cases x with
  | nan => rfl
  | inf a => cases a <;> rfl
  | fin a m => cases a <;> rfl

theorem binary32_square_flip (th : Word) :
    binary32.mul (th ^^^ 0x80000000#32) (th ^^^ 0x80000000#32) = binary32.mul th th := by
  show F32.mul (F32.ofBits _) (F32.ofBits _) = F32.mul (F32.ofBits th) (F32.ofBits th)
  rw [F32.ofBits_flip, F32.mul_neg_neg]

/-! ### A silent block (R154) -/

section Silence

variable {G : Gnum} (hG : G.Lawful) {c s : Word} {xs : List Word}
include hG

/-- A number times zero is zero. -/
theorem datum_mul_zero {a b : Word} (ha : G.Finite a) (hb : G.datum b = .fin 0) : G.datum (G.mul a b) = .fin 0 := by
  obtain ⟨x, hx⟩ := ha
  exact (hG.mul a b x 0 hx hb).2 (mul_zero x)

theorem datum_zero_mul {a b : Word} (ha : G.datum a = .fin 0) (hb : G.Finite b) : G.datum (G.mul a b) = .fin 0 := by
  obtain ⟨y, hy⟩ := hb
  exact (hG.mul a b 0 y ha hy).2 (zero_mul y)

/-- The sum of zeros is a zero. -/
theorem datum_add_zeros {a b : Word} (ha : G.datum a = .fin 0) (hb : G.datum b = .fin 0) :
    G.datum (G.add a b) = .fin 0 := (hG.add a b 0 0 ha hb).2 (add_zero 0)

theorem datum_sub_zeros {a b : Word} (ha : G.datum a = .fin 0) (hb : G.datum b = .fin 0) :
    G.datum (G.sub a b) = .fin 0 := (hG.sub a b 0 0 ha hb).2 (sub_zero 0)

/-- Zero over half a length is zero: the half is not zero. -/
theorem datum_zero_div_half {a : Word} (ha : G.datum a = .fin 0) {n : Nat} (hn : 0 < n) :
    G.datum (G.div a (G.ofRat n 2)) = .fin 0 := by
  rcases hG.half n hn with ⟨neg, hinf⟩ | ⟨q, hq, hfin⟩
  · exact hG.divInf _ _ 0 neg ha hinf
  · exact (hG.div _ _ 0 q ha hfin hq).2 (zero_div q)

/-- Zero is below a square that is neither zero nor a NaN. -/
theorem zero_lt_square {a t : Word} (ha : G.datum a = .fin 0) (hnan : G.datum (G.mul t t) ≠ .nan)
    (hzero : G.datum (G.mul t t) ≠ .fin 0) : G.lt a (G.mul t t) = true := by
  by_cases ht : G.Finite t
  · obtain ⟨x, hx⟩ := ht
    obtain ⟨hround, hexact⟩ := hG.mul t t x x hx hx
    have hne : x * x ≠ 0 := fun h => hzero (hexact h)
    have hpos : 0 < (x * x).num := Rat.num_pos.mpr (lt_of_le_of_ne (mul_self_nonneg x) hne.symm)
    rw [hround hne] at hzero ⊢
    rcases hG.pos _ _ hpos (x * x).den_pos with hinf | ⟨q, hq, hfin⟩
    · exact hG.ltInf _ _ 0 ha hinf
    · have hq0 : q ≠ 0 := by
        rintro rfl
        exact hzero hfin
      exact (hG.lt _ _ 0 q ha hfin).2 (lt_of_le_of_ne hq hq0.symm)
  · exact hG.ltInf _ _ 0 ha ((hG.square t ht).resolve_left hnan)

/-- On zeros the filter stays at zero. -/
theorem goertzelSeq_silent (h2c : G.Finite (G.mul (G.ofRat 2 1) c)) (hxs : ∀ x ∈ xs, G.datum x = .fin 0) (i : Nat)
    (hi : i ≤ xs.length) :
    G.datum (goertzelSeq G c xs i) = .fin 0 ∧ G.datum (goertzelSeq G c xs (i + 1)) = .fin 0 := by
  induction i with
  | zero => exact ⟨hG.zero, hG.zero⟩
  | succ i ih =>
    obtain ⟨hz2, hz1⟩ := ih (Nat.le_of_succ_le hi)
    refine ⟨hz1, ?_⟩
    rw [goertzelSeq_add_two G c (List.getElem?_eq_getElem hi)]
    exact datum_sub_zeros hG (datum_add_zeros hG (hxs _ (List.getElem_mem hi)) (datum_mul_zero hG h2c hz1)) hz2

theorem goertzel_silent (hc : G.Finite c) (hs : G.Finite s) (h2c : G.Finite (G.mul (G.ofRat 2 1) c))
    (hxs : ∀ x ∈ xs, G.datum x = .fin 0) (hne : 0 < xs.length) : G.datum (goertzel G xs c s) = .fin 0 := by
  obtain ⟨hz2, hz1⟩ := goertzelSeq_silent hG h2c hxs xs.length le_rfl
  have hi := datum_sub_zeros hG (datum_zero_mul hG hz1 hc) hz2
  have hq := datum_zero_mul hG hz1 hs
  rw [goertzel_eq]
  have hsum := datum_add_zeros hG (datum_zero_mul hG hi ⟨0, hi⟩) (datum_zero_mul hG hq ⟨0, hq⟩)
  exact datum_zero_div_half hG hsum hne

/-- A sample at the baseline is a zero (R143). -/
theorem normSample_silent {adcBias : Nat} {v : Byte} (hv : v.toNat = adcBias) :
    G.datum (normSample G adcBias v) = .fin 0 := by
  rw [normSample, hv, sub_self]
  exact (hG.ofRat 0 127 (by decide)).2 (Rat.zero_mkRat 127)

end Silence

/-- Every magnitude of a silent block is a zero. -/
theorem magnitudes_silent {cfg : Config} {d : DtmfState} (hd : d.Inv cfg) (hinit : d.init = true) {block : List Byte}
    (hne : block ≠ []) (hsilent : ∀ v ∈ block, v.toNat = cfg.adcBias) :
    ∀ w ∈ magnitudes (gnumOf cfg) cfg.adcBias d block, (gnumOf cfg).datum w = .fin 0 := by
  have hG := gnumOf_lawful cfg
  obtain ⟨-, -, hcoef⟩ := hd
  obtain ⟨hfs, hcos, hsin⟩ := hcoef hinit
  have hpos := BitVec.toNat_pos_of_ne_zero hfs
  rw [magnitudes, hcos, hsin, List.zipWith_map, List.zipWith_self]
  simp only [List.forall_mem_map]
  intro f _
  refine goertzel_silent hG (hG.cosFinite f _ hpos) (hG.sinFinite f _ hpos) (hG.twoCosFinite f _ hpos) ?_ ?_
  · simpa only [List.forall_mem_map] using fun v hv => normSample_silent hG (hsilent v hv)
  · simpa [List.length_pos_iff] using hne

/-- A silent block is NONE against a threshold whose square is neither zero nor a NaN (R154). -/
theorem blockSymbol_silent {cfg : Config} {d : DtmfState} (hd : d.Inv cfg) (hinit : d.init = true) {block : List Byte}
    (hne : block ≠ []) (hsilent : ∀ v ∈ block, v.toNat = cfg.adcBias)
    (hnan : (gnumOf cfg).datum ((gnumOf cfg).mul d.thresh d.thresh) ≠ .nan)
    (hzero : (gnumOf cfg).datum ((gnumOf cfg).mul d.thresh d.thresh) ≠ .fin 0) :
    blockSymbol (gnumOf cfg) cfg.adcBias d block = none := by
  have hG := gnumOf_lawful cfg
  have hmag := magnitudes_silent hd hinit hne hsilent
  refine classify_of_below (.inl (zero_lt_square hG ?_ hnan hzero))
  rw [List.getD_eq_getElem?_getD]
  cases hw : (magnitudes (gnumOf cfg) cfg.adcBias d block)[bestOf _ _ 0]? with
  | none => exact hG.zero
  | some w => exact hmag w (List.mem_of_getElem? hw)

end Sys2Proof.Machine
end

