-- ==== Sys2Proof/Proofs/DtmfEvents.lean ====
section
/-! SUPPORT. What the demodulator's commands emit and change, as one run of Emits and the named writes of State (41_dtmf.md R142, R148 to R150; 44_orchestrator.md R218, R219). -/

namespace Sys2Proof.Machine

/-! ### Emitting -/

/-- Several Emits change the queue and EVQ_OVF only. -/
theorem emitAll_eq (s : State) (es : List Event) :
    s.emitAll es = { s with evq := evqAfter s es, evqOvf := ovfAfter s es } := by
  obtain ⟨q, f, h⟩ := s.emitAll_changes es
  obtain ⟨hq, hf⟩ := emitAll_emitted s es
  rw [← hq, ← hf, h]
  rfl

theorem emit_eq (s : State) (e : Event) : s.emit e = { s with evq := evqAfter s [e], evqOvf := ovfAfter s [e] } :=
  emitAll_eq s [e]

theorem emitAll_append (s : State) (es es' : List Event) : s.emitAll (es ++ es') = (s.emitAll es).emitAll es' := by
  induction es generalizing s with
  | nil => rfl
  | cons e es ih => exact ih (s.emit e)

/-- Emitting does not look at the Pi cursor, the orchestrator or the demodulator. -/
theorem emitAll_setUnits (s : State) (cursor : PiCursor) (phase : OrchPhase) (held : Option (Fin 16)) (dwell : Word)
    (es : List Event) : (((s.setPi cursor).setOrchPhase phase).setHeld held dwell).emitAll es =
      (((s.emitAll es).setPi cursor).setOrchPhase phase).setHeld held dwell := by
  rw [emitAll_eq, emitAll_eq]
  rfl

/-! ### A release and a press -/

/-- What the release of the held symbol emits (R148, R150; R219). -/
def releaseEvents (s : State) : List Event :=
  match s.dtmf.held with
  | none => []
  | some c => evDtmfUp c s.dtmf.dwell :: (if s.orch.phase = .waitingStop then [evAdcStop] else [])

/-- The Pi cursor and the orchestrator's state after the release of the held symbol (R219). -/
def releaseMove (s : State) : PiCursor × OrchPhase :=
  match s.dtmf.held with
  | none => (s.pi, s.orch.phase)
  | some c =>
    if s.orch.phase = .waitingStop then
      ((piRx s.cfg (symChar c) s.pi).1, if (piRx s.cfg (symChar c) s.pi).2 = .okay then .done else .restart)
    else (s.pi, s.orch.phase)

/-- What the press of a new symbol emits (R148, R150; R218). -/
def pressEvents (phase : OrchPhase) : Option (Fin 16) → List Event
  | none => []
  | some c => evDtmfDown c :: (if phase = .sending then [evDacStop] else [])

/-- The orchestrator's state after the press of a new symbol (R218). -/
def pressPhase (phase : OrchPhase) (new : Option (Fin 16)) : OrchPhase :=
  if new ≠ none ∧ phase = .sending then .waitingStop else phase

theorem releaseHeld_eq (s : State) : s.releaseHeld =
    ((s.emitAll (releaseEvents s)).setPi (releaseMove s).1).setOrchPhase (releaseMove s).2 := by
  unfold State.releaseHeld releaseEvents releaseMove
  cases s.dtmf.held with
  | none => rfl
  | some c =>
    by_cases hp : s.orch.phase = .waitingStop
    · simp only [State.orchOnUp, State.emit_orch, State.emit_pi, State.emit_cfg, if_pos hp]
      rfl
    · simp only [State.orchOnUp, if_neg hp, State.emitAll, emit_eq]
      rfl

/-- The press of a symbol: DTMF_DOWN, then the orchestrator. -/
theorem orchOnDown_emit (t : State) (c : Fin 16) : (t.emit (evDtmfDown c)).orchOnDown =
    (t.emitAll (pressEvents t.orch.phase (some c))).setOrchPhase (pressPhase t.orch.phase (some c)) := by
  by_cases hp : t.orch.phase = .sending
  · simp [State.orchOnDown, pressEvents, pressPhase, hp, State.emitAll]
  · simp only [State.orchOnDown, pressEvents, pressPhase, hp, State.emitAll, emit_eq]
    rfl

/-- A new symbol: the release, HELD and DTMF_DWELL, the press, in that order (R148, R150). -/
theorem decideSymbol_of_ne {s : State} {new : Option (Fin 16)} (h : new ≠ s.dtmf.held) (n : Nat) :
    s.decideSymbol new n =
      (((s.emitAll (releaseEvents s ++ pressEvents (releaseMove s).2 new)).setPi (releaseMove s).1).setOrchPhase
        (pressPhase (releaseMove s).2 new)).setHeld new (BitVec.ofNat 32 n) := by
  simp only [State.decideSymbol, if_neg h, releaseHeld_eq, emitAll_append]
  cases new with
  | none => rfl
  | some c =>
    simp only [orchOnDown_emit, emitAll_setUnits]
    rfl

/-- The flush with a symbol held is its release, and holds NONE (R149). -/
theorem flush_of_held {s : State} {c : Fin 16} (h : s.dtmf.held = some c) : s.flush =
    (((s.emitAll (releaseEvents s)).setPi (releaseMove s).1).setOrchPhase (releaseMove s).2).setHeld none 0#32 := by
  simp only [State.flush, h, releaseHeld_eq]

/-! ### The two commands -/

/-- DTMF_BLOCK on a block decides its symbol (R142). -/
theorem exec_dtmfBlock_of_block {s : State} (hinit : s.dtmf.init = true) (hn : s.arg1.toNat ≠ 0) (ha : s.arg0 ≠ 0#32)
    (hfit : s.arg0.toNat + s.arg1.toNat ≤ s.cfg.bramSize) {new : Option (Fin 16)}
    (hnew : blockSymbol (gnumOf s.cfg) s.cfg.adcBias s.dtmf (s.memRead s.arg0.toNat s.arg1.toNat) = new) :
    exec .dtmfBlock s =
      .next (((s.decideSymbol new s.arg1.toNat).setRes0 (BitVec.ofNat 32 (symCode new))).setStatus .okay) := by
  have hnull : s.arg0.toNat ≠ 0 := (BitVec.toNat_pos_of_ne_zero ha).ne'
  have hfault : bufferFault s.cfg s.arg0.toNat s.arg1.toNat = none := by
    simp [bufferFault, hnull, hfit]
  simp only [exec, execDtmfBlock, hinit, hn, hfault, hnew, finish]
  rfl

/-- DTMF_BLOCK of no samples is the flush (R142). -/
theorem exec_dtmfBlock_of_empty {s : State} (hinit : s.dtmf.init = true) (hn : s.arg1 = 0#32) :
    exec .dtmfBlock s = .next ((s.flush.setRes0 16#32).setStatus .okay) := by
  simp only [exec, execDtmfBlock, hinit, hn]
  rfl

end Sys2Proof.Machine
end

