-- ==== Sys2Proof/Proofs/Dtmf.lean ====
section
/-! The statements of the family 41_dtmf.md. -/

namespace Sys2Proof.Machine

/-- Settles O34: an angle lies in one of the four quarters of the turn, and each quarter's coefficients are those of the first. -/
theorem dtmfInitConfigures : Obligations.DtmfInitConfigures := by
  intro s
  refine ⟨fun h => ?_, fun h => ?_, by decide +kernel, by decide +kernel, fun f fs hfs => ?_⟩
  · simp only [exec, execDtmfInit, if_pos h]
    rfl
  · simp only [exec, execDtmfInit, if_neg h]
    rfl
  · have hquarter {q : Nat} (hq : q < 4) (h : 4 * f = q * fs) := turn_quarters hfs h hq
    obtain ⟨hcos, hsin⟩ := turn_add_turn f fs
    refine ⟨fun h => ?_, fun h => ?_, fun h => ?_, fun h => ?_, hcos, hsin, turn_reflect hfs,
      sinTurn_eq_cosTurn_complement hfs⟩
    · exact hquarter (q := 0) (by decide) (by omega)
    · exact hquarter (q := 1) (by decide) (by omega)
    · exact hquarter (q := 2) (by decide) (by omega)
    · exact hquarter (q := 3) (by decide) h

/-- Settles O36: the held symbol only lets the dwell run on. -/
theorem dtmfBlockSameSymbol : Obligations.DtmfBlockSameSymbol := by
  rintro s n new hinit rfl hn ha hfit hnew hsame
  rw [exec_dtmfBlock_of_block hinit hn ha hfit hnew.symm, State.decideSymbol, if_pos hsame, hsame]
  rfl

/-- Settles O37: a new symbol is one run of Emits, the release's then the press's, and the writes of the Pi cursor, the orchestrator's state and HELD. -/
theorem dtmfBlockNewSymbol : Obligations.DtmfBlockNewSymbol := by
  rintro s n new up down cursor phase phase' hinit rfl hn ha hfit hnew hdiff rfl hmove rfl rfl
  obtain ⟨rfl, rfl⟩ := Prod.ext_iff.mp (hmove : (cursor, phase) = releaseMove s)
  rw [exec_dtmfBlock_of_block hinit hn ha hfit hnew.symm, decideSymbol_of_ne hdiff, emitAll_eq]
  cases new <;> rfl

/-- Settles O38: the flush of a held symbol is its release. -/
theorem dtmfFlushResult : Obligations.DtmfFlushResult := by
  intro s hinit hn
  rw [exec_dtmfBlock_of_empty hinit hn]
  refine ⟨fun h => ?_, fun c h hp => ?_, fun c h hp => ?_⟩
  · simp only [State.flush, h]
    rfl
  · simp only [flush_of_held h, emitAll_eq, releaseEvents, releaseMove, h, if_neg hp]
    rfl
  · simp only [flush_of_held h, emitAll_eq, releaseEvents, releaseMove, h, if_pos hp]
    rfl

/-- Settles O39: the sequence is `goertzelSeq` of the normalised samples. -/
theorem goertzelFollowsRecurrence : Obligations.GoertzelFollowsRecurrence := by
  intro G adcBias block c s
  refine ⟨goertzelSeq G c (block.map (normSample G adcBias)), rfl, rfl, fun i v hv => ?_, ?_⟩
  · exact goertzelSeq_add_two G c (by rw [List.getElem?_map, hv]; rfl)
  · rw [goertzel_eq, List.length_map]

/-- Settles O40: every sample is a zero, so every magnitude is one, and the threshold's square is above it. -/
theorem silentBlockIsNone : Obligations.SilentBlockIsNone := by
  intro s hinv hinit hn ha hfit hsilent hnan hzero
  have hn : s.arg1.toNat ≠ 0 := (BitVec.toNat_pos_of_ne_zero hn).ne'
  have hnone : blockSymbol (gnumOf s.cfg) s.cfg.adcBias s.dtmf (s.memRead s.arg0.toNat s.arg1.toNat) = none := by
    refine blockSymbol_silent hinv hinit ?_ ?_ hnan hzero
    · simpa [State.memRead] using hn
    · simpa [State.memRead] using hsilent
  refine ⟨_, exec_dtmfBlock_of_block hinit hn ha hfit hnone, rfl, ?_, rfl⟩
  by_cases hheld : none = s.dtmf.held
  · simp only [State.decideSymbol, if_pos hheld]
    rfl
  · rw [decideSymbol_of_ne hheld]
    rfl

/-- Settles O41: the scan keeps the first of the largest so far, in the order of binary32. -/
theorem bestIsFirstMaximum : Obligations.BestIsFirstMaximum := by
  refine ⟨?_, fun mag k hnan => ?_⟩
  · rintro G mag k b1 b2 b3 rfl rfl rfl
    rfl
  · have hbest := bestOf_firstMax hnan k
    refine ⟨hbest.lower, hbest.upper, fun j hk hm => ⟨?_, fun hj => ?_⟩⟩
    · rw [← Bool.not_eq_true]
      exact fun hlt => (hbest.largest j hk hm).not_gt ((F32.lt_eq_true_iff_key (hnan _) (hnan j)).mp hlt)
    · exact (F32.lt_eq_true_iff_key (hnan j) (hnan _)).mpr (hbest.first j hk hj)

/-- Settles O42: the test by its two outcomes, and in binary32 nothing is below itself or the square of a NaN. -/
theorem classifyAgainstThreshold : Obligations.ClassifyAgainstThreshold := by
  constructor
  · rintro G mag th _ _ rfl rfl
    exact ⟨classify_of_below, classify_of_pass⟩
  · rintro mag th _ _ rfl rfl
    refine ⟨fun hr hc => ?_, fun hnan => ?_, ?_⟩
    · refine classify_ne_none_of_pass ?_ ?_
      · exact hr ▸ binary32_lt_self _
      · exact hc ▸ binary32_lt_self _
    · exact classify_ne_none_of_pass (binary32_lt_square_of_nan hnan _) (binary32_lt_square_of_nan hnan _)
    · simp only [classify, binary32_square_flip]

end Sys2Proof.Machine
end

