-- ==== Sys2Proof/Proofs/PacketFrame.lean ====
section
/-! SUPPORT. The frame check sequence, escaping, the length of a frame and the two transmit commands (42_packet.md R161 to R165). -/

namespace Sys2Proof.Machine

/-! ### The frame check sequence (R162) -/

/-- R162's test of the two lowest bits, written with masks. -/
theorem lowBits_differ_iff (crc : BitVec 16) (x : Byte) :
    (crc &&& 1#16) ^^^ (x.setWidth 16 &&& 1#16) = 1#16 ↔ (crc.getLsbD 0 ^^ x.getLsbD 0) = true := by
  have hx : (x.setWidth 16).getLsbD 0 = x.getLsbD 0 := by simp
  rw [BitVec.and_one_eq_setWidth_ofBool_getLsbD, BitVec.and_one_eq_setWidth_ofBool_getLsbD, hx]
  cases crc.getLsbD 0 <;> cases x.getLsbD 0 <;> decide

/-- One turn of R162's loop: the check sequence takes a bit step and the byte shifts right. -/
def fcsTurn (z : BitVec 16 × Byte) : BitVec 16 × Byte :=
  (if (z.1 &&& 1#16) ^^^ (z.2.setWidth 16 &&& 1#16) = 1#16 then (z.1 >>> 1) ^^^ 0x8408#16 else z.1 >>> 1, z.2 >>> 1)

theorem fcsTurn_eq (crc : BitVec 16) (x : Byte) : fcsTurn (crc, x) = (fcsBit crc (x.getLsbD 0), x >>> 1) := by
  simp only [fcsTurn, fcsBit, lowBits_differ_iff]

/-- n turns fold the n lowest bits of the byte, the least significant first. -/
theorem fcsTurn_iterate (crc : BitVec 16) (x : Byte) (n : Nat) :
    fcsTurn^[n] (crc, x) = ((List.range n).foldl (fun c i => fcsBit c (x.getLsbD i)) crc, x >>> n) := by
  induction n with
  | zero => simp
  | succ n ih =>
    rw [Function.iterate_succ_apply', ih, fcsTurn_eq, List.range_succ, List.foldl_append]
    simp [BitVec.shiftRight_add]

theorem fcs_append (init : BitVec 16) (a b : List Byte) : fcs init (a ++ b) = fcs (fcs init a) b :=
  List.foldl_append

/-! ### Fields and bytes of a value -/

theorem field8_eq (w : Word) : field8 w = w.setWidth 8 := rfl

/-- ARG2[15:0] in RES0 is ARG2 masked (R161). -/
theorem field16_setWidth (w : Word) : (field16 w).setWidth 32 = w &&& 0xFFFF#32 := by
  have hmask : (0xFFFF#32).toNat = 2 ^ 16 - 1 := rfl
  apply BitVec.eq_of_toNat_eq
  rw [BitVec.toNat_and, hmask, Nat.and_two_pow_sub_one_eq_mod]
  exact BitVec.toNat_setWidth_of_le (by decide)

theorem hiByte_ofNat (n : Nat) : hiByte (BitVec.ofNat 16 n) = BitVec.ofNat 8 (n / 256) := by
  apply BitVec.eq_of_toNat_eq
  simp only [hiByte, BitVec.extractLsb'_toNat, BitVec.toNat_ofNat, Nat.shiftRight_eq_div_pow]
  omega

theorem loByte_ofNat (n : Nat) : loByte (BitVec.ofNat 16 n) = BitVec.ofNat 8 n := by
  apply BitVec.eq_of_toNat_eq
  simp [loByte]

/-- The two bytes of a value, put together as the parser does (R173, R174, R176, R177). -/
theorem hiByte_or_loByte (v : BitVec 16) : (hiByte v).setWidth 16 <<< 8 ||| (loByte v).setWidth 16 = v := by
  ext i hi
  by_cases h : i < 8
  · simp [hiByte, loByte, h, BitVec.getLsbD_eq_getElem hi]
  · have hhi : i - 8 < 8 ∧ 8 + (i - 8) = i := by omega
    simp [hiByte, loByte, h, hhi, BitVec.getLsbD_eq_getElem hi]

/-! ### Escaping (R164) -/

/-- The bytes that are escaped on the wire: FLAG and ESCAPE. -/
def needsEscape (b : Byte) : Bool := b == 0x7E#8 || b == 0x7D#8

theorem needsEscape_iff (b : Byte) : needsEscape b = true ↔ b = Config.flag ∨ b = Config.escape := by
  simp [needsEscape, Config.flag, Config.escape]

theorem esc_of_needsEscape {b : Byte} (h : needsEscape b = true) : esc b = [Config.escape, b] :=
  if_pos ((needsEscape_iff b).mp h)

theorem esc_of_plain {b : Byte} (h : needsEscape b = false) : esc b = [b] :=
  if_neg fun hb => by simp [(needsEscape_iff b).mpr hb] at h

theorem length_esc_pos (b : Byte) : 0 < (esc b).length := by
  cases h : needsEscape b
  · simp [esc_of_plain h]
  · simp [esc_of_needsEscape h]

theorem escAll_eq_flatMap (bs : List Byte) : escAll bs = bs.flatMap esc := by
  induction bs with
  | nil => rfl
  | cons b bs ih => rw [escAll, ih, List.flatMap_cons]

/-- Escaping adds one byte for each byte that is escaped. -/
theorem length_escAll (bs : List Byte) : (escAll bs).length = bs.length + (bs.filter needsEscape).length := by
  induction bs with
  | nil => rfl
  | cons b bs ih =>
    rw [escAll, List.length_append, ih, List.filter_cons]
    cases h : needsEscape b
    · rw [esc_of_plain h, if_neg (by simp)]
      simp only [List.length_cons, List.length_nil]
      omega
    · rw [esc_of_needsEscape h, if_pos rfl]
      simp only [List.length_cons, List.length_nil]
      omega

theorem length_le_length_escAll (bs : List Byte) : bs.length ≤ (escAll bs).length := by
  rw [length_escAll]
  exact Nat.le_add_right ..

/-! ### The frame (R163, R165) -/

/-- A frame is the two FLAGs around its escaped header, its escaped payload and its escaped FCS (R163). -/
theorem frameBytes_eq (addr ctrl : Byte) (payload : List Byte) {w c : BitVec 16}
    (hw : w = BitVec.ofNat 16 (escAll payload).length)
    (hc : c = fcs 0xFFFF#16 (frameBody addr ctrl (escAll payload))) :
    frameBytes addr ctrl payload = 0x7E#8 :: (escAll [addr, ctrl, hiByte w, loByte w] ++ escAll payload ++
      escAll [hiByte c, loByte c] ++ [0x7E#8]) := by
  subst hw hc
  simp [frameBytes, frameBody, escAll, Config.fcsInitial, Config.flag]

/-- LEN_HI of a payload within the cap is at most 3, so it is never escaped (R163). -/
theorem needsEscape_lenHi {n : Nat} (h : n ≤ 1016) : needsEscape (hiByte (BitVec.ofNat 16 n)) = false := by
  have hn : n / 256 = 0 ∨ n / 256 = 1 ∨ n / 256 = 2 ∨ n / 256 = 3 := by omega
  rw [hiByte_ofNat]
  rcases hn with hn | hn | hn | hn <;> rw [hn] <;> rfl

/-- The length of a frame whose escaped payload has n bytes (R165). -/
theorem length_frameBytes (addr ctrl : Byte) {payload : List Byte} {n : Nat} {c : BitVec 16}
    (hn : n = (escAll payload).length) (hle : n ≤ 1016)
    (hc : c = fcs 0xFFFF#16 (frameBody addr ctrl (escAll payload))) :
    (frameBytes addr ctrl payload).length =
      8 + n + ([addr, ctrl, BitVec.ofNat 8 n, hiByte c, loByte c].filter needsEscape).length := by
  rw [frameBytes_eq addr ctrl payload (by rw [← hn]) hc]
  simp only [List.length_cons, List.length_append, length_escAll [_, _, _, _], length_escAll [_, _], ← hn,
    loByte_ofNat, needsEscape_lenHi hle, ← List.countP_eq_length_filter, List.countP_cons, List.countP_nil,
    Bool.false_eq_true, if_false, List.length_nil]
  omega

/-! ### The transmit commands (R161, R163) -/

/-- A buffer that is not NULL and ends inside BRAM passes its check (20_memory.md R94). -/
theorem bufferFault_eq_none {c : Config} {a : Word} {n : Nat} (ha : a ≠ 0#32) (hfit : a.toNat + n ≤ c.bramSize) :
    bufferFault c a.toNat n = none := by
  simp [bufferFault, (BitVec.toNat_pos_of_ne_zero ha).ne', hfit]

/-- A run of stores changes BRAM only, keeps its canonical form and leaves the stored bytes (00_scope.md R13). -/
theorem memWrite_leaves {s : State} (hwf : s.bram.wf) (a : Nat) (bs : List Byte) :
    ∃ m : Memory, s.memWrite a bs = { s with bram := m } ∧ m.wf ∧ Stored s { s with bram := m } a bs := by
  have hm := s.memWrite_wf hwf a bs
  have hread := fun x => s.readBram_memWrite hwf a x bs
  obtain ⟨m, h⟩ := s.memWrite_changes a bs
  rw [h] at hm hread
  exact ⟨m, h, hm, hread⟩

/-- PKT_FCS of no bytes (R161). -/
theorem exec_pktFcs_of_empty {s : State} (hn : s.arg1 = 0#32) :
    exec .pktFcs s = .next ((s.setRes0 ((field16 s.arg2).setWidth 32)).setStatus .okay) := by
  simp only [exec, execPktFcs, hn]
  rfl

/-- PKT_FCS of a buffer in range (R161). -/
theorem exec_pktFcs_of_buffer {s : State} (hn : s.arg1 ≠ 0#32) (ha : s.arg0 ≠ 0#32)
    (hfit : s.arg0.toNat + s.arg1.toNat ≤ s.cfg.bramSize) :
    exec .pktFcs s = .next ((s.setRes0
      ((fcs (field16 s.arg2) (s.memRead s.arg0.toNat s.arg1.toNat)).setWidth 32)).setStatus .okay) := by
  have hn' : s.arg1.toNat ≠ 0 := (BitVec.toNat_pos_of_ne_zero hn).ne'
  simp only [exec, execPktFcs, if_neg hn', bufferFault_eq_none ha hfit, finish]

/-- PKT_FRAME past the checks of its operands: the escaped length decides, then the destination (R163). -/
theorem exec_pktFrame_of_source {s : State} {payload out : List Byte} (ha : s.arg0 ≠ 0#32)
    (hsrc : s.arg2 ≠ 0#32 → s.arg1 ≠ 0#32 ∧ s.arg1.toNat + s.arg2.toNat ≤ s.cfg.bramSize)
    (hp : payload = s.memRead s.arg1.toNat s.arg2.toNat)
    (hout : out = frameBytes (field8 s.arg3) (fieldHi8 s.arg3) payload) :
    exec .pktFrame s =
      if 1016 < (escAll payload).length then .next (s.setStatus .tooLong)
      else if s.cfg.bramSize < s.arg0.toNat + out.length then .next (s.setStatus .erange)
      else .next (((s.memWrite s.arg0.toNat out).setRes0 (BitVec.ofNat 32 out.length)).setStatus .okay) := by
  have hfault : frameSourceFault s.cfg s.arg1.toNat s.arg2.toNat = none := by
    by_cases hn : s.arg2 = 0#32
    · simp [frameSourceFault, hn]
    · obtain ⟨h1, hfit⟩ := hsrc hn
      rw [frameSourceFault, bufferFault_eq_none h1 hfit, ite_self]
  have hrange : ¬ inRange s.cfg s.arg0.toNat out.length ↔ s.cfg.bramSize < s.arg0.toNat + out.length := by
    have := BitVec.toNat_pos_of_ne_zero ha
    omega
  subst hp hout
  simp only [exec, execPktFrame, if_neg ha, hfault, hrange, raise, finish]
  rfl

end Sys2Proof.Machine
end

