-- ==== Sys2Proof/Proofs/PacketParser.lean ====
section
/-! SUPPORT. The parser row by row, what a received byte changes, and how a stream of bytes is fed (42_packet.md R167 to R179). -/

namespace Sys2Proof.Machine

/-! ### Which row a byte takes (R168) -/

/-- A literal byte: one after an ESCAPE, or one that is neither FLAG nor ESCAPE (R168). -/
def PktState.Literal (p : PktState) (b : Byte) : Prop := p.esc = true ∨ (b ≠ 0x7E#8 ∧ b ≠ 0x7D#8)

section Rows

variable {p : PktState} {b : Byte}

theorem rxStep_idle (h : p.rx = .idle) (b : Byte) :
    rxStep p b = if b = 0x7E#8 then startFrame p else .quiet p := if_pos h

theorem rxStep_flag (h : p.rx ≠ .idle) (hesc : p.esc = false) : rxStep p 0x7E#8 = rxFlag p := by
  rw [rxStep, if_neg h]
  exact if_pos ⟨hesc, rfl⟩

theorem rxStep_escape (h : p.rx ≠ .idle) (hesc : p.esc = false) : rxStep p 0x7D#8 = rxEscape p := by
  rw [rxStep, if_neg h, if_neg (by simp [Config.flag])]
  exact if_pos ⟨hesc, rfl⟩

theorem rxStep_literal (h : p.rx ≠ .idle) (hb : p.Literal b) : rxStep p b = rxLiteral { p with esc := false } b := by
  have hflag : ¬ (p.esc = false ∧ b = Config.flag) := by
    rintro ⟨hesc, rfl⟩
    simp [PktState.Literal, hesc, Config.flag] at hb
  have hescape : ¬ (p.esc = false ∧ b = Config.escape) := by
    rintro ⟨hesc, rfl⟩
    simp [PktState.Literal, hesc, Config.escape] at hb
  rw [rxStep, if_neg h, if_neg hflag, if_neg hescape]

/-! ### FLAG outside IDLE (R170) -/

theorem rxFlag_waitAddr (h : p.rx = .waitAddr) : rxFlag p = .quiet p := if_pos h

theorem rxFlag_interrupted (h : p.rx ≠ .waitAddr) :
    rxFlag p = { startFrame p with event := some (evPartial .pktInterrupted p) } := if_neg h

/-! ### ESCAPE outside IDLE (R171) -/

/-- Counting off one wire byte of the body, which may be the last (R171, R175). -/
theorem countDown_eq (h : p.rx = .inBody) : p.countDown =
    { p with remaining := p.remaining - 1#16, rx := if p.remaining = 1#16 then .waitFcsHi else .inBody } := by
  have hlast : p.remaining - 1#16 = 0#16 ↔ p.remaining = 1#16 := sub_eq_zero
  simp only [PktState.countDown, hlast, h]

theorem rxEscape_header (h : p.rx = .waitAddr ∨ p.rx = .waitControl ∨ p.rx = .waitLenHi ∨ p.rx = .waitLenLo) :
    rxEscape p = .quiet { p with esc := true, running := fcsStep p.running 0x7D#8 } := by
  rcases h with h | h | h | h <;> simp only [rxEscape, h] <;> rfl

theorem rxEscape_inBody (h : p.rx = .inBody) : rxEscape p = .quiet { p with
    esc := true, running := fcsStep p.running 0x7D#8, remaining := p.remaining - 1#16
    rx := if p.remaining = 1#16 then .waitFcsHi else .inBody } := by
  have hcount := countDown_eq (p := { p with esc := true, running := fcsStep p.running 0x7D#8 }) h
  simpa only [rxEscape, PktState.fold, Config.escape, h] using congrArg RxStep.quiet hcount

theorem rxEscape_fcs (h : p.rx = .waitFcsHi ∨ p.rx = .waitFcsLo) : rxEscape p = .quiet { p with esc := true } := by
  rcases h with h | h <;> simp only [rxEscape, h]

/-- Outside IDLE an ESCAPE stores nothing, emits nothing and makes the next byte a literal. -/
theorem rxEscape_quiet (h : p.rx ≠ .idle) : rxEscape p = .quiet (rxEscape p).pkt ∧ (rxEscape p).pkt.esc = true := by
  cases hrx : p.rx
  case idle => exact absurd hrx h
  case waitAddr | waitControl | waitLenHi | waitLenLo => rw [rxEscape_header (by simp [hrx])]; exact ⟨rfl, rfl⟩
  case inBody => rw [rxEscape_inBody hrx]; exact ⟨rfl, rfl⟩
  case waitFcsHi | waitFcsLo => rw [rxEscape_fcs (by simp [hrx])]; exact ⟨rfl, rfl⟩

/-! ### Literal bytes (R173 to R177) -/

theorem rxStep_waitAddr (h : p.rx = .waitAddr) (hb : p.Literal b) : rxStep p b = ⟨{ p with
    esc := false, running := fcsStep p.running b, cursor := p.cursor + 1#32, addr := b, rx := .waitControl },
    some (p.rxbuf.toNat + p.cursor.toNat, b), none⟩ := by
  rw [rxStep_literal (by simp [h]) hb]
  simp only [rxLiteral, h]
  rfl

theorem rxStep_waitControl (h : p.rx = .waitControl) (hb : p.Literal b) : rxStep p b = ⟨{ p with
    esc := false, running := fcsStep p.running b, cursor := p.cursor + 1#32, ctrl := b, rx := .waitLenHi },
    some (p.rxbuf.toNat + p.cursor.toNat, b), none⟩ := by
  rw [rxStep_literal (by simp [h]) hb]
  simp only [rxLiteral, h]
  rfl

theorem rxStep_waitLenHi (h : p.rx = .waitLenHi) (hb : p.Literal b) : rxStep p b = ⟨{ p with
    esc := false, running := fcsStep p.running b, cursor := p.cursor + 1#32
    declared := b.setWidth 16 <<< 8, rx := .waitLenLo },
    some (p.rxbuf.toNat + p.cursor.toNat, b), none⟩ := by
  rw [rxStep_literal (by simp [h]) hb]
  simp only [rxLiteral, h]
  rfl

/-- The low length byte is stored, then the length is judged (R174). -/
theorem rxStep_waitLenLo (h : p.rx = .waitLenLo) (hb : p.Literal b) : rxStep p b = rxLength ⟨{ p with
    esc := false, running := fcsStep p.running b, cursor := p.cursor + 1#32
    declared := p.declared ||| b.setWidth 16 },
    some (p.rxbuf.toNat + p.cursor.toNat, b), none⟩ := by
  rw [rxStep_literal (by simp [h]) hb]
  simp only [rxLiteral, h]
  rfl

theorem rxStep_inBody (h : p.rx = .inBody) (hb : p.Literal b) : rxStep p b = ⟨{ p with
    esc := false, running := fcsStep p.running b, cursor := p.cursor + 1#32
    remaining := p.remaining - 1#16, rx := if p.remaining = 1#16 then .waitFcsHi else .inBody },
    some (p.rxbuf.toNat + p.cursor.toNat, b), none⟩ := by
  have hcount := countDown_eq (p := { p with esc := false, running := fcsStep p.running b }) h
  rw [rxStep_literal (by simp [h]) hb]
  simpa only [rxLiteral, PktState.fold, storeByte, h] using congrArg (storeByte p b) hcount

theorem rxStep_waitFcsHi (h : p.rx = .waitFcsHi) (hb : p.Literal b) : rxStep p b =
    ⟨{ p with esc := false, received := b.setWidth 16 <<< 8, rx := .waitFcsLo }, none, none⟩ := by
  rw [rxStep_literal (by simp [h]) hb]
  simp only [rxLiteral, h]
  rfl

theorem rxStep_waitFcsLo (h : p.rx = .waitFcsLo) (hb : p.Literal b) : rxStep p b =
    ⟨{ p with esc := false, received := p.received ||| b.setWidth 16, rx := .idle }, none,
      some (mkEvent .pktComplete p.addr p.ctrl (decide (p.received ||| b.setWidth 16 = p.running))
        (p.rxbuf + 5#32) (p.cursor - 5#32))⟩ := by
  rw [rxStep_literal (by simp [h]) hb]
  simp only [rxLiteral, h]
  rfl

end Rows

/-! ### A received byte (R167) -/

section Byte

variable {s : State} {b : Byte} {p : PktState}

theorem rxByte_of_quiet (h : rxStep s.pkt b = ⟨p, none, none⟩) : s.rxByte b = s.setPkt p := by
  simp only [State.rxByte, h]

theorem rxByte_of_store {a : Nat} {v : Byte} (h : rxStep s.pkt b = ⟨p, some (a, v), none⟩) :
    s.rxByte b = (s.writeBram a v).setPkt p := by
  simp only [State.rxByte, h]

theorem rxByte_of_event {e : Event} (h : rxStep s.pkt b = ⟨p, none, some e⟩) : s.rxByte b = (s.emit e).setPkt p := by
  simp only [State.rxByte, h]

/-- A received byte changes BRAM, the parser and the event queue, the last two as its row says. -/
theorem rxByte_eq (s : State) (b : Byte) : s.rxByte b = { s with
    bram := (s.rxByte b).bram, pkt := (rxStep s.pkt b).pkt
    evq := evqAfter s (rxStep s.pkt b).event.toList, evqOvf := ovfAfter s (rxStep s.pkt b).event.toList } := by
  obtain ⟨hq, hf⟩ := rxByte_emitted s b
  obtain ⟨m, q, f, h⟩ := s.rxByte_changes b
  rw [← hq, ← hf, h]
  rfl

/-- BRAM after a received byte: what its row stores, if anything. -/
theorem rxByte_bram (s : State) (b : Byte) :
    (s.rxByte b).bram = ((rxStep s.pkt b).store.elim s fun w => s.writeBram w.1 w.2).bram := by
  cases hs : (rxStep s.pkt b).store <;> cases he : (rxStep s.pkt b).event <;>
    simp only [State.rxByte, hs, he, Option.elim, State.setPkt_bram, State.emit_bram]

/-- PKT_RX_BYTE of an initialised parser (R167). -/
theorem exec_pktRxbyte_of_init (h : s.pkt.init = true) :
    exec .pktRxbyte s = .next ((s.rxByte (field8 s.arg0)).setStatus .okay) := by
  simp only [exec, execPktRxbyte, h]
  rfl

end Byte

/-! ### Bytes of BRAM that stay -/

/-- A byte of BRAM depends on BRAM and its size only. -/
theorem readBram_congr {t u : State} (hb : t.bram = u.bram) (hc : t.cfg = u.cfg) (x : Nat) :
    t.readBram x = u.readBram x := by
  unfold State.readBram
  rw [hb, hc]

theorem readBram_setPkt (s : State) (p : PktState) (x : Nat) : (s.setPkt p).readBram x = s.readBram x :=
  readBram_congr rfl rfl x

theorem readBram_setEvq (s : State) (q : List Event) (x : Nat) : (s.setEvq q).readBram x = s.readBram x :=
  readBram_congr rfl rfl x

theorem readBram_writeBram_ne (s : State) {a x : Nat} (b : Byte) (h : x ≠ a) :
    (s.writeBram a b).readBram x = s.readBram x :=
  s.readBram_memWrite_outside a x [b] (by simp only [List.length_singleton]; omega)

/-- A received byte leaves every byte but the one it stores. -/
theorem readBram_rxByte_outside {s : State} {b : Byte} {x : Nat} (h : ∀ w ∈ (rxStep s.pkt b).store, x ≠ w.1) :
    (s.rxByte b).readBram x = s.readBram x := by
  have hbram := rxByte_bram s b
  cases hs : (rxStep s.pkt b).store with
  | none =>
    rw [hs] at hbram
    exact readBram_congr hbram (s.rxByte_cfg b) x
  | some w =>
    rw [hs] at hbram
    have hcfg : (s.rxByte b).cfg = (s.writeBram w.1 w.2).cfg := by simp
    exact (readBram_congr hbram hcfg x).trans (readBram_writeBram_ne s w.2 (h w hs))

/-- Received bytes leave every byte outside the receive buffer (R179). -/
theorem readBram_foldl_rxByte_outside {s : State} (hinv : s.pkt.Inv s.cfg) (hinit : s.pkt.init = true) {x : Nat}
    (hx : ¬ (s.pkt.rxbuf.toNat ≤ x ∧ x < s.pkt.rxbuf.toNat + s.pkt.rxcap.toNat)) (bs : List Byte) :
    (bs.foldl State.rxByte s).readBram x = s.readBram x := by
  induction bs generalizing s with
  | nil => rfl
  | cons b bs ih =>
    obtain ⟨hinv', hinit', hbuf, hcap, hstore⟩ := rxStep_inv hinv hinit b
    rw [List.foldl_cons, ih (by simpa using hinv') hinit' (by simpa [hbuf, hcap] using hx)]
    refine readBram_rxByte_outside fun w hw heq => hx ?_
    exact heq ▸ hstore w hw

/-! ### A stream (R178) -/

/-- The parser consumes the first k of the bytes: none before the last of them emits an event, and only an event or the end of the bytes stops it. -/
structure StreamStops (s : State) (bs : List Byte) (k : Nat) : Prop where
  le : k ≤ bs.length
  pos : bs ≠ [] → 1 ≤ k
  quiet : ∀ (j : Nat) (b : Byte), j + 1 < k → bs[j]? = some b →
    (rxStep ((bs.take j).foldl State.rxByte s).pkt b).event = none
  stopped : k < bs.length → ∃ b, bs[k - 1]? = some b ∧
    (rxStep ((bs.take (k - 1)).foldl State.rxByte s).pkt b).event ≠ none

/-- A first byte that emits an event ends the stream. -/
theorem StreamStops.of_event {s : State} {b : Byte} (bs : List Byte) (h : (rxStep s.pkt b).event ≠ none) :
    StreamStops s (b :: bs) 1 where
  le := by simp
  pos _ := le_rfl
  quiet j _ hj _ := by omega
  stopped _ := ⟨b, rfl, h⟩

/-- After a quiet first byte the rest of the stream decides. -/
theorem StreamStops.cons {s : State} {b : Byte} {bs : List Byte} {k : Nat} (h : (rxStep s.pkt b).event = none)
    (hk : StreamStops (s.rxByte b) bs k) : StreamStops s (b :: bs) (k + 1) where
  le := by simpa using hk.le
  pos _ := by omega
  quiet j c hj hc := by
    cases j with
    | zero =>
      obtain rfl : b = c := by simpa using hc
      exact h
    | succ j => exact hk.quiet j c (by omega) hc
  stopped hlt := by
    have hlt : k < bs.length := by simpa using hlt
    have hpos := hk.pos (List.ne_nil_of_length_pos (by omega))
    obtain ⟨c, hc, he⟩ := hk.stopped hlt
    obtain ⟨j, rfl⟩ := Nat.exists_eq_add_of_le' hpos
    exact ⟨c, hc, he⟩

/-- A stream feeds the bytes up to its first event, and its count is that of the bytes fed. -/
theorem rxStream_stops (s : State) (bs : List Byte) :
    StreamStops s bs (s.rxStream bs).2 ∧ (s.rxStream bs).1 = (bs.take (s.rxStream bs).2).foldl State.rxByte s := by
  induction bs generalizing s with
  | nil => exact ⟨⟨le_rfl, by simp, by simp, by simp⟩, rfl⟩
  | cons b bs ih =>
    by_cases h : (rxStep s.pkt b).event = none
    · obtain ⟨hk, hfold⟩ := ih (s.rxByte b)
      simp only [State.rxStream, h]
      exact ⟨hk.cons h, hfold⟩
    · simp only [State.rxStream, Option.isSome_iff_ne_none.mpr h]
      exact ⟨.of_event bs h, rfl⟩

/-- PKT_RX_STREAM of a buffer in range. -/
theorem exec_pktRxstream_of_buffer {s : State} (hinit : s.pkt.init = true) (hn : s.arg1 ≠ 0#32) (ha : s.arg0 ≠ 0#32)
    (hfit : s.arg0.toNat + s.arg1.toNat ≤ s.cfg.bramSize) : exec .pktRxstream s =
      .next (((s.rxStream (s.memRead s.arg0.toNat s.arg1.toNat)).1.setRes0
        (BitVec.ofNat 32 (s.rxStream (s.memRead s.arg0.toNat s.arg1.toNat)).2)).setStatus .okay) := by
  have hn' : s.arg1.toNat ≠ 0 := (BitVec.toNat_pos_of_ne_zero hn).ne'
  simp only [exec, execPktRxstream, hinit, if_neg hn', bufferFault_eq_none ha hfit, finish]
  rfl

end Sys2Proof.Machine
end

