-- ==== Sys2Proof/Proofs/PacketRoundTrip.lean ====
section
/-! SUPPORT. A frame fed to the parser, part by part: each part as one equation between states (42_packet.md R180, R181). -/

namespace Sys2Proof.Machine

/-! ### Writes of different parts of the state -/

theorem setPkt_setPkt (s : State) (p q : PktState) : (s.setPkt p).setPkt q = s.setPkt q := rfl

/-- A store does not look at the parser. -/
theorem setPkt_writeBram (s : State) (p : PktState) (a : Nat) (b : Byte) :
    (s.setPkt p).writeBram a b = (s.writeBram a b).setPkt p := by
  by_cases h : a < s.cfg.bramSize
  · rw [State.writeBram, State.writeBram, if_pos h]
    exact if_pos h
  · rw [State.writeBram, State.writeBram, if_neg h]
    exact if_neg h

theorem setPkt_memWrite (s : State) (p : PktState) (a : Nat) (bs : List Byte) :
    (s.setPkt p).memWrite a bs = (s.memWrite a bs).setPkt p := by
  induction bs generalizing s a with
  | nil => rfl
  | cons b bs ih =>
    rw [State.memWrite, setPkt_writeBram, ih]
    rfl

/-- An Emit does not look at the parser. -/
theorem setPkt_emit (s : State) (p : PktState) (e : Event) : (s.setPkt p).emit e = (s.emit e).setPkt p := by
  rw [emit_eq, emit_eq]
  rfl

theorem emit_of_room {s : State} (h : s.evq.length < s.cfg.evqDepth) (e : Event) :
    s.emit e = s.setEvq (s.evq ++ [e]) := if_pos h

/-- Two runs of stores, the second right after the first, are one. -/
theorem memWrite_append (s : State) (a : Nat) (bs cs : List Byte) :
    s.memWrite a (bs ++ cs) = (s.memWrite a bs).memWrite (a + bs.length) cs := by
  induction bs generalizing s a with
  | nil => rfl
  | cons b bs ih =>
    rw [List.cons_append, State.memWrite, ih, State.memWrite, List.length_cons, Nat.add_assoc, Nat.add_comm 1]

/-! ### One byte of a frame as it stands on the wire (R164, R168) -/

/-- The parser when the byte `b` of a frame is due: past the ESCAPE before it, where it has one. -/
def PktState.beforeLiteral (p : PktState) (b : Byte) : PktState := if needsEscape b then (rxEscape p).pkt else p

/-- The running FCS when the byte `b` is due, the ESCAPE before it folded. -/
def fcsBeforeLiteral (crc : BitVec 16) (b : Byte) : BitVec 16 := if needsEscape b then fcsStep crc 0x7D#8 else crc

/-- Folding the literal then gives the FCS of the wire bytes (R181). -/
theorem fcs_esc (crc : BitVec 16) (b : Byte) : fcs crc (esc b) = fcsStep (fcsBeforeLiteral crc b) b := by
  cases h : needsEscape b
  · rw [esc_of_plain h, fcsBeforeLiteral, h]
    rfl
  · rw [esc_of_needsEscape h, fcsBeforeLiteral, h]
    rfl

section Parts

variable {s : State} {p : PktState} {b : Byte}

theorem beforeLiteral_literal (h : p.rx ≠ .idle) (b : Byte) : (p.beforeLiteral b).Literal b := by
  cases hb : needsEscape b
  · exact .inr (by simpa [needsEscape] using hb)
  · exact .inl (by simpa [PktState.beforeLiteral, hb] using (rxEscape_quiet h).2)

/-- The ESCAPE before a byte moves the parser only. -/
theorem foldl_rxByte_esc (h : s.pkt.rx ≠ .idle) (hesc : s.pkt.esc = false) (b : Byte) :
    (esc b).foldl State.rxByte s = (s.setPkt (s.pkt.beforeLiteral b)).rxByte b := by
  cases hb : needsEscape b
  · simp only [esc_of_plain hb, PktState.beforeLiteral, hb]
    rfl
  · have hquiet := rxByte_of_quiet ((rxStep_escape h hesc).trans (rxEscape_quiet h).1)
    simp only [esc_of_needsEscape hb, PktState.beforeLiteral, hb, List.foldl_cons, List.foldl_nil]
    rw [Config.escape, hquiet]
    rfl

/-- A byte of a frame, escaped or not, is a literal to the parser past the ESCAPE before it. -/
theorem foldl_esc_eq (h : s.pkt.rx ≠ .idle) (hesc : s.pkt.esc = false) (hp : s.pkt.beforeLiteral b = p) :
    p.Literal b ∧ (esc b).foldl State.rxByte s = (s.setPkt p).rxByte b :=
  hp ▸ ⟨beforeLiteral_literal h b, foldl_rxByte_esc h hesc b⟩

theorem foldl_esc_of_store {q : PktState} {a : Nat} (h : s.pkt.rx ≠ .idle) (hesc : s.pkt.esc = false)
    (hp : s.pkt.beforeLiteral b = p) (hrow : p.Literal b → rxStep p b = ⟨q, some (a, b), none⟩) :
    (esc b).foldl State.rxByte s = (s.writeBram a b).setPkt q := by
  obtain ⟨hlit, hfold⟩ := foldl_esc_eq h hesc hp
  rw [hfold, rxByte_of_store (hrow hlit), setPkt_writeBram, setPkt_setPkt]

theorem beforeLiteral_header (h : p.rx = .waitAddr ∨ p.rx = .waitControl ∨ p.rx = .waitLenHi ∨ p.rx = .waitLenLo)
    (hesc : p.esc = false) (b : Byte) :
    p.beforeLiteral b = { p with esc := needsEscape b, running := fcsBeforeLiteral p.running b } := by
  rw [PktState.beforeLiteral, fcsBeforeLiteral, rxEscape_header h]
  cases needsEscape b
  · exact congrArg (fun e => { p with esc := e }) hesc
  · rfl

/-- The ESCAPE in the body is counted as one of its n + 2 bytes, so it is not the last (R171). -/
theorem beforeLiteral_inBody (h : p.rx = .inBody) (hesc : p.esc = false) {n : Nat} (hn : n + (esc b).length ≤ 1016)
    (hrem : p.remaining = BitVec.ofNat 16 (n + (esc b).length)) :
    p.beforeLiteral b = { p with
      esc := needsEscape b, running := fcsBeforeLiteral p.running b, remaining := BitVec.ofNat 16 (n + 1) } := by
  rw [PktState.beforeLiteral, fcsBeforeLiteral, rxEscape_inBody h]
  cases hb : needsEscape b
  · rw [esc_of_plain hb] at hrem
    exact congrArg₂ (fun e n => { p with esc := e, remaining := n }) hesc hrem
  · rw [esc_of_needsEscape hb] at hrem hn
    simp only [List.length_cons, List.length_nil] at hrem hn
    have hleft : p.remaining - 1#16 = BitVec.ofNat 16 (n + 1) := by
      rw [hrem]
      bv_omega
    have hmore : p.remaining ≠ 1#16 := by
      rw [hrem]
      bv_omega
    rw [hleft, if_neg hmore, ← h]
    rfl

theorem beforeLiteral_fcs (h : p.rx = .waitFcsHi ∨ p.rx = .waitFcsLo) (hesc : p.esc = false) (b : Byte) :
    p.beforeLiteral b = { p with esc := needsEscape b } := by
  rw [PktState.beforeLiteral, rxEscape_fcs h]
  cases needsEscape b
  · exact congrArg (fun e => { p with esc := e }) hesc
  · rfl

/-! ### The header (R173, R174) -/

theorem foldl_esc_waitAddr (h : s.pkt.rx = .waitAddr) (hesc : s.pkt.esc = false) :
    (esc b).foldl State.rxByte s = (s.writeBram (s.pkt.rxbuf.toNat + s.pkt.cursor.toNat) b).setPkt { s.pkt with
      esc := false, running := fcs s.pkt.running (esc b), cursor := s.pkt.cursor + 1#32, addr := b
      rx := .waitControl } := by
  rw [fcs_esc]
  exact foldl_esc_of_store (by simp [h]) hesc (beforeLiteral_header (by simp [h]) hesc b) (rxStep_waitAddr h)

theorem foldl_esc_waitControl (h : s.pkt.rx = .waitControl) (hesc : s.pkt.esc = false) :
    (esc b).foldl State.rxByte s = (s.writeBram (s.pkt.rxbuf.toNat + s.pkt.cursor.toNat) b).setPkt { s.pkt with
      esc := false, running := fcs s.pkt.running (esc b), cursor := s.pkt.cursor + 1#32, ctrl := b
      rx := .waitLenHi } := by
  rw [fcs_esc]
  exact foldl_esc_of_store (by simp [h]) hesc (beforeLiteral_header (by simp [h]) hesc b) (rxStep_waitControl h)

theorem foldl_esc_waitLenHi (h : s.pkt.rx = .waitLenHi) (hesc : s.pkt.esc = false) :
    (esc b).foldl State.rxByte s = (s.writeBram (s.pkt.rxbuf.toNat + s.pkt.cursor.toNat) b).setPkt { s.pkt with
      esc := false, running := fcs s.pkt.running (esc b), cursor := s.pkt.cursor + 1#32
      declared := b.setWidth 16 <<< 8, rx := .waitLenLo } := by
  rw [fcs_esc]
  exact foldl_esc_of_store (by simp [h]) hesc (beforeLiteral_header (by simp [h]) hesc b) (rxStep_waitLenHi h)

/-- The parser's state when n wire bytes of the body are to come. -/
def bodyPhase (n : Nat) : RxState := if n = 0 then .waitFcsHi else .inBody

/-- A length that fits opens the body, or the FCS where the body is empty (R174). -/
theorem rxLength_of_fits {r : RxStep} {n : Nat} (hn : r.pkt.declared = BitVec.ofNat 16 n)
    (hfits : n ≤ rxLimit r.pkt) : rxLength r = ⟨{ r.pkt with
      remaining := if n = 0 then r.pkt.remaining else BitVec.ofNat 16 n, rx := bodyPhase n }, r.store, r.event⟩ := by
  have hmax : n ≤ 1016 := hfits.trans (Nat.min_le_left _ _)
  have hnat : r.pkt.declared.toNat = n := by
    rw [hn, BitVec.toNat_ofNat]
    omega
  obtain ⟨hlong, -⟩ | ⟨-, hzero, hr⟩ | ⟨-, hzero, hr⟩ := rxLength_cases r
  · omega
  · have hn0 : n = 0 := by simpa [hzero] using hnat.symm
    rw [hr, bodyPhase, if_pos hn0, if_pos hn0]
  · have hn0 : n ≠ 0 := fun h => hzero (by rw [hn, h])
    rw [hr, bodyPhase, if_neg hn0, if_neg hn0, hn]

theorem foldl_esc_waitLenLo (h : s.pkt.rx = .waitLenLo) (hesc : s.pkt.esc = false) {n : Nat}
    (hn : s.pkt.declared ||| b.setWidth 16 = BitVec.ofNat 16 n) (hfits : n ≤ rxLimit s.pkt) :
    (esc b).foldl State.rxByte s = (s.writeBram (s.pkt.rxbuf.toNat + s.pkt.cursor.toNat) b).setPkt { s.pkt with
      esc := false, running := fcs s.pkt.running (esc b), cursor := s.pkt.cursor + 1#32
      declared := BitVec.ofNat 16 n, remaining := if n = 0 then s.pkt.remaining else BitVec.ofNat 16 n
      rx := bodyPhase n } := by
  rw [fcs_esc]
  refine foldl_esc_of_store (by simp [h]) hesc (beforeLiteral_header (by simp [h]) hesc b) fun hb => ?_
  rw [rxStep_waitLenLo (by exact h) hb, rxLength_of_fits (by exact hn) (by exact hfits)]
  simp only [hn]

/-- The header of a frame whose escaped payload has n bytes. -/
theorem foldl_header (h : s.pkt.rx = .waitAddr) (hesc : s.pkt.esc = false) (hcur : s.pkt.cursor = 1#32) {n : Nat}
    (hfits : n ≤ rxLimit s.pkt) (addr ctrl : Byte) {w : BitVec 16} (hw : w = BitVec.ofNat 16 n) :
    (escAll [addr, ctrl, hiByte w, loByte w]).foldl State.rxByte s =
      (s.memWrite (s.pkt.rxbuf.toNat + 1) [addr, ctrl, hiByte w, loByte w]).setPkt { s.pkt with
        esc := false, running := fcs s.pkt.running (escAll [addr, ctrl, hiByte w, loByte w]), cursor := 5#32
        addr := addr, ctrl := ctrl, declared := w
        remaining := if n = 0 then s.pkt.remaining else w, rx := bodyPhase n } := by
  simp only [escAll, List.foldl_append, fcs_append]
  rw [foldl_esc_waitAddr h hesc, foldl_esc_waitControl (b := ctrl), foldl_esc_waitLenHi (b := hiByte w),
    foldl_esc_waitLenLo (b := loByte w) (n := n)]
  · simp [hcur, setPkt_writeBram, setPkt_setPkt, State.memWrite, fcs, ← hw]
  case hn => exact (hiByte_or_loByte w).trans hw
  case hfits => exact hfits
  all_goals rfl

/-! ### The body (R175) -/

/-- One byte of the payload, after which n wire bytes of the body are to come. -/
theorem foldl_esc_inBody (h : s.pkt.rx = .inBody) (hesc : s.pkt.esc = false) {n : Nat}
    (hn : n + (esc b).length ≤ 1016) (hrem : s.pkt.remaining = BitVec.ofNat 16 (n + (esc b).length)) :
    (esc b).foldl State.rxByte s = (s.writeBram (s.pkt.rxbuf.toNat + s.pkt.cursor.toNat) b).setPkt { s.pkt with
      esc := false, running := fcs s.pkt.running (esc b), cursor := s.pkt.cursor + 1#32
      remaining := BitVec.ofNat 16 n, rx := bodyPhase n } := by
  have hleft : BitVec.ofNat 16 (n + 1) - 1#16 = BitVec.ofNat 16 n := by bv_omega
  have hlast : BitVec.ofNat 16 (n + 1) = 1#16 ↔ n = 0 := by
    rw [← BitVec.toNat_inj, BitVec.toNat_ofNat, BitVec.toNat_ofNat]
    omega
  rw [fcs_esc]
  refine foldl_esc_of_store (by simp [h]) hesc (beforeLiteral_inBody h hesc hn hrem) fun hb => ?_
  rw [rxStep_inBody (by exact h) hb]
  simp only [hleft, hlast]
  rfl

/-- The body of a frame: the payload is stored unescaped, and every wire byte is folded and counted off (R175, R181). -/
theorem foldl_body (payload : List Byte) (h : s.pkt.rx = bodyPhase (escAll payload).length) (hesc : s.pkt.esc = false)
    (hlen : (escAll payload).length ≤ 1016)
    (hrem : (escAll payload).length ≠ 0 → s.pkt.remaining = BitVec.ofNat 16 (escAll payload).length)
    (hcur : s.pkt.cursor.toNat + payload.length < 2 ^ 32) :
    ∃ left, (escAll payload).foldl State.rxByte s =
      (s.memWrite (s.pkt.rxbuf.toNat + s.pkt.cursor.toNat) payload).setPkt { s.pkt with
        esc := false, running := fcs s.pkt.running (escAll payload)
        cursor := s.pkt.cursor + BitVec.ofNat 32 payload.length, remaining := left, rx := .waitFcsHi } := by
  induction payload generalizing s with
  | nil =>
    have hrx : s.pkt.rx = .waitFcsHi := h
    have hpkt : s.pkt = { s.pkt with
        esc := false, cursor := s.pkt.cursor + 0#32, remaining := s.pkt.remaining, rx := .waitFcsHi } := by
      rw [BitVec.add_zero, ← hesc, ← hrx]
    exact ⟨s.pkt.remaining, congrArg s.setPkt hpkt⟩
  | cons b bs ih =>
    have hsplit : (escAll (b :: bs)).length = (escAll bs).length + (esc b).length := by
      rw [escAll, List.length_append, Nat.add_comm]
    have hpos := length_esc_pos b
    rw [List.length_cons] at hcur
    have hbody : s.pkt.rx = .inBody := by rw [h, bodyPhase, if_neg (by omega)]
    have hbyte := foldl_esc_inBody (b := b) hbody hesc (hsplit ▸ hlen) (hsplit ▸ hrem (by omega))
    have hnext : (s.pkt.cursor + 1#32).toNat = s.pkt.cursor.toNat + 1 := by
      rw [BitVec.toNat_add]
      exact Nat.mod_eq_of_lt (by simp only [BitVec.toNat_ofNat]; omega)
    have hcount : s.pkt.cursor + 1#32 + BitVec.ofNat 32 bs.length =
        s.pkt.cursor + BitVec.ofNat 32 (bs.length + 1) := by
      rw [BitVec.ofNat_add, BitVec.add_assoc, BitVec.add_comm 1#32]
    obtain ⟨left, hrest⟩ := ih (s := (esc b).foldl State.rxByte s) (by rw [hbyte]; rfl) (by rw [hbyte]; rfl)
      (by omega) (fun _ => by rw [hbyte]; rfl) (by rw [hbyte, State.setPkt_pkt, hnext]; omega)
    refine ⟨left, ?_⟩
    rw [escAll, List.foldl_append, hrest, hbyte, setPkt_memWrite, setPkt_setPkt]
    simp only [State.setPkt_pkt, hnext, hcount, fcs_append, State.memWrite, List.length_cons, Nat.add_assoc]

/-! ### The FCS (R176, R177) -/

theorem foldl_esc_waitFcsHi (h : s.pkt.rx = .waitFcsHi) (hesc : s.pkt.esc = false) :
    (esc b).foldl State.rxByte s =
      s.setPkt { s.pkt with esc := false, received := b.setWidth 16 <<< 8, rx := .waitFcsLo } := by
  obtain ⟨hlit, hfold⟩ := foldl_esc_eq (by simp [h]) hesc (beforeLiteral_fcs (.inl h) hesc b)
  rw [hfold, rxByte_of_quiet (rxStep_waitFcsHi (by exact h) hlit)]
  rfl

theorem foldl_esc_waitFcsLo (h : s.pkt.rx = .waitFcsLo) (hesc : s.pkt.esc = false) :
    (esc b).foldl State.rxByte s =
      (s.emit (mkEvent .pktComplete s.pkt.addr s.pkt.ctrl (decide (s.pkt.received ||| b.setWidth 16 = s.pkt.running))
        (s.pkt.rxbuf + 5#32) (s.pkt.cursor - 5#32))).setPkt
      { s.pkt with esc := false, received := s.pkt.received ||| b.setWidth 16, rx := .idle } := by
  obtain ⟨hlit, hfold⟩ := foldl_esc_eq (by simp [h]) hesc (beforeLiteral_fcs (.inr h) hesc b)
  rw [hfold, rxByte_of_event (rxStep_waitFcsLo (by exact h) hlit), setPkt_emit, setPkt_setPkt]
  rfl

/-- An FCS that is the running one completes the frame with fcs_match 1. -/
theorem foldl_fcs (h : s.pkt.rx = .waitFcsHi) (hesc : s.pkt.esc = false) {c : BitVec 16} (hc : s.pkt.running = c) :
    (escAll [hiByte c, loByte c]).foldl State.rxByte s =
      (s.emit (mkEvent .pktComplete s.pkt.addr s.pkt.ctrl true (s.pkt.rxbuf + 5#32) (s.pkt.cursor - 5#32))).setPkt
      { s.pkt with esc := false, received := c, rx := .idle } := by
  simp only [escAll, List.foldl_append, List.append_nil]
  rw [foldl_esc_waitFcsHi h hesc, foldl_esc_waitFcsLo rfl rfl]
  simp only [State.setPkt_pkt, hiByte_or_loByte, hc, decide_true, setPkt_emit, setPkt_setPkt]

/-! ### A frame (R180) -/

/-- Everything between the FLAGs of a frame: the header and the payload are stored, PKT_COMPLETE is emitted, and the parser is in IDLE. -/
theorem foldl_frameInterior (h : s.pkt.rx = .waitAddr) (hesc : s.pkt.esc = false) (hcur : s.pkt.cursor = 1#32)
    (hrun : s.pkt.running = 0xFFFF#16) (addr ctrl : Byte) {payload : List Byte} {w c : BitVec 16}
    (hfits : (escAll payload).length ≤ rxLimit s.pkt) (hw : w = BitVec.ofNat 16 (escAll payload).length)
    (hc : c = fcs 0xFFFF#16 (frameBody addr ctrl (escAll payload))) :
    ∃ q : PktState,
      (escAll [addr, ctrl, hiByte w, loByte w] ++ escAll payload ++ escAll [hiByte c, loByte c]).foldl State.rxByte s =
        ((s.memWrite (s.pkt.rxbuf.toNat + 1) ([addr, ctrl, hiByte w, loByte w] ++ payload)).emit
          (mkEvent .pktComplete addr ctrl true (s.pkt.rxbuf + 5#32) (BitVec.ofNat 32 payload.length))).setPkt q ∧
      q.rx = .idle ∧ q.rxbuf = s.pkt.rxbuf := by
  have hmax : (escAll payload).length ≤ 1016 := hfits.trans (Nat.min_le_left _ _)
  have hshort := (length_le_length_escAll payload).trans hmax
  have hheader := foldl_header h hesc hcur hfits addr ctrl hw
  obtain ⟨left, hbody⟩ := foldl_body (s := (escAll [addr, ctrl, hiByte w, loByte w]).foldl State.rxByte s) payload
    (by rw [hheader]; rfl) (by rw [hheader]; rfl) hmax
    (fun hne => by rw [hheader]; exact (if_neg hne).trans hw) (by rw [hheader]; show 5 + _ < _; omega)
  have hcrc : fcs (fcs s.pkt.running (escAll [addr, ctrl, hiByte w, loByte w])) (escAll payload) = c := by
    rw [hc, hrun, hw, ← fcs_append, frameBody]
  have hlength : 5#32 + BitVec.ofNat 32 payload.length - 5#32 = BitVec.ofNat 32 payload.length := by
    rw [BitVec.add_comm, BitVec.add_sub_cancel]
  rw [List.foldl_append, List.foldl_append, hbody, hheader]
  simp only [State.setPkt_pkt, setPkt_memWrite, setPkt_setPkt, hcrc]
  rw [foldl_fcs (c := c)]
  · simp only [State.setPkt_pkt, setPkt_emit, setPkt_setPkt, hlength]
    rw [memWrite_append]
    exact ⟨_, rfl, rfl, rfl⟩
  all_goals rfl

end Parts

/-- A FLAG opens a frame in IDLE (R169, R172). -/
theorem rxByte_flag_of_idle (s : State) {p : PktState} (h : p.rx = .idle) :
    (s.setPkt p).rxByte 0x7E#8 = (s.writeBram p.rxbuf.toNat 0x7E#8).setPkt (startFrame p).pkt := by
  have hrow : rxStep p 0x7E#8 = ⟨(startFrame p).pkt, some (p.rxbuf.toNat, 0x7E#8), none⟩ :=
    (rxStep_idle h 0x7E#8).trans (if_pos rfl)
  rw [rxByte_of_store hrow, setPkt_writeBram, setPkt_setPkt]

/-- After the opening FLAG a parser that was in IDLE, or in WAIT_ADDR with no escape pending, awaits the address (R169, R170). -/
theorem rxByte_openingFlag {s : State} (hwf : s.bram.wf) (hinv : s.pkt.Inv s.cfg)
    (h : s.pkt.rx = .idle ∨ (s.pkt.rx = .waitAddr ∧ s.pkt.esc = false)) :
    ∃ (m : Memory) (p : PktState), s.rxByte 0x7E#8 = (s.setBram m).setPkt p ∧ m.wf ∧ p.rx = .waitAddr ∧
      p.esc = false ∧ p.cursor = 1#32 ∧ p.running = 0xFFFF#16 ∧ p.rxbuf = s.pkt.rxbuf ∧ p.rxcap = s.pkt.rxcap := by
  rcases h with h | ⟨h, hesc⟩
  · obtain ⟨m, hm⟩ := s.writeBram_changes s.pkt.rxbuf.toNat 0x7E#8
    have hmwf : m.wf := by simpa [hm] using s.writeBram_wf hwf s.pkt.rxbuf.toNat 0x7E#8
    have hflag := rxByte_flag_of_idle s h
    rw [hm] at hflag
    exact ⟨m, (startFrame s.pkt).pkt, hflag, hmwf, rfl, rfl, rfl, rfl, rfl, rfl⟩
  · obtain ⟨-, -, -, -, -, hcur, hrun, -⟩ := hinv
    have hflag := rxByte_of_quiet ((rxStep_flag (by simp [h]) hesc).trans (rxFlag_waitAddr h))
    exact ⟨s.bram, s.pkt, hflag, hwf, h, hesc, hcur h, hrun h hesc, rfl, rfl⟩

end Sys2Proof.Machine
end

