-- ==== Sys2Proof/Proofs/Packet.lean ====
section
/-! The statements of the family 42_packet.md. -/

namespace Sys2Proof.Machine

/-- Settles O44: the two lengths, and R162's loop as eight turns. -/
theorem pktFcsResult : Obligations.PktFcsResult := by
  refine ⟨fun s => ⟨fun hn => ?_, fun hn ha hfit => ?_⟩, fun crc x => ?_,
    fun init a b => ⟨rfl, (fcs_append init a b).symm⟩, fun _ _ => rfl⟩
  · rw [exec_pktFcs_of_empty hn, field16_setWidth]
    rfl
  · exact ⟨_, exec_pktFcs_of_buffer hn ha hfit, rfl⟩
  · exact (congrArg Prod.fst (fcsTurn_iterate crc x 8)).symm

/-- Settles O45: past the operand checks the escaped length decides, then the destination. -/
theorem pktFrameResult : Obligations.PktFrameResult := by
  refine ⟨fun _ => rfl, escAll_eq_flatMap, ?_⟩
  intro s payload p body out addr ctrl c hwf ha hsrc hpayload hp haddr hctrl hbody hc hout
  have hframe : out = frameBytes (field8 s.arg3) (fieldHi8 s.arg3) payload := by
    subst hp haddr hctrl hbody hc
    rw [hout, frameBytes, frameBody, hiByte_ofNat, loByte_ofNat]
    rfl
  rw [exec_pktFrame_of_source ha hsrc hpayload hframe, ← hp]
  refine ⟨fun hlong => if_pos hlong, fun hle hover => ?_, fun hle hfit => ?_⟩
  · exact (if_neg (Nat.not_lt.mpr hle)).trans (if_pos hover)
  · obtain ⟨m, hm, hmwf, hstored⟩ := memWrite_leaves hwf s.arg0.toNat out
    rw [if_neg (Nat.not_lt.mpr hle), if_neg (Nat.not_lt.mpr hfit), hm]
    exact ⟨m, rfl, hmwf, hstored⟩

/-- Settles O46: each escaped byte is one byte more, LEN_HI is never one, and five are left. -/
theorem frameLengthBound : Obligations.FrameLengthBound := by
  intro addr ctrl payload w c hw hle hc
  have hlen := length_frameBytes addr ctrl hw hle hc
  have hfive := List.length_filter_le needsEscape [addr, ctrl, BitVec.ofNat 8 w, hiByte c, loByte c]
  refine ⟨hlen, ?_⟩
  simp only [List.length_cons, List.length_nil] at hfive
  omega

/-- Settles O47: a legal buffer passes both checks. -/
theorem pktRxInitResult : Obligations.PktRxInitResult := by
  intro s ha hcap hfit
  have hrange : inRange s.cfg s.arg0.toNat s.arg1.toNat := ⟨(BitVec.toNat_pos_of_ne_zero ha).ne', hfit⟩
  have hbuf : ¬ (s.arg0 = 0#32 ∨ s.arg1.toNat < Config.hdr) := by simp [ha, Config.hdr, hcap]
  simp only [exec, execPktRxinit, if_neg hbuf, if_neg (not_not.mpr hrange)]
  rfl

/-- Settles O48: the row says the parser and the event, and whether a byte is stored. -/
theorem pktRxByteResult : Obligations.PktRxByteResult := by
  rintro s _ hwf hinit rfl
  rw [exec_pktRxbyte_of_init hinit, field8_eq, rxByte_eq, rxByte_bram]
  cases hs : (rxStep s.pkt (s.arg0.setWidth 8)).store with
  | none =>
    refine ⟨s.bram, rfl, hwf, fun _ x => ?_, nofun⟩
    rw [if_neg (by simp only [List.length_nil]; omega)]
  | some w =>
    obtain ⟨m, hm, hmwf, hstored⟩ := memWrite_leaves hwf w.1 [w.2]
    refine ⟨m, ?_, hmwf, nofun, fun a v h => ?_⟩
    · have hstore : s.writeBram w.1 w.2 = { s with bram := m } := hm
      rw [Option.elim, hstore]
      rfl
    · cases h
      exact hstored

/-- Settles O49: the rows of IDLE, FLAG and ESCAPE. -/
theorem rxFlagAndEscapeRows : Obligations.RxFlagAndEscapeRows := by
  rintro p _ b rfl
  refine ⟨fun h hb => ?_, ?_, ?_, ?_, ?_, ?_, ?_⟩
  · rw [rxStep_idle h, if_neg hb]
    rfl
  · rintro h rfl
    rw [rxStep_idle h]
    rfl
  · rintro h hesc rfl
    rw [rxStep_flag (by simp [h]) hesc, rxFlag_waitAddr h]
    rfl
  · rintro h haddr hesc rfl
    rw [rxStep_flag h hesc, rxFlag_interrupted haddr]
    rfl
  · rintro h hesc rfl
    rw [rxStep_escape (by rcases h with h | h <;> simp [h]) hesc, rxEscape_fcs h]
    rfl
  · rintro h hesc rfl
    rw [rxStep_escape (by simp [h]) hesc, rxEscape_inBody h]
    rfl
  · rintro h hesc rfl
    rw [rxStep_escape (by rcases h with h | h | h | h <;> simp [h]) hesc, rxEscape_header h]
    rfl

/-- Settles O50: the row of each state, that of the low length byte by its three outcomes. -/
theorem rxLiteralRows : Obligations.RxLiteralRows := by
  rintro p _ b _ _ hb rfl rfl rfl
  refine ⟨fun h => rxStep_waitAddr h hb, fun h => rxStep_waitControl h hb, fun h => rxStep_waitLenHi h hb,
    fun h => ?_, fun h => rxStep_inBody h hb, fun h => rxStep_waitFcsHi h hb, fun h => rxStep_waitFcsLo h hb⟩
  rw [rxStep_waitLenLo h hb]
  refine ⟨fun hlong => if_pos hlong, fun hfits hzero => ?_, fun hfits hbody => ?_⟩
  · exact (if_neg (Nat.not_lt.mpr hfits)).trans (if_pos hzero)
  · exact (if_neg (Nat.not_lt.mpr hfits)).trans (if_neg hbody)

/-- Settles O51: the command is `rxStream` on the bytes of its start, and each byte stores inside the receive buffer. -/
theorem rxStreamResult : Obligations.RxStreamResult := by
  intro s bs hwf hinv hinit hn ha hfit hbs
  have hlen : bs.length = s.arg1.toNat := by simp [hbs]
  have hpos := BitVec.toNat_pos_of_ne_zero hn
  obtain ⟨hstops, hfold⟩ := rxStream_stops s bs
  refine ⟨_, _, hstops.pos (List.ne_nil_of_length_pos (by omega)), hlen ▸ hstops.le, rfl, ?_, hstops.quiet,
    hlen ▸ hstops.stopped, fun x hx => readBram_foldl_rxByte_outside hinv hinit hx _⟩
  rw [exec_pktRxstream_of_buffer hinit hn ha hfit, ← hfold, hbs]
  rfl

/-- Settles O52: the opening FLAG, the interior as one equation, and the closing FLAG, which stores outside the payload. -/
theorem frameRoundTrip : Obligations.FrameRoundTrip := by
  intro s t addr ctrl payload hwf hinv hinit hstart hfits hroom ht
  obtain ⟨m, p, hopen, hm, hrx, hesc, hcur, hrun, hbuf, hcap⟩ := rxByte_openingFlag hwf hinv hstart
  obtain ⟨-, hbuffer, -⟩ := hinv
  obtain ⟨-, -, hend⟩ := hbuffer hinit
  obtain ⟨q, hinterior, hidle, hqbuf⟩ := foldl_frameInterior (s := (s.setBram m).setPkt p) hrx hesc hcur hrun addr
    ctrl (by simpa [rxLimit, Config.maxPayload, Config.hdr, hcap] using hfits) rfl rfl
  rw [frameBytes_eq addr ctrl payload rfl rfl, List.foldl_cons, List.foldl_append, hopen, hinterior, List.foldl_cons,
    List.foldl_nil, rxByte_flag_of_idle _ hidle, emit_of_room (by simpa using hroom)] at ht
  subst ht
  refine ⟨by simp [hbuf], by simp, rfl, fun i b hb => ?_⟩
  have hcount := length_le_length_escAll payload
  obtain ⟨hi, -⟩ := List.getElem?_eq_some_iff.mp hb
  have hclosing : s.pkt.rxbuf.toNat + 5 + i ≠ q.rxbuf.toNat := by
    rw [hqbuf, State.setPkt_pkt, hbuf]
    omega
  have hindex : s.pkt.rxbuf.toNat + 5 + i - (s.pkt.rxbuf.toNat + 1) = i + 4 := by omega
  rw [readBram_setPkt, readBram_writeBram_ne _ _ hclosing, readBram_setEvq,
    State.readBram_memWrite _ hm, if_pos]
  · simp only [State.setPkt_pkt, hbuf, hindex]
    simp [List.getD_eq_getElem?_getD, hb]
  · simp only [State.setPkt_pkt, State.setPkt_cfg, State.setBram_cfg, hbuf, List.length_append, List.length_cons,
      List.length_nil]
    omega

end Sys2Proof.Machine
end

