-- ==== Sys2Proof/Proofs/PiReciter.lean ====
section
/-! SUPPORT. What PiNext and PiRx answer at each cursor (43_digit_emotion.md R190 to R194). -/

namespace Sys2Proof.Machine

/-! ### The digit at a cursor -/

section Digit

variable {c : Config} {k : Fin 129} {digit d : Byte}

/-- A legal table ends where the cursor is exhausted (10_state.md R53, R54). -/
theorem lt_of_piDigit (hc : c.Legal) (hk : c.piDigits[k.val]? = some digit) : k.val < 128 := by
  obtain ⟨-, -, -, -, -, -, -, -, -, hlen, -⟩ := hc
  obtain ⟨hlt, -⟩ := List.getElem?_eq_some_iff.mp hk
  exact hlt.trans_eq hlen

theorem piTable_of_piDigit (hk : c.piDigits[k.val]? = some digit) : piTable c k.val = digit := by
  simp [piTable, List.getD_eq_getElem?_getD, hk]

theorem piNext_of_piDigit (hc : c.Legal) (hk : c.piDigits[k.val]? = some digit) : piNext c (.pos k) = digit :=
  (if_neg (lt_of_piDigit hc hk).ne).trans (piTable_of_piDigit hk)

theorem piRx_of_ne (hc : c.Legal) (hk : c.piDigits[k.val]? = some digit) (hd : d ≠ digit) :
    piRx c d (.pos k) = (.sentinelWrong, .wrong) := by
  simp [piRx, lt_of_piDigit hc hk, piTable_of_piDigit hk, hd]

/-- The expected digit advances the cursor; the last one exhausts it (R192). -/
theorem piRx_of_eq (hc : c.Legal) (hk : c.piDigits[k.val]? = some digit) :
    piRx c digit (.pos k) =
      (.pos (Fin.ofNat 129 (k.val + 1)), if k.val = 127 then .exhausted else .okay) := by
  have hlt := lt_of_piDigit hc hk
  have hmod : (k.val + 1) % 129 = k.val + 1 := Nat.mod_eq_of_lt (by omega)
  simp [piRx, hlt, piTable_of_piDigit hk, Config.piDigitCount, Fin.ofNat, hmod]

end Digit

/-! ### The commands at a cursor -/

section Commands

variable {s : State}

theorem exec_piNext (s : State) :
    exec .piNext s = .next { s with res0 := (piNext s.cfg s.pi).setWidth 32, status := .okay } := rfl

/-- PI_RX answers what PiRx answers of ARG0[7:0], in the status and in RES0 (R193). -/
theorem exec_piRx_of_piRx {c : PiCursor} {st : Status} (h : piRx s.cfg (s.arg0.setWidth 8) s.pi = (c, st)) :
    exec .piRx s = .next { s with pi := c, res0 := st.code.setWidth 32, status := st } := by
  simp only [exec, execPiRx, field8_eq, h]
  rfl

/-- A cursor that stays: the only effects are the result's (R192). -/
theorem exec_piRx_of_stays {st : Status} (h : piRx s.cfg (s.arg0.setWidth 8) s.pi = (s.pi, st)) :
    exec .piRx s = .next { s with res0 := st.code.setWidth 32, status := st } :=
  exec_piRx_of_piRx h

end Commands

end Sys2Proof.Machine
end

