-- ==== Sys2Proof/Proofs/EmotionUnit.lean ====
section
/-! SUPPORT. The transition of the emotion unit, row by row, and EMO_UPDATE's result from it (43_digit_emotion.md R197, R198). -/

namespace Sys2Proof.Machine

/-! ### The rows of the transition -/

section Rows

variable {tps : Nat} {e : EmoState} {now : Word} {present : Bool}

theorem emoNext_unknown (h : e.emotion = .unknown) : emoNext tps e now present = ⟨.lonely, now⟩ := by
  simp only [emoNext, h]

/-- Time travel: every emotion takes a negative difference to LONELY (R198). -/
theorem emoNext_of_neg (hdt : (now.toNat : Int) - e.ts.toNat < 0) : emoNext tps e now present = ⟨.lonely, now⟩ := by
  cases h : e.emotion <;> simp only [emoNext, h, if_pos hdt]

theorem emoNext_lonely (h : e.emotion = .lonely) (hdt : 0 ≤ (now.toNat : Int) - e.ts.toNat) :
    emoNext tps e now present = if present then ⟨.happy, now⟩ else e := by
  simp only [emoNext, h, if_neg hdt.not_gt]

theorem emoNext_happy (h : e.emotion = .happy) (hdt : 0 ≤ (now.toNat : Int) - e.ts.toNat) :
    emoNext tps e now present =
      if present then if 3 * (tps : Int) < now.toNat - e.ts.toNat then ⟨.bored, now⟩ else e
      else ⟨.lonely, now⟩ := by
  simp only [emoNext, h, if_neg hdt.not_gt]
  cases present <;> rfl

theorem emoNext_bored (h : e.emotion = .bored) (hdt : 0 ≤ (now.toNat : Int) - e.ts.toNat) :
    emoNext tps e now present =
      if present = false ∧ 5 * (tps : Int) < now.toNat - e.ts.toNat then ⟨.lonely, now⟩ else e := by
  simp only [emoNext, h, if_neg hdt.not_gt, Bool.and_eq_true, Bool.not_eq_true', decide_eq_true_eq]
  rfl

end Rows

/-! ### EMO_UPDATE from the transition -/

section Update

variable {s : State} {e : EmoState}

theorem exec_emoUpdate_of_emoNext (h : emoNext s.cfg.tps s.emo s.arg0 (s.arg1.getLsbD 0) = e) :
    exec .emoUpdate s = .next { s with
      emo := e, res0 := if e.emotion ≠ s.emo.emotion then 1#32 else 0#32, status := .okay } := by
  subst h
  rfl

/-- A row that moves answers 1 (R198). -/
theorem exec_emoUpdate_of_moves (h : emoNext s.cfg.tps s.emo s.arg0 (s.arg1.getLsbD 0) = e)
    (hmoves : e.emotion ≠ s.emo.emotion) :
    exec .emoUpdate s = .next { s with emo := e, res0 := 1#32, status := .okay } := by
  rw [exec_emoUpdate_of_emoNext h, if_pos hmoves]

/-- A row that stays answers 0 and keeps the timestamp (R198). -/
theorem exec_emoUpdate_of_stays (h : emoNext s.cfg.tps s.emo s.arg0 (s.arg1.getLsbD 0) = s.emo) :
    exec .emoUpdate s = .next { s with res0 := 0#32, status := .okay } := by
  rw [exec_emoUpdate_of_emoNext h, if_neg (not_not_intro rfl)]

end Update

end Sys2Proof.Machine
end

