-- ==== Sys2Proof/Proofs/DigitEmotion.lean ====
section
/-! The statements of the family 43_digit_emotion.md. -/

namespace Sys2Proof.Machine

/-- Settles O53: each cursor with what PiNext and PiRx answer there. -/
theorem piCommands : Obligations.PiCommands := by
  rintro s _ hc rfl
  refine ⟨fun hpi => ⟨?_, ?_⟩, fun hpi => ⟨?_, ?_⟩, fun k digit hpi hk => ⟨?_, fun hd => ?_, ?_, ?_⟩, rfl⟩
  · rw [exec_piNext, hpi]
    rfl
  · exact exec_piRx_of_stays (by rw [hpi]; rfl)
  · rw [exec_piNext, hpi]
    rfl
  · exact exec_piRx_of_stays (by rw [hpi]; rfl)
  · rw [exec_piNext, hpi, piNext_of_piDigit hc hk]
  · exact exec_piRx_of_piRx (by rw [hpi, piRx_of_ne hc hk hd])
  · rintro rfl hlt
    exact exec_piRx_of_piRx (by rw [hpi, piRx_of_eq hc hk, if_neg hlt.ne])
  · rintro rfl hlast
    exact exec_piRx_of_piRx (by rw [hpi, piRx_of_eq hc hk, if_pos hlast, hlast]; rfl)

/-- Settles O55: each clause names the row of the transition and whether it moves. -/
theorem emotionCommands : Obligations.EmotionCommands := by
  rintro s _ _ rfl rfl
  refine ⟨rfl, fun hu => ?_, fun _ hneg => ?_, fun hl hdt => ⟨fun hp => ?_, fun hp => ?_⟩,
    fun hh hdt => ⟨fun hp => ?_, fun hp hlate => ?_, fun hp hsoon => ?_⟩,
    fun hb hdt => ⟨fun hp hlate => ?_, fun hstay => ?_⟩⟩
  · exact exec_emoUpdate_of_moves (emoNext_unknown hu) (by simp [hu])
  · by_cases hl : s.emo.emotion = .lonely
    · rw [exec_emoUpdate_of_emoNext (emoNext_of_neg hneg), if_neg (not_not_intro hl.symm), if_pos hl]
    · rw [exec_emoUpdate_of_moves (emoNext_of_neg hneg) (Ne.symm hl), if_neg hl]
  · exact exec_emoUpdate_of_moves ((emoNext_lonely hl hdt).trans (if_pos hp)) (by simp [hl])
  · exact exec_emoUpdate_of_stays ((emoNext_lonely hl hdt).trans (if_neg (Bool.eq_false_iff.mp hp)))
  · exact exec_emoUpdate_of_moves ((emoNext_happy hh hdt).trans (if_neg (Bool.eq_false_iff.mp hp))) (by simp [hh])
  · exact exec_emoUpdate_of_moves ((emoNext_happy hh hdt).trans ((if_pos hp).trans (if_pos hlate))) (by simp [hh])
  · exact exec_emoUpdate_of_stays ((emoNext_happy hh hdt).trans ((if_pos hp).trans (if_neg hsoon.not_gt)))
  · exact exec_emoUpdate_of_moves ((emoNext_bored hb hdt).trans (if_pos ⟨hp, hlate⟩)) (by simp [hb])
  · refine exec_emoUpdate_of_stays ((emoNext_bored hb hdt).trans (if_neg fun ⟨hp, hlate⟩ => ?_))
    rcases hstay with hp' | hsoon
    · exact Bool.eq_false_iff.mp hp hp'
    · exact hsoon.not_gt hlate

end Sys2Proof.Machine
end

