-- ==== Sys2Proof/Proofs/OrchestratorTick.lean ====
section
/-! SUPPORT. ORCH_TICK row by row, the checks and the buffer of SendDigit, and how the orchestrator's two commands move it and write BRAM (44_orchestrator.md R211 to R219). -/

namespace Sys2Proof.Machine

/-! ### The rows of the tick (R211, R212) -/

/-- Stopping DAC and ADC emits two records and changes nothing else (R216, R217). -/
theorem stopAll_eq (s : State) : s.stopAll =
    { s with evq := evqAfter s [evDacStop, evAdcStop], evqOvf := ovfAfter s [evDacStop, evAdcStop] } :=
  emitAll_eq s _

section Rows

variable {s : State}

/-- Leaving BORED comes before the row of the current state (R217). -/
theorem exec_orchTick_of_leaving (hp : s.orch.phase ≠ .idle) (hb : s.emo.emotion ≠ .bored) :
    exec .orchTick s = .next ((s.stopAll.setOrchPhase .idle).setStatus .okay) :=
  if_pos ⟨hp, hb⟩

theorem exec_orchTick_of_idle (hp : s.orch.phase = .idle) : exec .orchTick s =
    .next ((if s.emo.emotion = .bored then s.setOrchPhase .waitingSend else s).setStatus .okay) := by
  simp only [exec, execOrchTick, hp]
  rfl

theorem exec_orchTick_of_waitingSend (hp : s.orch.phase = .waitingSend) (hb : s.emo.emotion = .bored) :
    exec .orchTick s = sendDigit s := by
  simp [exec, execOrchTick, hp, hb]

theorem exec_orchTick_of_waiting (hp : s.orch.phase = .sending ∨ s.orch.phase = .waitingStop)
    (hb : s.emo.emotion = .bored) : exec .orchTick s = .next (s.setStatus .okay) := by
  rcases hp with hp | hp <;> simp [exec, execOrchTick, hp, hb, finish]

theorem exec_orchTick_of_done (hp : s.orch.phase = .done) (hb : s.emo.emotion = .bored) :
    exec .orchTick s = .next ((s.setOrchPhase .waitingSend).setStatus .okay) := by
  simp [exec, execOrchTick, hp, hb, finish]

theorem exec_orchTick_of_restart (hp : s.orch.phase = .restart) (hb : s.emo.emotion = .bored) :
    exec .orchTick s = .next (((s.stopAll.setPi (.pos 0)).setOrchPhase .waitingSend).setStatus .okay) := by
  simp [exec, execOrchTick, hp, hb, finish]

end Rows

/-! ### Sending a digit (R213 to R215) -/

/-- A sample at half amplitude (40_sine.md R124 with scale 2). -/
theorem sineSample_halfScale_bounds {c : Config} (hc : c.Legal) (num den : Nat) :
    64 ≤ (sineSample c num den 2).toNat ∧ (sineSample c num den 2).toNat ≤ 190 := by
  have hentry := signedEntry_natAbs_le hc (roundUpHalf num den % 1024)
  have hquot : ((signedEntry c (roundUpHalf num den % 1024)).tdiv (2 : Nat)).natAbs ≤ 63 := by
    rw [Int.natAbs_tdiv]
    exact Nat.div_le_div_right hentry
  obtain ⟨hbyte, -⟩ := sineSample_toNat hc num den 2
  omega

/-- The average of two bytes is no wider than a byte (R132). -/
theorem mixByte_toNat (a b : Byte) : (mixByte a b).toNat = (a.toNat + b.toNat) / 2 := by
  have ha := a.isLt
  have hb := b.isLt
  rw [mixByte, BitVec.toNat_ofNat]
  omega

/-- A synthesised sample averages two tones at half amplitude, both from phase 0 (R213). -/
theorem synthSample_eq (cfg : Config) (c : Fin 16) (fs i : Nat) : synthSample cfg c fs i =
    mixByte (sineSample cfg (i * rowHz c * 2 ^ 32) (fs * 2 ^ 22) 2)
      (sineSample cfg (i * colHz c * 2 ^ 32) (fs * 2 ^ 22) 2) := by
  simp only [synthSample, sineNum, sineDen, Nat.zero_mul, Nat.zero_add]

theorem synthSample_bounds {cfg : Config} (hc : cfg.Legal) (c : Fin 16) (fs i : Nat) :
    64 ≤ (synthSample cfg c fs i).toNat ∧ (synthSample cfg c fs i).toNat ≤ 190 := by
  have hrow := sineSample_halfScale_bounds hc (i * rowHz c * 2 ^ 32) (fs * 2 ^ 22)
  have hcol := sineSample_halfScale_bounds hc (i * colHz c * 2 ^ 32) (fs * 2 ^ 22)
  rw [synthSample_eq, mixByte_toNat]
  omega

/-- The state SendDigit leaves when its checks pass: the buffer, the three events, SENDING (R215). -/
def State.digitSent (s : State) (c : Fin 16) : State :=
  ((s.memWrite s.orch.dacBuf.toNat (synth s.cfg c s.orch.fs.toNat s.orch.dacLen.toNat)).emitAll
    [evDacInstall s.orch.dacBuf s.orch.dacLen, evDacStart, evAdcStart]).setOrchPhase .sending

section SendDigit

variable {s : State} {c : Fin 16}

/-- The first precondition comes before the lookup (R214). -/
theorem sendDigit_of_null (h : s.orch.dacBuf = 0#32 ∨ s.orch.dacLen = 0#32 ∨ s.orch.fs = 0#32) :
    sendDigit s = .next (s.setStatus .invalid) :=
  if_pos h

/-- Past the first precondition, for the digit PiNext gives: the Nyquist test, the range, then the effect (R214, R215). -/
theorem sendDigit_of_digit (hbuf : s.orch.dacBuf ≠ 0#32) (hlen : s.orch.dacLen ≠ 0#32) (hfs : s.orch.fs ≠ 0#32)
    (hc : symChar c = piNext s.cfg s.pi) : sendDigit s =
      if 2 * rowHz c ≥ s.orch.fs.toNat ∨ 2 * colHz c ≥ s.orch.fs.toNat then .next (s.setStatus .undersampled)
      else if s.cfg.bramSize < s.orch.dacBuf.toNat + s.orch.dacLen.toNat then .next (s.setStatus .erange)
      else .next ((s.digitSent c).setStatus .okay) := by
  have hnull : ¬ (s.orch.dacBuf = 0#32 ∨ s.orch.dacLen = 0#32 ∨ s.orch.fs = 0#32) := by simp [hbuf, hlen, hfs]
  have hrange : ¬ inRange s.cfg s.orch.dacBuf.toNat s.orch.dacLen.toNat ↔
      s.cfg.bramSize < s.orch.dacBuf.toNat + s.orch.dacLen.toNat := by
    have := BitVec.toNat_pos_of_ne_zero hbuf
    omega
  simp only [sendDigit, if_neg hnull, (symIndex_eq_some _ c).mpr hc, hrange, raise, finish]
  rfl

/-- A sent digit changes BRAM, the queue, EVQ_OVF and ORCH_STATE, and BRAM in the DAC buffer only (R213, R215). -/
theorem digitSent_leaves (hwf : s.bram.wf)
    (hfit : s.orch.dacBuf.toNat + s.orch.dacLen.toNat ≤ s.cfg.bramSize) (c : Fin 16) {es : List Event}
    (hes : es = [evDacInstall s.orch.dacBuf s.orch.dacLen, evDacStart, evAdcStart]) :
    ∃ m : Memory, s.digitSent c = { s with
        bram := m, evq := evqAfter s es, evqOvf := ovfAfter s es, orch := { s.orch with phase := .sending } } ∧
      m.wf ∧ ∀ x, (s.setBram m).readBram x =
        if s.orch.dacBuf.toNat ≤ x ∧ x < s.orch.dacBuf.toNat + s.orch.dacLen.toNat then
          synthSample s.cfg c s.orch.fs.toNat (x - s.orch.dacBuf.toNat)
        else s.readBram x := by
  obtain ⟨m, hm, hmwf, hread⟩ := memWrite_range_inside hwf (synthSample s.cfg c s.orch.fs.toNat) hfit
  refine ⟨m, ?_, hmwf, hread⟩
  rw [State.digitSent, synth, hm, emitAll_eq, hes]
  rfl

end SendDigit

/-! ### The moves of the orchestrator -/

/-- The rows of a BORED tick that move (R212). -/
def TickMove (p q : OrchPhase) : Prop :=
  (p = .idle ∧ q = .waitingSend) ∨ (p = .waitingSend ∧ q = .sending) ∨
  (p = .done ∧ q = .waitingSend) ∨ (p = .restart ∧ q = .waitingSend)

/-- The moves the demodulator's events make (R218, R219). -/
def SymbolMove (p q : OrchPhase) : Prop :=
  (p = .sending ∧ q = .waitingStop) ∨ (p = .waitingStop ∧ (q = .done ∨ q = .restart))

/-- The tick stays, leaves BORED for IDLE, or moves by a row of a BORED tick (R211, R212). -/
theorem orchTick_phase {s t : State} (h : exec .orchTick s = .next t) :
    t.orch.phase = s.orch.phase ∨ (s.emo.emotion ≠ .bored ∧ t.orch.phase = .idle) ∨
    (s.emo.emotion = .bored ∧ TickMove s.orch.phase t.orch.phase) := by
  obtain ⟨st, -, -, rfl, -⟩ | ⟨-, hb, rfl⟩ | ⟨hrow, ⟨-, -, rfl⟩ | ⟨-, rfl⟩ | ⟨hp, hb, rfl⟩ | ⟨hp, rfl⟩ |
    ⟨hp, bs, x, y, z, -, -, -, -, rfl⟩⟩ := exec_inv h
  · exact .inl rfl
  · exact .inr (.inl ⟨hb, rfl⟩)
  · exact .inl rfl
  · exact .inl rfl
  · refine .inr (.inr ⟨hb, ?_⟩)
    rcases hp with hp | hp
    · exact .inl ⟨hp, rfl⟩
    · exact .inr (.inr (.inl ⟨hp, rfl⟩))
  · exact .inr (.inr ⟨by simpa [hp] using hrow, .inr (.inr (.inr ⟨hp, rfl⟩))⟩)
  · exact .inr (.inr ⟨by simpa [hp] using hrow, .inr (.inl ⟨hp, rfl⟩)⟩)

/-- The release of the held symbol moves the orchestrator out of WAITING_STOP only (R219). -/
theorem releaseMove_phase (s : State) :
    (releaseMove s).2 = s.orch.phase ∨ SymbolMove s.orch.phase (releaseMove s).2 := by
  unfold releaseMove
  split
  · exact .inl rfl
  · split
    · exact .inr (.inr ⟨‹_›, ite_eq_or_eq _ _ _⟩)
    · exact .inl rfl

/-- The press of a symbol moves the orchestrator out of SENDING only (R218). -/
theorem pressPhase_eq (p : OrchPhase) (new : Option (Fin 16)) :
    pressPhase p new = p ∨ (p = .sending ∧ pressPhase p new = .waitingStop) := by
  unfold pressPhase
  split
  · exact .inr ⟨‹_ ∧ _›.2, rfl⟩
  · exact .inl rfl

/-- A release that moves leaves nothing for the press to move: DTMF_BLOCK makes at most one move (R218, R219). -/
theorem pressPhase_releaseMove (s : State) (new : Option (Fin 16)) :
    pressPhase (releaseMove s).2 new = s.orch.phase ∨
      SymbolMove s.orch.phase (pressPhase (releaseMove s).2 new) := by
  rcases pressPhase_eq (releaseMove s).2 new with hq | ⟨hsend, hq⟩
  · rw [hq]
    exact releaseMove_phase s
  · rcases releaseMove_phase s with hr | ⟨-, hr⟩ | ⟨-, hr⟩
    · exact .inr (.inl ⟨hr.symm.trans hsend, hq⟩)
    all_goals simp [hsend] at hr

theorem decideSymbol_phase (s : State) (new : Option (Fin 16)) (n : Nat) :
    (s.decideSymbol new n).orch.phase = s.orch.phase ∨
      SymbolMove s.orch.phase (s.decideSymbol new n).orch.phase := by
  by_cases h : new = s.dtmf.held
  · rw [State.decideSymbol, if_pos h]
    exact .inl rfl
  · rw [decideSymbol_of_ne h]
    exact pressPhase_releaseMove s new

theorem flush_phase (s : State) :
    s.flush.orch.phase = s.orch.phase ∨ SymbolMove s.orch.phase s.flush.orch.phase := by
  cases h : s.dtmf.held with
  | none => exact .inl (by simp only [State.flush, h])
  | some c =>
    rw [flush_of_held h]
    exact releaseMove_phase s

theorem dtmfBlock_phase {s t : State} (h : exec .dtmfBlock s = .next t) :
    t.orch.phase = s.orch.phase ∨ SymbolMove s.orch.phase t.orch.phase := by
  obtain ⟨st, -, -, rfl, -⟩ | ⟨-, ⟨-, rfl⟩ | ⟨new, n, v, -, rfl⟩⟩ := exec_inv h
  · exact .inl rfl
  · exact flush_phase s
  · exact decideSymbol_phase s new n

/-! ### The bytes the orchestrator writes (R221) -/

/-- A tick changes a byte of BRAM only when it sends a digit, and only in the DAC buffer (R215, R221). -/
theorem orchTick_readBram {s t : State} (h : exec .orchTick s = .next t) {x : Nat}
    (hx : t.readBram x ≠ s.readBram x) :
    s.orch.phase = .waitingSend ∧ t.orch.phase = .sending ∧
      s.orch.dacBuf.toNat ≤ x ∧ x < s.orch.dacBuf.toNat + s.orch.dacLen.toNat := by
  have hkept (hbram : t.bram = s.bram) : False := hx (readBram_congr hbram (exec_frame h).cfg x)
  obtain ⟨st, -, -, rfl, -⟩ | ⟨-, -, rfl⟩ | ⟨-, ⟨-, -, rfl⟩ | ⟨-, rfl⟩ | ⟨-, -, rfl⟩ | ⟨-, rfl⟩ |
    ⟨hp, bs, a, b, c, hlen, -, -, -, rfl⟩⟩ := exec_inv h
  · exact (hkept rfl).elim
  · exact (hkept (s.emitAll_bram _)).elim
  · exact (hkept rfl).elim
  · exact (hkept rfl).elim
  · exact (hkept rfl).elim
  · exact (hkept (s.emitAll_bram _)).elim
  · refine ⟨hp, rfl, ?_⟩
    by_contra hout
    refine hx ((readBram_congr (u := s.memWrite s.orch.dacBuf.toNat bs) ?_ ?_ x).trans ?_)
    · exact State.emitAll_bram _ _
    · exact State.emitAll_cfg _ _
    · exact s.readBram_memWrite_outside _ x bs (hlen ▸ hout)

end Sys2Proof.Machine
end

