-- ==== Sys2Proof/Proofs/Orchestrator.lean ====
section
/-! The statements of the family 44_orchestrator.md. -/

namespace Sys2Proof.Machine

/-- Settles O56: each clause is a row of the tick, with what stopping DAC and ADC emits. -/
theorem orchTickRows : Obligations.OrchTickRows := by
  intro s
  refine ⟨fun hp hb => ?_, fun hp hb => ?_, fun hp hb => ?_, fun hp hb => ?_, fun hp hb => ?_⟩
  · rw [exec_orchTick_of_leaving hp hb, stopAll_eq]
    rfl
  · rw [exec_orchTick_of_idle hp, if_neg hb]
    rfl
  · rcases hp with hp | hp
    · rw [exec_orchTick_of_idle hp, if_pos hb]
      rfl
    · exact exec_orchTick_of_done hp hb
  · exact exec_orchTick_of_waiting hp hb
  · rw [exec_orchTick_of_restart hp hb, stopAll_eq]
    rfl

/-- Settles O57: the tick is SendDigit, whose checks decide by the digit's two tones, and whose buffer holds the mixed tones. -/
theorem sendDigitResult : Obligations.SendDigitResult := by
  rintro s c _ _ es hlegal hwf hp hb (rfl : _ = rowHz c) (rfl : _ = colHz c) hes
  rw [exec_orchTick_of_waitingSend hp hb]
  refine ⟨sendDigit_of_null, fun hbuf hlen hfs hc => ?_⟩
  rw [sendDigit_of_digit hbuf hlen hfs hc]
  refine ⟨fun hunder => if_pos hunder, fun hrow hcol => ?_⟩
  rw [if_neg (not_or.mpr ⟨hrow.not_ge, hcol.not_ge⟩)]
  refine ⟨fun hend => if_pos hend, fun hfit => ?_⟩
  obtain ⟨m, hm, hmwf, hread⟩ := digitSent_leaves hwf hfit c hes
  refine ⟨m, ?_, hmwf, fun x => ?_, fun x hlo hhi => ?_⟩
  · rw [if_neg hfit.not_gt, hm]
    rfl
  · exact (hread x).trans (by rw [synthSample_eq]; rfl)
  · have hx := (hread x).trans (if_pos ⟨hlo, hhi⟩)
    exact hx ▸ synthSample_bounds hlegal c _ _

/-- Settles O58: only the two commands move the orchestrator, each by its own moves, and only the tick that sends a digit stores. -/
theorem orchestratorMoves : Obligations.OrchestratorMoves := by
  intro i s t h
  refine ⟨fun hmove => ?_, fun hi x hx => ?_⟩
  · rcases (exec_frame h).phase hmove with rfl | rfl
    · rcases (orchTick_phase h).resolve_left hmove with hleave | hrow
      · exact .inl ⟨rfl, hleave⟩
      · exact .inr (.inl ⟨rfl, hrow⟩)
    · exact .inr (.inr ⟨rfl, (dtmfBlock_phase h).resolve_left hmove⟩)
  · rcases hi with rfl | rfl
    · exact ⟨rfl, orchTick_readBram h hx⟩
    · exact absurd (readBram_congr (exec_bram h rfl) (exec_frame h).cfg x) hx

end Sys2Proof.Machine
end

