-- ==== Sys2Proof/Proofs/ControlEvents.lean ====
section
/-! SUPPORT. EVT_POP by the queue, and how many records every other command appends (45_control.md R231 to R233). -/

namespace Sys2Proof.Machine

/-! ### EVT_POP (R233) -/

theorem exec_evtPop_of_empty {s : State} (h : s.evq = []) : exec .evtPop s = .next (s.setStatus .invalid) := by
  simp only [exec, execEvtPop, h, raise]

theorem exec_evtPop_of_head {s : State} {e : Event} {q : List Event} (h : s.evq = e :: q) :
    exec .evtPop s = .next ((s.setEvq q).setStatus .okay) := by
  simp only [exec, execEvtPop, h, finish]

/-! ### Emitting at most so many records (R231) -/

/-- On the way from `s` to `t` at most `n` records were emitted, all well-formed. -/
def EmitsAtMost (n : Nat) (s t : State) : Prop := ∃ es, Emitted s t es ∧ (∀ e ∈ es, e.Ok) ∧ es.length ≤ n

section

variable {s t u : State} {n : Nat}

/-- What leaves the queue and EVQ_OVF alone emits nothing. -/
theorem EmitsAtMost.of_unchanged (hq : t.evq = s.evq) (hovf : t.evqOvf = s.evqOvf) : EmitsAtMost n s t :=
  ⟨[], .nil hq hovf, by simp, Nat.zero_le n⟩

/-- A change elsewhere after emitting. -/
theorem EmitsAtMost.of_eq (h : EmitsAtMost n s t) (hq : u.evq = t.evq) (hovf : u.evqOvf = t.evqOvf) :
    EmitsAtMost n s u := by
  obtain ⟨es, hes, hok, hlen⟩ := h
  exact ⟨es, hes.of_eq hq hovf, hok, hlen⟩

/-- A change elsewhere before emitting. -/
theorem EmitsAtMost.of_eq_left (h : EmitsAtMost n t u) (hq : t.evq = s.evq) (hovf : t.evqOvf = s.evqOvf)
    (hcfg : t.cfg = s.cfg) : EmitsAtMost n s u := by
  obtain ⟨es, hes, hok, hlen⟩ := h
  exact ⟨es, hes.of_eq_left hq hovf hcfg, hok, hlen⟩

end

theorem emitAll_emitsAtMost (s : State) {es : List Event} {n : Nat} (hok : ∀ e ∈ es, e.Ok) (hlen : es.length ≤ n) :
    EmitsAtMost n s (s.emitAll es) :=
  ⟨es, emitAll_emitted s es, hok, hlen⟩

/-- Stopping DAC and ADC emits two records, within the three a tick may emit (44_orchestrator.md R216). -/
theorem stopAll_emitsAtMost (s : State) : EmitsAtMost 3 s s.stopAll :=
  emitAll_emitsAtMost s (by simpa using ⟨evDacStop_ok, evAdcStop_ok⟩) (by decide)

/-- A received byte emits one record at most (42_packet.md R168). -/
theorem rxByte_emitsAtMost (s : State) (b : Byte) : EmitsAtMost 1 s (s.rxByte b) :=
  ⟨_, rxByte_emitted s b, by simpa using rxStep_event_ok s.pkt b, Option.length_toList_le⟩

/-! ### Every command (R232) -/

/-- R232's bound for a command run with ARG1 = `n`: a flush of the demodulator has one of its own. -/
def eventLimit (i : Instr) (n : Word) : Nat := if i = .dtmfBlock ∧ n = 0#32 then 2 else maxEvents i

theorem eventLimit_le (i : Instr) (n : Word) : eventLimit i n ≤ maxEvents i := by
  unfold eventLimit
  split
  · rename_i h
    rw [h.1]
    decide
  · exact le_rfl

/-- A tick that passed its checks emits three records at most (44_orchestrator.md R215 to R217). -/
theorem orchTick_emitsAtMost {s t : State} (h : Done s t .orchTick) : EmitsAtMost 3 s t := by
  obtain ⟨-, -, rfl⟩ | ⟨-, ⟨-, -, rfl⟩ | ⟨-, rfl⟩ | ⟨-, -, rfl⟩ | ⟨-, rfl⟩ | ⟨-, bs, x, y, z, -, hx, hy, hz, rfl⟩⟩ := h
  · exact (stopAll_emitsAtMost s).of_eq (by simp) (by simp)
  · exact .of_unchanged rfl rfl
  · exact .of_unchanged rfl rfl
  · exact .of_unchanged rfl rfl
  · exact (stopAll_emitsAtMost s).of_eq (by simp) (by simp)
  · have hsent : EmitsAtMost 3 (s.memWrite s.orch.dacBuf.toNat bs)
        ((s.memWrite s.orch.dacBuf.toNat bs).emitAll [x, y, z]) :=
      emitAll_emitsAtMost _ (by simpa using ⟨hx, hy, hz⟩) le_rfl
    exact (hsent.of_eq_left (by simp) (by simp) (by simp)).of_eq (by simp) (by simp)

/-- A block or a flush that passed its checks emits as many records as its sample count allows (41_dtmf.md R148, R149). -/
theorem dtmfBlock_emitsAtMost {s t : State} (h : Done s t .dtmfBlock) :
    EmitsAtMost (eventLimit .dtmfBlock s.arg1) s t := by
  obtain ⟨-, ⟨hn, rfl⟩ | ⟨new, n, v, hn, rfl⟩⟩ := h
  · rw [eventLimit, if_pos ⟨rfl, hn⟩]
    exact EmitsAtMost.of_eq (flush_emitted s) rfl rfl
  · rw [eventLimit, if_neg fun hflush => hn hflush.2]
    exact EmitsAtMost.of_eq (decideSymbol_emitted s new n) rfl rfl

/-- A command that passed its checks, the two that take records out of the queue apart. -/
theorem done_emitsAtMost {i : Instr} {s t : State} (hpop : i ≠ .evtPop) (hclear : i ≠ .evtClear) (h : Done s t i) :
    EmitsAtMost (eventLimit i s.arg1) s t := by
  cases i
  case evtPop => exact absurd rfl hpop
  case evtClear => exact absurd rfl hclear
  case dtmfBlock => exact dtmfBlock_emitsAtMost h
  case orchTick => exact orchTick_emitsAtMost h
  case pktRxbyte =>
    obtain ⟨-, rfl⟩ := h
    exact (rxByte_emitsAtMost s _).of_eq rfl rfl
  case pktRxstream =>
    obtain ⟨-, bs, v, rfl⟩ := h
    exact EmitsAtMost.of_eq (rxStream_emitted s bs) rfl rfl
  case nop | piNext | piReset | emoInit => subst h; exact .of_unchanged rfl rfl
  case sineSample | pktFcs | piRx => obtain ⟨v, rfl⟩ := h; exact .of_unchanged rfl rfl
  case emoUpdate => obtain ⟨e, v, rfl⟩ := h; exact .of_unchanged rfl rfl
  case dtmfInit => obtain ⟨-, rfl⟩ := h; exact .of_unchanged rfl rfl
  case pktRxinit => obtain ⟨-, -, -, rfl⟩ := h; exact .of_unchanged rfl rfl
  case sinePopulate => obtain ⟨r, st, -, -, rfl⟩ := h; exact .of_unchanged rfl rfl
  case sineMix => obtain ⟨a, bs, rfl⟩ := h; exact .of_unchanged (by simp) (by simp)
  case pktFrame => obtain ⟨a, bs, v, rfl⟩ := h; exact .of_unchanged (by simp) (by simp)
  case sineGen | sineFill =>
    obtain ⟨r, -, -, hg⟩ := h
    rw [generateInto_inv hg]
    exact .of_unchanged (by simp) (by simp)

/-- A command other than those two: a failure emits nothing (60_exceptions.md R242). -/
theorem exec_emitsAtMost {i : Instr} {s t : State} (hpop : i ≠ .evtPop) (hclear : i ≠ .evtClear)
    (h : exec i s = .next t) : EmitsAtMost (eventLimit i s.arg1) s t := by
  rcases exec_inv h with ⟨st, -, -, rfl, -⟩ | hdone
  · exact .of_unchanged rfl rfl
  · exact done_emitsAtMost hpop hclear hdone

end Sys2Proof.Machine
end

