-- ==== Sys2Proof/Proofs/Control.lean ====
section
/-! The statements of the family 45_control.md. -/

namespace Sys2Proof.Machine

/-- Settles O17: one Emit is a branch on the room, and several are `emitAll_eq`, by induction on the records. -/
theorem emitAppendsOrDrops : Obligations.EmitAppendsOrDrops := by
  refine ⟨fun s e => ⟨fun hroom => ?_, fun hfull => ?_⟩, emitAll_eq⟩
  · exact if_pos hroom
  · exact if_neg hfull.not_gt

/-- Settles O18: the only case split is EVT_POP's, on the queue. -/
theorem controlCommands : Obligations.ControlCommands := by
  intro s
  refine ⟨rfl, fun hempty => ?_, fun e q hhead => ?_, rfl⟩
  · exact exec_evtPop_of_empty hempty
  · exact exec_evtPop_of_head hhead

/-- Settles O19: a command's bound is R232's, and the flush's is the smaller one. -/
theorem eventsOnlyAppend : Obligations.EventsOnlyAppend := by
  intro i s t hpop hclear h
  obtain ⟨es, ⟨hq, hovf⟩, hok, hlen⟩ := exec_emitsAtMost hpop hclear h
  refine ⟨es, hlen.trans (eventLimit_le i s.arg1), hok, hq, hovf, ?_⟩
  rintro rfl hflush
  exact hlen.trans_eq (if_pos ⟨rfl, hflush⟩)

end Sys2Proof.Machine
end

