-- ==== Sys2Proof/Proofs/Completion.lean ====
section
/-! SUPPORT. How a command ends (60_exceptions.md R240, R246), what a failing buffer check does (R243), and an ILLEGAL word (R241). -/

namespace Sys2Proof.Machine

/-! ### Every command ends (R246) -/

/-- Every branch of SendDigit ends by `raise` or `finish` (44_orchestrator.md R214, R215). -/
theorem sendDigit_safe (s : State) : Safe (sendDigit s) := by
  unfold sendDigit
  dsimp only
  repeat' split
  all_goals exact ⟨_, rfl⟩

/-- Every branch of every command ends by `raise` or `finish`. -/
theorem exec_safe (i : Instr) (s : State) : Safe (exec i s) := by
  cases i
  case nop | piNext | piRx | piReset | emoInit | emoUpdate | evtClear => exact ⟨_, rfl⟩
  case orchTick =>
    simp only [exec, execOrchTick]
    split
    · exact ⟨_, rfl⟩
    · cases s.orch.phase with
      | waitingSend => exact sendDigit_safe s
      | idle | sending | waitingStop | done | restart => exact ⟨_, rfl⟩
  case sinePopulate | sineGen | sineFill | sineSample | sineMix | dtmfInit | dtmfBlock | pktFcs | pktFrame | pktRxinit |
      pktRxbyte | pktRxstream | evtPop =>
    simp only [exec, execSinePopulate, execSineGen, execSineFill, execSineSample, execSineMix, execDtmfInit,
      execDtmfBlock, execPktFcs, execPktFrame, execPktRxinit, execPktRxbyte, execPktRxstream, execEvtPop]
    repeat' split
    all_goals exact ⟨_, rfl⟩

/-! ### The status a command ends with (R240) -/

theorem okay_mem_mayEnd (i : Instr) : .okay ∈ mayEnd i := by
  cases i <;> exact List.mem_cons_self

/-- PiRx's result is OK, WRONG or EXHAUSTED (43_digit_emotion.md R192). -/
theorem piRx_status (c : Config) (d : Byte) (k : PiCursor) :
    (piRx c d k).2 = .okay ∨ (piRx c d k).2 = .wrong ∨ (piRx c d k).2 = .exhausted := by
  cases k with
  | sentinelWrong => exact .inr (.inl rfl)
  | pos k =>
    unfold piRx
    repeat' split
    all_goals simp

/-- The statuses other than OK that a command which passed its checks may end with. -/
def CommandOutcome (i : Instr) (st : Status) : Prop :=
  (i = .piRx ∧ (st = .wrong ∨ st = .exhausted)) ∨
  (∃ slot, (i = .sineGen slot ∨ i = .sineFill slot) ∧ st = .tooShort) ∨
  (∃ slot, i = .sinePopulate slot ∧ st = .invalid)

/-- A command that passed its checks ends with OK or with an outcome of its own. -/
theorem done_status {i : Instr} {s t : State} (h : Done s t i) : t.status = .okay ∨ CommandOutcome i t.status := by
  cases i
  case nop | piNext | piReset | emoInit | evtClear => subst h; exact .inl rfl
  case sineSample | pktFcs => obtain ⟨v, rfl⟩ := h; exact .inl rfl
  case emoUpdate => obtain ⟨e, v, rfl⟩ := h; exact .inl rfl
  case sineMix => obtain ⟨a, bs, rfl⟩ := h; exact .inl rfl
  case pktFrame => obtain ⟨a, bs, v, rfl⟩ := h; exact .inl rfl
  case dtmfInit | pktRxbyte => obtain ⟨-, rfl⟩ := h; exact .inl rfl
  case pktRxinit => obtain ⟨-, -, -, rfl⟩ := h; exact .inl rfl
  case pktRxstream => obtain ⟨-, bs, v, rfl⟩ := h; exact .inl rfl
  case evtPop => obtain ⟨e, q, -, rfl⟩ := h; exact .inl rfl
  case dtmfBlock => obtain ⟨-, ⟨-, rfl⟩ | ⟨new, n, v, -, rfl⟩⟩ := h <;> exact .inl rfl
  case orchTick =>
    obtain ⟨-, -, rfl⟩ | ⟨-, ⟨-, -, rfl⟩ | ⟨-, rfl⟩ | ⟨-, -, rfl⟩ | ⟨-, rfl⟩ | ⟨-, bs, x, y, z, -, -, -, -, rfl⟩⟩ := h
    all_goals exact .inl rfl
  case piRx =>
    obtain ⟨v, rfl⟩ := h
    exact (piRx_status _ _ _).imp_right fun hst => .inl ⟨rfl, hst⟩
  case sinePopulate slot =>
    obtain ⟨r, st, -, rfl | rfl, rfl⟩ := h
    · exact .inl rfl
    · exact .inr (.inr (.inr ⟨slot, rfl, rfl⟩))
  case sineGen slot | sineFill slot =>
    obtain ⟨r, -, -, hg⟩ := h
    rw [generateInto_inv hg, State.setStatus_status, sineStatus]
    split
    · exact .inr (.inr (.inl ⟨slot, by simp, rfl⟩))
    · exact .inl rfl

theorem CommandOutcome.mem_mayEnd {i : Instr} {st : Status} (h : CommandOutcome i st) : st ∈ mayEnd i := by
  obtain ⟨rfl, rfl | rfl⟩ | ⟨slot, rfl | rfl, rfl⟩ | ⟨slot, rfl, rfl⟩ := h <;> simp [mayEnd]

theorem CommandOutcome.ne_notFound {i : Instr} {st : Status} (h : CommandOutcome i st) : st ≠ .notFound := by
  obtain ⟨-, rfl | rfl⟩ | ⟨slot, -, rfl⟩ | ⟨slot, -, rfl⟩ := h <;> decide

/-- SINE_POPULATE is the one command that reports a failure after its checks (40_sine.md R125). -/
theorem CommandOutcome.of_isFailure {i : Instr} {st : Status} (h : CommandOutcome i st) (hst : st.isFailure = true) :
    ∃ slot, i = .sinePopulate slot := by
  obtain ⟨-, rfl | rfl⟩ | ⟨slot, -, rfl⟩ | ⟨slot, rfl, -⟩ := h
  · cases hst
  · cases hst
  · cases hst
  · exact ⟨slot, rfl⟩

/-! ### PI_NEXT's character has a symbol code (44_orchestrator.md R214) -/

/-- The ten digits are symbols (00_scope.md R21, R22). -/
theorem symIndex_digit {d : Byte} (hlo : 0x30 ≤ d.toNat) (hhi : d.toNat ≤ 0x39) : symIndex d ≠ none := by
  have hdigits : ∀ n < 10, symIndex (BitVec.ofNat 8 (0x30 + n)) ≠ none := by decide
  have hd : BitVec.ofNat 8 (0x30 + (d.toNat - 0x30)) = d := by
    rw [Nat.add_sub_cancel' hlo, BitVec.ofNat_toNat, BitVec.setWidth_eq]
  rw [← hd]
  exact hdigits _ (by omega)

/-- On a legal machine the reciter answers 'A', '#' or a digit of its table (43_digit_emotion.md R190), each a symbol. -/
theorem symIndex_piNext {c : Config} (hc : c.Legal) (k : PiCursor) : symIndex (piNext c k) ≠ none := by
  cases k with
  | sentinelWrong => exact (by decide : symIndex 0x41#8 ≠ none)
  | pos k =>
    by_cases hend : k.val = Config.piDigitCount
    · rw [piNext, if_pos hend]
      decide
    · have ⟨_, _, _, _, _, _, _, _, _, hlen, hdigits⟩ := hc
      have hcount : Config.piDigitCount = 128 := rfl
      have hlt : k.val < c.piDigits.length := by omega
      rw [piNext_of_piDigit hc (List.getElem?_eq_getElem hlt)]
      obtain ⟨hlo, hhi⟩ := hdigits _ (List.getElem_mem hlt)
      exact symIndex_digit hlo hhi

/-! ### The check of a buffer, in a command (20_memory.md R94) -/

/-- A command that answers its buffer's fault reports NULL first, then a buffer that leaves BRAM. -/
theorem bufferFault_order {s : State} {i : Instr} {a : Word} {n : Nat}
    (h : ∀ st, bufferFault s.cfg a.toNat n = some st → exec i s = .next (s.setStatus st)) :
    (a = 0#32 → exec i s = .next (s.setStatus .invalid)) ∧
    (a ≠ 0#32 → s.cfg.bramSize < a.toNat + n → exec i s = .next (s.setStatus .erange)) := by
  refine ⟨fun ha => h _ ?_, fun ha hover => h _ ?_⟩
  · simp [bufferFault, ha]
  · simp [bufferFault, (BitVec.toNat_pos_of_ne_zero ha).ne', hover]

section Commands

variable {s : State} {st : Status}

theorem exec_dtmfBlock_of_fault (hinit : s.dtmf.init = true) (hn : s.arg1 ≠ 0#32)
    (hf : bufferFault s.cfg s.arg0.toNat s.arg1.toNat = some st) : exec .dtmfBlock s = .next (s.setStatus st) := by
  have hn' : s.arg1.toNat ≠ 0 := (BitVec.toNat_pos_of_ne_zero hn).ne'
  simp only [exec, execDtmfBlock, hinit, if_neg hn', hf, raise]
  rfl

theorem exec_pktFcs_of_fault (hn : s.arg1 ≠ 0#32) (hf : bufferFault s.cfg s.arg0.toNat s.arg1.toNat = some st) :
    exec .pktFcs s = .next (s.setStatus st) := by
  have hn' : s.arg1.toNat ≠ 0 := (BitVec.toNat_pos_of_ne_zero hn).ne'
  simp only [exec, execPktFcs, if_neg hn', hf, raise]

theorem exec_pktFrame_of_fault (ha : s.arg0 ≠ 0#32) (hn : s.arg2 ≠ 0#32)
    (hf : bufferFault s.cfg s.arg1.toNat s.arg2.toNat = some st) : exec .pktFrame s = .next (s.setStatus st) := by
  have hn' : s.arg2.toNat ≠ 0 := (BitVec.toNat_pos_of_ne_zero hn).ne'
  simp only [exec, execPktFrame, if_neg ha, frameSourceFault, if_neg hn', hf, raise]

theorem exec_pktRxstream_of_fault (hinit : s.pkt.init = true) (hn : s.arg1 ≠ 0#32)
    (hf : bufferFault s.cfg s.arg0.toNat s.arg1.toNat = some st) : exec .pktRxstream s = .next (s.setStatus st) := by
  have hn' : s.arg1.toNat ≠ 0 := (BitVec.toNat_pos_of_ne_zero hn).ne'
  simp only [exec, execPktRxstream, hinit, if_neg hn', hf, raise]
  rfl

/-- PKT_RX_STREAM of no bytes (42_packet.md R178). -/
theorem exec_pktRxstream_of_empty (hinit : s.pkt.init = true) (hn : s.arg1 = 0#32) :
    exec .pktRxstream s = .next ((s.setRes0 0#32).setStatus .okay) := by
  simp only [exec, execPktRxstream, hinit, hn]
  rfl

/-- PKT_RX_INIT of a receive buffer that leaves BRAM, its two earlier checks passed (42_packet.md R166). -/
theorem exec_pktRxinit_of_over (ha : s.arg0 ≠ 0#32) (hcap : 5 ≤ s.arg1.toNat)
    (hover : s.cfg.bramSize < s.arg0.toNat + s.arg1.toNat) : exec .pktRxinit s = .next (s.setStatus .erange) := by
  have hbuf : ¬ (s.arg0 = 0#32 ∨ s.arg1.toNat < Config.hdr) := by simp [ha, Config.hdr, hcap]
  have hrange : ¬ inRange s.cfg s.arg0.toNat s.arg1.toNat := fun h => Nat.not_le.mpr hover h.2
  simp only [exec, execPktRxinit, if_neg hbuf, if_pos hrange, raise]

end Commands

/-! ### An ILLEGAL word (R241) -/

theorem perform_illegalWrite {s : State} {w : Word} (h : decode w = none) :
    s.perform (.write .word (s.cfg.coreBase + 0x00C) w) = .next (s.setStatus .illegal) := by
  simp only [State.perform, State.hostWrites, placeOf_reg s.cfg 0x00C (by decide) (by decide)]
  have hcmd : regAt s.cfg 0x00C = .cmd := rfl
  rw [if_pos hcmd, State.runCommand, h, raise]

end Sys2Proof.Machine
end

