-- ==== Sys2Proof/Proofs/Exceptions.lean ====
section
/-! The statements of the family 60_exceptions.md. -/

namespace Sys2Proof.Machine

/-- Settles O6: the step takes the CMD write from the queue, and an ILLEGAL word is a failure raised on that state. -/
theorem illegalCommandChangesStatusOnly : Obligations.IllegalCommandChangesStatusOnly := by
  intro s rest w hdec hq
  rw [step_cons hq]
  exact perform_illegalWrite (s := s.setHostQueue rest) hdec

/-- Settles O15: both are one conjunction, as a Bool and as a proposition. -/
theorem irqFollowsQueue : Obligations.IrqFollowsQueue := by
  intro s
  rw [State.irq, Bool.and_eq_true, decide_eq_true_iff]

/-- Settles O20: a failure is one of the command's own, any other end is OK or an outcome, and a legal machine's reciter names a symbol. -/
theorem statusesPerCommand : Obligations.StatusesPerCommand := by
  intro i s t h
  obtain ⟨st, hmem, -, rfl, hnone⟩ | hdone := exec_inv h
  · exact ⟨hmem, fun hc hst => symIndex_piNext hc s.pi (hnone hst)⟩
  · obtain hok | hout := done_status hdone
    · rw [hok]
      exact ⟨okay_mem_mayEnd i, fun _ => by decide⟩
    · exact ⟨hout.mem_mayEnd, fun _ => hout.ne_notFound⟩

/-- Settles O21: a failure is raised on the starting state, SINE_POPULATE's after it filled its slot. -/
theorem failureChangesOnlyStatus : Obligations.FailureChangesOnlyStatus := by
  intro i s t h hfail
  obtain ⟨st, hmem, -, rfl, -⟩ | hdone := exec_inv h
  · refine ⟨fun _ => rfl, ?_⟩
    rintro slot rfl
    obtain rfl | rfl : st = .okay ∨ st = .invalid := by simpa [mayEnd] using hmem
    · cases hfail
    · exact ⟨rfl, fun _ _ => rfl⟩
  · obtain hok | hout := done_status hdone
    · rw [hok] at hfail
      cases hfail
    · obtain ⟨slot, rfl⟩ := hout.of_isFailure hfail
      refine ⟨fun hne => absurd rfl (hne slot), ?_⟩
      rintro _ ⟨⟩
      obtain ⟨r, st, -, rfl | rfl, rfl⟩ := hdone
      · cases hfail
      · exact ⟨rfl, fun k hk => List.getElem?_set_ne hk.symm⟩

/-- Settles O22: every branch of every command ends. -/
theorem commandsAlwaysComplete : Obligations.CommandsAlwaysComplete := exec_safe

/-- Settles O35: a NULL check and an uninitialised unit answer at once, and a buffer's two checks keep their order in each command that has one. -/
theorem blockAndPacketCheckOrder : Obligations.BlockAndPacketCheckOrder := by
  intro s
  refine ⟨fun h => if_pos h, fun hinit hn => ?_, fun hn => ?_, fun h => if_pos h, fun ha hn => ?_, fun h => if_pos h,
    fun ha hcap hover => ?_, fun h => ⟨if_pos h, if_pos h⟩, fun hinit hn => ?_, fun hinit hn => ?_⟩
  · exact bufferFault_order fun _ => exec_dtmfBlock_of_fault hinit hn
  · exact bufferFault_order fun _ => exec_pktFcs_of_fault hn
  · exact bufferFault_order fun _ => exec_pktFrame_of_fault ha hn
  · exact exec_pktRxinit_of_over ha hcap hover
  · exact exec_pktRxstream_of_empty hinit hn
  · exact bufferFault_order fun _ => exec_pktRxstream_of_fault hinit hn

end Sys2Proof.Machine
end

