-- ==== Sys2Proof/Proofs/Reset.lean ====
section
/-! The statements of the family 70_reset_and_hazards.md: both resets end in a power-on state but for the HOST's side, so each clause is a fact about `State.powerOn`. -/

namespace Sys2Proof.Machine

/-! ### The registers of a power-on state -/

/-- Every field of a slot is 0 after reset (10_state.md R38). -/
theorem get_sineReqReset (f : SineField) : SineReq.reset.get f = 0#32 := by
  cases f <;> rfl

/-- A slot register reads as 0 after power-on, whether the machine has the slot or not (10_state.md R27, R38). -/
theorem readReg_powerOn_sreq (c : Config) (m : Memory) (slot : Nat) (f : SineField) :
    (State.powerOn c m).readReg (.sreq slot f) = 0#32 := by
  by_cases h : slot < c.nsreq
  · have hslot : (State.powerOn c m).sreq[slot]? = some SineReq.reset := by simp [State.powerOn, h]
    rw [readReg_sreq h hslot, get_sineReqReset]
  · exact readReg_sreq_beyond (Nat.le_of_not_lt h) f

/-- Every register of a power-on state reads its reset value (70_reset_and_hazards.md R261); a register packed of several fields is compared as a number. -/
theorem readReg_powerOn (c : Config) (m : Memory) (r : Reg) : (State.powerOn c m).readReg r = resetValue r := by
  cases r
  case sreq slot f => exact readReg_powerOn_sreq c m slot f
  case status => exact BitVec.eq_of_toNat_eq (statusWord_toNat _)
  case dtmfState => exact BitVec.eq_of_toNat_eq (dtmfWord_toNat _)
  case pktState => exact BitVec.eq_of_toNat_eq (pktWord_toNat _)
  case pktHdr => exact BitVec.eq_of_toNat_eq (hdrWord_toNat _)
  case pktLen | pktFcs => exact BitVec.eq_of_toNat_eq (halves_toNat _ _)
  all_goals rfl

/-- No register shows the waiting HOST inputs (log 1). -/
theorem readReg_setHostQueue (s : State) (q : List HostInput) (r : Reg) :
    (s.setHostQueue q).readReg r = s.readReg r := rfl

/-- No register shows the data of the last HOST read (log 2). -/
theorem readReg_setHostRead (s : State) (v : Word) (r : Reg) : (s.setHostRead v).readReg r = s.readReg r := rfl

/-! ### The two resets -/

/-- The register table of R261 after the soft reset (70_reset_and_hazards.md R262). -/
theorem readReg_softReset (s : State) (r : Reg) : s.softReset.readReg r = resetValue r := by
  rw [State.softReset, readReg_setHostRead, readReg_setHostQueue, readReg_powerOn]

/-- The register table of R261 after the platform's reset input (log 14). -/
theorem readReg_powerOnReset (s : State) (cells : List Host.Cell) (r : Reg) :
    (s.powerOnReset cells).readReg r = resetValue r := by
  rw [State.powerOnReset, readReg_setHostRead, readReg_setHostQueue, readReg_powerOn]

/-- A CTRL write with SRST is the soft reset, whatever its other bits are (70_reset_and_hazards.md R262). -/
theorem perform_softReset {s : State} {v : Word} (h : v.getLsbD 1 = true) :
    s.perform (.write .word (s.cfg.coreBase + 0x004) v) = .next s.softReset := by
  have hctrl : regAt s.cfg 0x004 = .ctrl := rfl
  rw [perform_writeReg v (by decide) (by decide) (by rw [hctrl]; decide), hctrl, State.writeReg, State.writeCtrl, if_pos h]

/-! ### The statements -/

/-- Settles O14: the soft reset, the power-on reset and `State.reset` are power-on states but for the HOST's side. -/
theorem resetsGiveResetValues : Obligations.ResetsGiveResetValues := by
  refine ⟨fun s v hsrst => ?_, fun s cells => ?_, rfl, rfl, readReg_powerOn Config.default []⟩
  · exact ⟨s.softReset, perform_softReset hsrst, rfl, rfl, rfl, rfl, rfl, readReg_softReset s⟩
  · exact ⟨s.powerOnReset cells, rfl, rfl, rfl, rfl, rfl, rfl, readReg_powerOnReset s cells⟩

/-- Settles O59: `powerOn_inv`, the cells a power-on stores being canonical and inside BRAM_SIZE. -/
theorem resetMeetsInvariant : Obligations.ResetMeetsInvariant := by
  refine ⟨?_, fun c cells hlegal => ?_⟩
  · exact powerOn_inv Config.default [] default_legal State.reset_bram_wf (by simp)
  · exact powerOn_inv c _ hlegal (Memory.wf_ofCells c.bramSize cells) (ofCells_mem c.bramSize cells)

end Sys2Proof.Machine
end
